-- ==== Sys2Proof/Word.lean ====
section
/-! DEFINITION. The words of the machine: bytes, 16-bit structures, command words, colour records. -/

namespace Sys2Proof

/-- A byte of VRAM, of TEX_RAW, or an 8-bit sample of TEX_PLANE (R21, R44, R45). -/
abbrev Byte := BitVec 8

/-- A 16-bit structure: a nametable entry, a sprite word, a scroll value, a colour word. -/
abbrev Half := BitVec 16

/-- A word of the command port (R90). -/
abbrev Word := BitVec 32

/-- One channel of a display-ready colour: an intensity below 2 ^ NATIVE_BITS, a parameter (R4). -/
abbrev Channel := Nat

/-- A display-ready colour record (R43): Transparent or Opaque(r, g, b). -/
inductive PalRecord where
  | transparent
  | opaqueRgb (r g b : Channel)
deriving DecidableEq, Repr, Inhabited

/-- The record with its channels cut to `bits` bits. -/
def PalRecord.clip (bits : Nat) : PalRecord → PalRecord
  | .transparent => .transparent
  | .opaqueRgb r g b => .opaqueRgb (r % 2 ^ bits) (g % 2 ^ bits) (b % 2 ^ bits)

/-- Every channel of the record has at most `bits` bits (R43). -/
def PalRecord.fits (bits : Nat) : PalRecord → Bool
  | .transparent => true
  | .opaqueRgb r g b => decide (r < 2 ^ bits) && decide (g < 2 ^ bits) && decide (b < 2 ^ bits)

/-- `ceil(n / d)`. -/
def ceilDiv (n d : Nat) : Nat := (n + d - 1) / d

end Sys2Proof
end

