-- ==== Sys2Proof/Syntax.lean ====
section
/-! DEFINITION. The commands of the command port (30_encoding.md R92), one constructor per row of the opcode table. -/

namespace Sys2Proof

/-- A decoded command with its operands (R92, R96 to R100). -/
inductive Instr where
  /-- INIT: arg[0] = vint, arg[1] = hint. -/
  | init (vint hint : Bool)
  /-- SEEKV: a byte offset. -/
  | seekv (offset : BitVec 24)
  /-- WRITEV: the data bytes, the first to the lowest address. -/
  | writev (bytes : List Byte)
  /-- FILLV: a byte and how many times. -/
  | fillv (byte : Byte) (len : BitVec 24)
  /-- SEEKC: an entry index. -/
  | seekc (offset : BitVec 24)
  /-- WRITEC: the colour words, the first to the lowest entry. -/
  | writec (words : List Half)
  /-- FILLC: a colour word and how many times. -/
  | fillc (word : Half) (len : BitVec 24)
  /-- SETPA: plane A's byte offset. -/
  | setpa (offset : BitVec 24)
  /-- SETPB: plane B's byte offset. -/
  | setpb (offset : BitVec 24)
  /-- SETSPR: the sprite table's byte offset. -/
  | setspr (offset : BitVec 24)
  /-- SETHS: the scroll table's byte offset. -/
  | seths (offset : BitVec 24)
  /-- SETPSZ: width and height in tiles. -/
  | setpsz (width height : BitVec 8)
  /-- SETBG: a CRAM entry number. -/
  | setbg (index : BitVec 8)
  /-- SETVS: the plane A value and the plane B value. -/
  | setvs (a b : Half)
  /-- SETHINT: a line. -/
  | sethint (line : Half)
  /-- RENDER: no operand. -/
  | render
deriving DecidableEq, Repr

/-- The 16 values of the op field that R92 names. -/
inductive Opcode where
  | init | seekv | writev | fillv | seekc | writec | fillc | setpa | setpb | setspr | seths
  | setpsz | setbg | setvs | sethint | render
deriving DecidableEq, Repr

/-- The opcode of a command. -/
def Instr.opcode : Instr → Opcode
  | .init _ _ => .init
  | .seekv _ => .seekv
  | .writev _ => .writev
  | .fillv _ _ => .fillv
  | .seekc _ => .seekc
  | .writec _ => .writec
  | .fillc _ _ => .fillc
  | .setpa _ => .setpa
  | .setpb _ => .setpb
  | .setspr _ => .setspr
  | .seths _ => .seths
  | .setpsz _ _ => .setpsz
  | .setbg _ => .setbg
  | .setvs _ _ => .setvs
  | .sethint _ => .sethint
  | .render => .render

end Sys2Proof
end

