-- ==== Sys2Proof/WellFormed.lean ====
section
/-! DEFINITION. Which commands can be spelled on the port: the count of an L-format command fits its 24-bit field. -/

namespace Sys2Proof

/-- The count field of WRITEV and WRITEC is arg[23:0] (R92); every other operand is bounded by its
type. -/
def Instr.wellFormed : Instr → Bool
  | .writev bytes => decide (bytes.length < 2 ^ 24)
  | .writec words => decide (words.length < 2 ^ 24)
  | .init _ _ => true
  | .seekv _ => true
  | .fillv _ _ => true
  | .seekc _ => true
  | .fillc _ _ => true
  | .setpa _ => true
  | .setpb _ => true
  | .setspr _ => true
  | .seths _ => true
  | .setpsz _ _ => true
  | .setbg _ => true
  | .setvs _ _ => true
  | .sethint _ => true
  | .render => true

end Sys2Proof
end

