-- ==== Sys2Proof/Decode.lean ====
section
/-! DEFINITION. The command port's decoder and encoder (30_encoding.md Part A, R90 to R104). -/

namespace Sys2Proof

/-! ## The header word -/

/-- `op = w[31:24]` (R91). -/
def opField (w : Word) : BitVec 8 := w.extractLsb' 24 8

/-- `arg = w[23:0]` (R91). -/
def argField (w : Word) : BitVec 24 := w.extractLsb' 0 24

/-- The op value of each command (R92). -/
def Opcode.code : Opcode → BitVec 8
  | .init    => 0x01
  | .seekv   => 0x10
  | .writev  => 0x11
  | .fillv   => 0x12
  | .seekc   => 0x20
  | .writec  => 0x21
  | .fillc   => 0x22
  | .setpa   => 0x30
  | .setpb   => 0x31
  | .setspr  => 0x32
  | .seths   => 0x33
  | .setpsz  => 0x34
  | .setbg   => 0x35
  | .setvs   => 0x36
  | .sethint => 0x37
  | .render  => 0x40

/-- Every opcode, in the table's order. -/
def Opcode.all : List Opcode :=
  [.init, .seekv, .writev, .fillv, .seekc, .writec, .fillc, .setpa, .setpb, .setspr, .seths,
   .setpsz, .setbg, .setvs, .sethint, .render]

/-- The arg bits that R92 leaves to an operand, as a number of low bits; the bits above must be 0
(R95). -/
def Opcode.argBits : Opcode → Nat
  | .init    => 2
  | .setpsz  => 16
  | .setbg   => 8
  | .setvs   => 0
  | .sethint => 16
  | .render  => 0
  | .seekv   => 24
  | .writev  => 24
  | .fillv   => 24
  | .seekc   => 24
  | .writec  => 24
  | .fillc   => 24
  | .setpa   => 24
  | .setpb   => 24
  | .setspr  => 24
  | .seths   => 24

/-- The command a header word spells; none when the word is illegal: an op value outside R92, or a
reserved bit set (R95, R101). -/
def opcodeOf (w : Word) : Option Opcode :=
  match Opcode.all.find? (fun o => o.code == opField w) with
  | some o => if (argField w).toNat < 2 ^ o.argBits then some o else none
  | none => none

/-- How many payload words follow a header word, a function of the header alone (R103). -/
def payloadWords (w : Word) : Nat :=
  match opcodeOf w with
  | some .writev => ceilDiv (argField w).toNat 4
  | some .writec => (argField w).toNat
  | some .fillv => 1
  | some .fillc => 1
  | some .setvs => 1
  | some _ => 0
  | none => 0

/-! ## The payload -/

/-- The four byte lanes of a payload word, low lane first (R96). -/
def lanes (w : Word) : List Byte :=
  [w.extractLsb' 0 8, w.extractLsb' 8 8, w.extractLsb' 16 8, w.extractLsb' 24 8]

/-- The bytes of a list of payload words (R96). -/
def unpackBytes (ws : List Word) : List Byte := ws.flatMap lanes

/-- Bytes packed four to a word, low lane first, the unused lanes 0 (R96). -/
def packBytes : List Byte → List Word
  | [] => []
  | [a] => [(0 : Byte) ++ (0 : Byte) ++ (0 : Byte) ++ a]
  | [a, b] => [(0 : Byte) ++ (0 : Byte) ++ b ++ a]
  | [a, b, c] => [(0 : Byte) ++ c ++ b ++ a]
  | a :: b :: c :: d :: rest => (d ++ c ++ b ++ a) :: packBytes rest

/-- The low half of a payload word: a colour word or a plane A scroll value (R98 to R100). -/
def lowHalf (w : Word) : Half := w.extractLsb' 0 16

/-- The high half of a payload word: the plane B scroll value (R100). -/
def highHalf (w : Word) : Half := w.extractLsb' 16 16

/-- The command of a legal header `w` of opcode `o` and its payload words (R92, R96 to R100).
Operands are taken as they stand (R104). -/
def assemble (o : Opcode) (w : Word) (p : List Word) : Instr :=
  match o with
  | .init    => .init (w.getLsbD 0) (w.getLsbD 1)
  | .seekv   => .seekv (argField w)
  | .writev  => .writev ((unpackBytes p).take (argField w).toNat)
  | .fillv   => .fillv ((p.headD 0).extractLsb' 0 8) (argField w)
  | .seekc   => .seekc (argField w)
  | .writec  => .writec (p.map lowHalf)
  | .fillc   => .fillc (lowHalf (p.headD 0)) (argField w)
  | .setpa   => .setpa (argField w)
  | .setpb   => .setpb (argField w)
  | .setspr  => .setspr (argField w)
  | .seths   => .seths (argField w)
  | .setpsz  => .setpsz (w.extractLsb' 0 8) (w.extractLsb' 8 8)
  | .setbg   => .setbg (w.extractLsb' 0 8)
  | .setvs   => .setvs (lowHalf (p.headD 0)) (highHalf (p.headD 0))
  | .sethint => .sethint (w.extractLsb' 0 16)
  | .render  => .render

/-! ## Decoding a stream of words -/

/-- What a stream of words begins with. -/
inductive Decoded where
  /-- A whole command, and the words after it. -/
  | command (i : Instr) (rest : List Word)
  /-- An illegal header word, consumed alone (R101), and the words after it. -/
  | illegal (w : Word) (rest : List Word)
  /-- A legal header whose payload has not all arrived (R90). -/
  | incomplete
  /-- No word at all. -/
  | empty
deriving DecidableEq, Repr

/-- The first `n` elements and the rest, when there are `n`. -/
def splitExact {α : Type} : Nat → List α → Option (List α × List α)
  | 0, xs => some ([], xs)
  | _ + 1, [] => none
  | n + 1, x :: xs => (splitExact n xs).map fun pr => (x :: pr.1, pr.2)

/-- The first command of a stream of words (R90, R101, R103). -/
def decode : List Word → Decoded
  | [] => .empty
  | w :: rest =>
    match opcodeOf w with
    | none => .illegal w rest
    | some o =>
      match splitExact (payloadWords w) rest with
      | none => .incomplete
      | some (p, rest') => .command (assemble o w p) rest'

/-! ## Encoding -/

/-- `op ++ arg` (R91). -/
def header (o : Opcode) (arg : BitVec 24) : Word := o.code ++ arg

/-- The arg field of a command's header (R92). -/
def Instr.arg : Instr → BitVec 24
  | .init vint hint => (0 : BitVec 22) ++ BitVec.ofBool hint ++ BitVec.ofBool vint
  | .seekv offset => offset
  | .writev bytes => BitVec.ofNat 24 bytes.length
  | .fillv _ len => len
  | .seekc offset => offset
  | .writec words => BitVec.ofNat 24 words.length
  | .fillc _ len => len
  | .setpa offset => offset
  | .setpb offset => offset
  | .setspr offset => offset
  | .seths offset => offset
  | .setpsz width height => (0 : BitVec 8) ++ height ++ width
  | .setbg index => (0 : BitVec 16) ++ index
  | .setvs _ _ => 0
  | .sethint line => (0 : BitVec 8) ++ line
  | .render => 0

/-- The payload words of a command, ignored bits 0 (R96 to R100). -/
def Instr.payload : Instr → List Word
  | .writev bytes => packBytes bytes
  | .fillv byte _ => [(0 : BitVec 24) ++ byte]
  | .writec words => words.map fun h => (0 : BitVec 16) ++ h
  | .fillc word _ => [(0 : BitVec 16) ++ word]
  | .setvs a b => [b ++ a]
  | .init _ _ => []
  | .seekv _ => []
  | .seekc _ => []
  | .setpa _ => []
  | .setpb _ => []
  | .setspr _ => []
  | .seths _ => []
  | .setpsz _ _ => []
  | .setbg _ => []
  | .sethint _ => []
  | .render => []

/-- The words that spell a command. -/
def encode (i : Instr) : List Word := header i.opcode i.arg :: i.payload

/-! ## The table's numbering of bits -/

/-- Word `k` of an instruction whose bits are `v`, bit 0 the least significant bit of word 0. -/
def tableWord (v k : Nat) : Word := BitVec.ofNat 32 (v >>> (32 * k))

/-- Words `k`, `k + 1`, ..., `n` of them. -/
def tableWords (v : Nat) : (n k : Nat) → List Word
  | 0, _ => []
  | n + 1, k => tableWord v k :: tableWords v n (k + 1)

/-- The command the decoder reads from an instruction whose `nbits` bits are `w`, every bit above
them 0: the header and as many payload words as it asks for. -/
def decodeTableWord (nbits w : Nat) : Option Instr :=
  let v := w % 2 ^ nbits
  let h := tableWord v 0
  (opcodeOf h).map fun o => assemble o h (tableWords v (payloadWords h) 1)

end Sys2Proof
end

