-- ==== Sys2Proof/Config.lean ====
section
/-! DEFINITION. What an implementation of the VDP block fixes (00_scope.md R4) and the free values. -/

namespace Sys2Proof

/-- How many entries CRAM, PAL_STAGE and PAL_OUT have in State: the 64 of R24, R43 and R46. -/
abbrev cramEntries : Nat := 64

/-- How many bins an ordering table has in State: the six of R274. -/
abbrev binCount : Nat := 6

/-- The width and the height of a TEX_PLANE layer in samples (R45). -/
abbrev texSide : Nat := 1024

/-- The parameters of R4 with their defaults, and the Expand table of R257. NUM_BLOCKS is derived
(`Config.numBlocks`) and POLICY is the strap, a register (R33). Fixed for a machine: no step changes
it. -/
structure Config where
  vramSize     : Nat := 65536
  cramWords    : Nat := 64
  screenWidth  : Nat := 320
  screenHeight : Nat := 224
  spriteSlots  : Nat := 80
  blockSize    : Nat := 2048
  maxTiles     : Nat := 4096
  planeAlign   : Nat := 0x2000
  spriteAlign  : Nat := 0x0400
  hscrollAlign : Nat := 0x0400
  originBias   : Nat := 128
  nativeBits   : Nat := 5
  numBins      : Nat := 6
  primCapacity : Nat := 4096
  atlasXBase   : Nat := 512
  expand       : Vector Nat 8 := #v[0, 4, 9, 13, 18, 22, 27, 31]
deriving DecidableEq, Repr

/-- NUM_BLOCKS of R4. -/
def Config.numBlocks (c : Config) : Nat := c.vramSize / c.blockSize

/-- A power of two. -/
def powerOfTwo (n : Nat) : Bool := 2 ^ n.log2 == n

/-- What an alignment is: a power of two (R4), and even (R63). -/
def evenPowerOfTwo (n : Nat) : Bool := powerOfTwo n && n % 2 == 0

/-- The three properties R257 assumes of the Expand table: 0 to 0, 7 to the maximum of NATIVE_BITS
bits, strictly increasing. -/
def Config.expandLegal (c : Config) : Bool :=
  c.expand[0] == 0 && c.expand[7] + 1 == 2 ^ c.nativeBits &&
    (List.finRange 7).all fun i => decide (c.expand[i.castSucc] < c.expand[i.succ])

/-- The constraint column of R4, and R257. VRAM_SIZE is "fixed", CRAM_WORDS "fixed by source",
MAX_TILES the "largest legal PW x PH" (R184), NUM_BINS the six bins of R274. The alignments are "all
even" besides (R63). -/
def Config.legal (c : Config) : Bool :=
  c.vramSize == 65536 && c.cramWords == cramEntries && c.maxTiles == 4096 && c.numBins == binCount &&
  decide (1 ≤ c.screenWidth) && decide (c.screenWidth ≤ 1024) &&
  decide (1 ≤ c.screenHeight) && decide (c.screenHeight ≤ 256) &&
  decide (1 ≤ c.spriteSlots) && decide (c.spriteSlots ≤ 128) &&
  powerOfTwo c.blockSize && decide (c.blockSize ∣ c.vramSize) &&
  evenPowerOfTwo c.planeAlign && evenPowerOfTwo c.spriteAlign && evenPowerOfTwo c.hscrollAlign &&
  c.expandLegal

/-- The stores whose reset contents R51 leaves unspecified and that are addressed sparsely. -/
inductive Store where
  | vram
  | texRaw
  | texALo
  | texAHi
  | texBLo
deriving DecidableEq, Repr

/-- FREE VALUE (R51, U1): what address `a` of a store holds after the `k`-th reset. Nothing
constrains it. -/
opaque Config.freeByte : Store → (k a : Nat) → Byte

/-- FREE VALUE (R51, U1): what entry `i` of CRAM holds after the `k`-th reset. -/
opaque Config.freeCram : (k i : Nat) → Half

/-- FREE VALUE (R51, U1): what record `i` of PAL_STAGE holds after the `k`-th reset. -/
opaque Config.freePalStage : (k i : Nat) → PalRecord

/-- FREE VALUE (R51, U1): what record `i` of PAL_OUT holds after the `k`-th reset. -/
opaque Config.freePalOut : (k i : Nat) → PalRecord

/-- FREE VALUE: what a consumer would see for a sample above 63, of which R261 says that none
occurs. Read by the consumer functions only, never by a step. -/
opaque Config.freeResolve : Byte → PalRecord

end Sys2Proof
end

