-- ==== Sys2Proof/Machine/State.lean ====
section
/-! DEFINITION. The state of the VDP block (10_state.md), why a step can stop, and the machine after reset. -/

namespace Sys2Proof.Machine

/-! ## Sparse memories -/

/-- What an unlisted address of a memory reads as. `free store k` is the unspecified contents of a
store after the `k`-th reset (R51, U1). `fill b` is a definite contents, every byte `b`: no step
makes it; it lets a state with known contents be written out (95_test_vectors.md assumes zero). -/
inductive Background where
  | free (store : Store) (k : Nat)
  | fill (b : Byte)
deriving DecidableEq, Repr

/-- A byte memory in canonical form (`Memory.wf` of Ops.lean): the cells that differ from the
background, addresses strictly rising. -/
structure Memory where
  base  : Background
  cells : List Host.Cell
deriving DecidableEq, Repr

/-- A store none of whose bytes has been written since the `k`-th reset. -/
def Memory.unwritten (store : Store) (k : Nat) : Memory := { base := .free store k, cells := [] }

/-! ## Small types -/

/-- VCLASS (R23). `none` is the class None. -/
inductive VClass where
  | none | planeA | planeB | other
deriving DecidableEq, Repr

/-- The two scrolling planes. -/
inductive Plane where
  | a | b
deriving DecidableEq, Repr

/-- The layers of TEX_PLANE: plane A has LO and HI, plane B has LO only (R45). -/
inductive Layer where
  | lo | hi
deriving DecidableEq, Repr

/-- POLICY (R33). -/
inductive Policy where
  | validated | unchecked
deriving DecidableEq, Repr

/-- PHASE (R34). The value 3 never occurs. -/
inductive Phase where
  | building | flushed | presented
deriving DecidableEq, Repr

/-- The number of a present-state slot (R35, R41). -/
inductive SlotId where
  | zero | one
deriving DecidableEq, Repr

/-- A framebuffer identifier (R37, R42). -/
inductive FbId where
  | fb0 | fb1
deriving DecidableEq, Repr

/-- A set of flag indices: an array of flag bits held as the list of the indices that are 1,
strictly rising. -/
abbrev FlagSet := List Nat

/-! ## Primitives -/

/-- A plane segment (R223). -/
structure Seg where
  plane : Plane
  layer : Layer
  x : Nat
  y : Nat
  w : Nat
  h : Nat
  u : Nat
  v : Nat
deriving DecidableEq, Repr

/-- A sprite column (R241). -/
structure SprCol where
  x : Int
  y : Int
  ht : Nat
  tile : BitVec 11
  pal : BitVec 2
  hf : Bool
  vf : Bool
  slot : Nat
deriving DecidableEq, Repr

/-- The background fill (R276). -/
structure Fill where
  x : Nat
  y : Nat
  w : Nat
  h : Nat
  r : Channel
  g : Channel
  b : Channel
deriving DecidableEq, Repr

/-- The three primitive kinds (R289). -/
inductive Prim where
  | seg (p : Seg)
  | sprcol (p : SprCol)
  | fill (p : Fill)
deriving DecidableEq, Repr

/-- The number of a priority bin, 0 drawn first (R274). -/
abbrev Bin := Fin binCount

/-- The stored part of a present-state slot (R41). -/
structure Slot where
  bins  : Vector (List Prim) binCount
  count : Nat
deriving DecidableEq, Repr

/-- A slot with every bin empty and count 0 (R41, R271). -/
def Slot.empty : Slot := { bins := Vector.replicate binCount [], count := 0 }

/-! ## Outputs -/

/-- The diagnostics of R301, in the order of their codes 1 to 15. -/
inductive DiagCode where
  | illegalCmd | notInit | alreadyInit | vramSeek | vramWrite | vramFill | cramSeek | cramWrite
  | cramFill | regionRange | planeSize | bgColour | spriteChain | spriteLink | primOverflow
deriving DecidableEq, Repr

/-- An event of the output trace OUT (R50). -/
inductive OutEvent where
  | diag (code : DiagCode) (info : Word)
  | palUpload (pal : Vector PalRecord cramEntries)
  | blockUpload (k : Nat) (bytes : List Byte)
  | tileUpload (p : Plane) (t : Nat) (entry : Half) (samples : List Byte)
  | install (slot : SlotId) (disp draw : FbId)
  | submitOt (slot : SlotId) (list : List Prim)
  | flip (front : SlotId)
  | vint
deriving DecidableEq, Repr

/-! ## Inputs -/

/-- What the host and the environment present (R90, R311, R316, R340). -/
inductive Input where
  /-- A word at the command port. -/
  | word (w : Word)
  /-- GPU_DONE. -/
  | gpuDone
  /-- VBLANK. -/
  | vblank
  /-- GPU_DONE and VBLANK at the same instant (R316). -/
  | gpuDoneAndVblank
  /-- The reset input, with the strap it samples (R340). -/
  | reset (strap : Policy)
deriving DecidableEq, Repr

/-- A partly received command (R90): its header, the payload words that have come, in order, and
how many are still to come (never 0 between steps). -/
structure Partial where
  header : Word
  got    : List Word
  left   : Nat
deriving DecidableEq, Repr

/-! ## The state -/

/-- The state of VDPB (R20), the partly received command of the port (R90, R340), the parameters
(R48), and two fields of the model's own: `inputs`, what is presented and not yet taken, oldest
first, and `resets`, the argument of the free contents. -/
structure State where
  cfg        : Config
  vram       : Memory
  vcur       : BitVec 17
  vclass     : VClass
  cram       : Vector Half cramEntries
  ccur       : BitVec 7
  paBase     : BitVec 16
  pbBase     : BitVec 16
  sprBase    : BitVec 16
  hsBase     : BitVec 16
  pw         : BitVec 8
  ph         : BitVec 8
  bgcol      : BitVec 6
  vsa        : Half
  vsb        : Half
  hintLine   : Half
  inited     : Bool
  vintEn     : Bool
  hintEn     : Bool
  policy     : Policy
  phase      : Phase
  front      : SlotId
  gpuBusy    : Bool
  activeDisp : FbId
  activeDraw : FbId
  dirtyBlk   : FlagSet
  dirtyTileA : FlagSet
  dirtyTileB : FlagSet
  slot0      : Slot
  slot1      : Slot
  palStage   : Vector PalRecord cramEntries
  palOut     : Vector PalRecord cramEntries
  texRaw     : Memory
  texALo     : Memory
  texAHi     : Memory
  texBLo     : Memory
  out        : List OutEvent
  rx         : Option Partial
  inputs     : List Input
  resets     : Nat
deriving DecidableEq, Repr

/-- The machine right after its `k`-th reset with parameters `cfg` and the strap `strap` sampled
(R51, R340, R341), `inputs` still to come. The unspecified contents are free values. -/
def State.powerOn (cfg : Config) (strap : Policy) (k : Nat) (inputs : List Input) : State where
  cfg        := cfg
  vram       := Memory.unwritten .vram k
  vcur       := 0
  vclass     := .none
  cram       := Vector.ofFn fun i => Config.freeCram k i
  ccur       := 0
  paBase     := 0
  pbBase     := 0
  sprBase    := 0
  hsBase     := 0
  pw         := 64
  ph         := 32
  bgcol      := 0
  vsa        := 0
  vsb        := 0
  hintLine   := 0
  inited     := false
  vintEn     := false
  hintEn     := false
  policy     := strap
  phase      := .building
  front      := .zero
  gpuBusy    := false
  activeDisp := .fb0
  activeDraw := .fb1
  dirtyBlk   := []
  dirtyTileA := []
  dirtyTileB := []
  slot0      := Slot.empty
  slot1      := Slot.empty
  palStage   := Vector.ofFn fun i => (Config.freePalStage k i).clip cfg.nativeBits
  palOut     := Vector.ofFn fun i => (Config.freePalOut k i).clip cfg.nativeBits
  texRaw     := Memory.unwritten .texRaw k
  texALo     := Memory.unwritten .texALo k
  texAHi     := Memory.unwritten .texAHi k
  texBLo     := Memory.unwritten .texBLo k
  out        := []
  rx         := none
  inputs     := inputs
  resets     := k

/-- The machine right after reset: the default parameters of R4, the default strap Validated (R33),
nothing presented at its inputs. -/
def State.reset : State := State.powerOn {} .validated 0 []

/-! ## Why a step can stop -/

/-- Why the machine stops with a fault. -/
inductive Fault where
  /-- Raised by RENDER (its Building and its Flushed step) in a state whose region map or plane size
  would make an engine's address leave VRAM. R63 and R70 say that no such address arises, and no run
  reaches such a state (`State.Wf` of Safety.lean). Safe: the hardware has no such state. -/
  | regionOutsideVram
deriving DecidableEq, Repr

/-- Why the model gives no next state. -/
inductive Refusal where
  /-- A command whose meaning is not written. Raised by Dispatch.lean only. Safe. -/
  | notModelled (mnemonic : String)
  /-- A violation while POLICY = Unchecked, `code` the diagnostic it would raise under Validated.
  Raised by every command that commits one; R302: "a model must refuse (give no next state for)"
  it. Safe. -/
  | uncheckedViolation (code : DiagCode)
deriving DecidableEq, Repr

end Sys2Proof.Machine
end

