-- ==== Sys2Proof/Machine/Ops.lean ====
section
/-! DEFINITION. The named operations: memory, slots, the output trace, and raising a diagnostic. -/

namespace Sys2Proof.Machine

/-- The outcome of a meaning or of a step. -/
abbrev Result := Host.Outcome State Fault Refusal

/-! ## Memories -/

/-- What address `a` reads as when it is not listed. -/
def Background.at : Background → Nat → Byte
  | .free store k, a => Config.freeByte store k a
  | .fill b, _ => b

/-- The value listed for address `a`. -/
def lookupCell : List Host.Cell → Nat → Option Byte
  | [], _ => none
  | (k, v) :: rest, a => if k = a then some v else lookupCell rest a

/-- `MemRead(a, 1)` (R8). -/
def Memory.read (m : Memory) (a : Nat) : Byte := (lookupCell m.cells a).getD (m.base.at a)

/-- `MemRead(a, 2)`: big-endian, the byte at the lower address holds bits 15-8 (R8, R60). -/
def Memory.read16 (m : Memory) (a : Nat) : Half := m.read a ++ m.read (a + 1)

/-- The `n` bytes from address `a` on. -/
def Memory.readRange (m : Memory) (a n : Nat) : List Byte := (List.range n).map fun i => m.read (a + i)

/-- The cells of bytes placed from address `a` on, less those equal to what the background holds. -/
def freshCells (base : Background) : Nat → List Byte → List Host.Cell
  | _, [] => []
  | a, b :: bs => if b = base.at a then freshCells base (a + 1) bs else (a, b) :: freshCells base (a + 1) bs

/-- The bytes `bs` written to addresses `a`, `a + 1`, ... (the write loops of R140, R141, R280,
R208). Keeps the canonical form. -/
def Memory.write (m : Memory) (a : Nat) (bs : List Byte) : Memory :=
  { m with
    cells := m.cells.filter (fun c => decide (c.1 < a)) ++ freshCells m.base a bs ++
      m.cells.filter (fun c => decide (a + bs.length ≤ c.1)) }

/-- Strictly rising addresses, from `lo` on. -/
def cellsRise : Nat → List Host.Cell → Bool
  | _, [] => true
  | lo, (k, _) :: rest => decide (lo ≤ k) && cellsRise (k + 1) rest

/-- The canonical form: addresses strictly rising, no entry equal to what an unlisted address reads
as. -/
def Memory.wf (m : Memory) : Bool :=
  cellsRise 0 m.cells && m.cells.all fun c => decide (c.2 ≠ m.base.at c.1)

/-- Every listed address is below `size`. -/
def Memory.within (m : Memory) (size : Nat) : Bool := m.cells.all fun c => decide (c.1 < size)

/-- `CRAM[a + i] <- ws[i]` for each i (R162, R163). -/
def writeCram : Vector Half cramEntries → Nat → List Half → Vector Half cramEntries
  | cram, _, [] => cram
  | cram, a, w :: ws => writeCram (cram.setIfInBounds a w) (a + 1) ws

/-! ## The output trace and diagnostics -/

/-- `emit EVENT(...)` (R8, R50). -/
def State.emit (e : OutEvent) (s : State) : State := { s with out := s.out ++ [e] }

/-- The code of a diagnostic (R301). -/
def DiagCode.code : DiagCode → BitVec 8
  | .illegalCmd   => 1
  | .notInit      => 2
  | .alreadyInit  => 3
  | .vramSeek     => 4
  | .vramWrite    => 5
  | .vramFill     => 6
  | .cramSeek     => 7
  | .cramWrite    => 8
  | .cramFill     => 9
  | .regionRange  => 10
  | .planeSize    => 11
  | .bgColour     => 12
  | .spriteChain  => 13
  | .spriteLink   => 14
  | .primOverflow => 15

/-- The event of `raise Diag(code, info)`: info is 32 bits, zero-extended (R300). -/
def diagEvent (code : DiagCode) (info : Nat) : OutEvent := .diag code (BitVec.ofNat 32 info)

/-- `raise Diag(code, info)`: this hardware's exception entry. One event is appended and nothing
else: nothing is saved, no mode changes, control goes nowhere (R300, R309). There is no return
(R310). -/
def State.raise (code : DiagCode) (info : Nat) (s : State) : State := s.emit (diagEvent code info)

/-- `raise Diag(code, info); reject`. Under Validated the diagnostic is the only change (R300);
under Unchecked the violation has no behaviour and is refused (R302). -/
def reject (code : DiagCode) (info : Nat) (s : State) : Result :=
  match s.policy with
  | .validated => .next (s.raise code info)
  | .unchecked => .refused (.uncheckedViolation code)

/-- The initialization check every command but INIT begins with (R304, R306): the info is the
header's op value. -/
def requireInit (o : Opcode) (s : State) (k : State → Result) : Result :=
  if s.inited then k s else reject .notInit o.code.toNat s

/-- DIAG, the sub-stream of OUT that holds the diagnostics (R50). -/
def State.diagStream (s : State) : List OutEvent :=
  s.out.filter fun e => match e with
    | .diag _ _ => true
    | .palUpload _ => false
    | .blockUpload _ _ => false
    | .tileUpload _ _ _ _ => false
    | .install _ _ _ => false
    | .submitOt _ _ => false
    | .flip _ => false
    | .vint => false

/-! ## Present-state slots -/

/-- The other slot: the back slot is `1 - FRONT` (R35). -/
def SlotId.other : SlotId → SlotId
  | .zero => .one
  | .one => .zero

/-- The constant SLOT[s].disp (R42). -/
def SlotId.disp : SlotId → FbId
  | .zero => .fb0
  | .one => .fb1

/-- The constant SLOT[s].draw (R42). -/
def SlotId.draw : SlotId → FbId
  | .zero => .fb1
  | .one => .fb0

/-- SLOT[i] (R41). -/
def State.slot (s : State) : SlotId → Slot
  | .zero => s.slot0
  | .one => s.slot1

/-- `SLOT[i] <- v`. -/
def State.setSlot (i : SlotId) (v : Slot) (s : State) : State :=
  match i with
  | .zero => { s with slot0 := v }
  | .one => { s with slot1 := v }

/-- A primitive appended to a bin, the count raised (R273). -/
def Slot.push (p : Prim) (b : Bin) (sl : Slot) : Slot :=
  { bins := sl.bins.set b (sl.bins[b] ++ [p]), count := sl.count + 1 }

/-- DrawList(s) (R286): bins 0 to 5, each in reverse insertion order. -/
def Slot.drawList (sl : Slot) : List Prim := sl.bins.toList.flatMap List.reverse

/-! ## The debug accessor -/

/-- What DebugRead answers (R325). -/
inductive DebugAnswer where
  /-- A RENDER is in progress: the accessor is not available. -/
  | unavailable
  /-- The request passes the end of VRAM: no data. -/
  | noData
  /-- The bytes asked for. -/
  | data (bytes : List Byte)
deriving DecidableEq, Repr

/-- `DebugRead(O, N)` (R325): reads VRAM itself, changes nothing. -/
def State.debugRead (s : State) (o n : Nat) : DebugAnswer :=
  if s.phase = .building then
    if o + n ≤ s.cfg.vramSize then .data (s.vram.readRange o n) else .noData
  else .unavailable

end Sys2Proof.Machine
end

