-- ==== Sys2Proof/Machine/Cram.lean ====
section
/-! DEFINITION. SEEKC, WRITEC, FILLC (41_cram_access.md). -/

namespace Sys2Proof.Machine

/-- SEEKC (R161). -/
def execSeekc (offset : BitVec 24) (s : State) : Result :=
  requireInit .seekc s fun s =>
    if s.cfg.cramWords ≤ offset.toNat then reject .cramSeek offset.toNat s
    else .next { s with ccur := BitVec.ofNat 7 offset.toNat }

/-- What an accepted WRITEC or FILLC does with its colour words (R162, R163): all 16 bits are
stored. -/
def State.writeColours (words : List Half) (s : State) : State :=
  { s with
    cram := writeCram s.cram s.ccur.toNat words
    ccur := BitVec.ofNat 7 (s.ccur.toNat + words.length) }

/-- WRITEC (R162). -/
def execWritec (words : List Half) (s : State) : Result :=
  requireInit .writec s fun s =>
    if s.cfg.cramWords < s.ccur.toNat + words.length then reject .cramWrite s.ccur.toNat s
    else .next (s.writeColours words)

/-- FILLC (R163). -/
def execFillc (word : Half) (len : BitVec 24) (s : State) : Result :=
  requireInit .fillc s fun s =>
    if s.cfg.cramWords < s.ccur.toNat + len.toNat then reject .cramFill s.ccur.toNat s
    else .next (s.writeColours (List.replicate len.toNat word))

end Sys2Proof.Machine
end

