-- ==== Sys2Proof/Machine/Operands.lean ====
section
/-! DEFINITION. Operand forms and the layouts of the structures in VRAM and CRAM (30_encoding.md Part B), the region map (R49). -/

namespace Sys2Proof.Machine

/-! ## Nametable entries and sprite entries -/

/-- The fields of a nametable entry (R105) or of a sprite tile/palette word (R109). -/
structure TileRef where
  pat : BitVec 11
  hf  : Bool
  vf  : Bool
  pal : BitVec 2
  pri : Bool
deriving DecidableEq, Repr

/-- The layout of R105: pattern 10-0, horizontal flip 11, vertical flip 12, palette 14-13, priority
15. -/
def tileRef (e : Half) : TileRef where
  pat := e.extractLsb' 0 11
  hf  := e.getLsbD 11
  vf  := e.getLsbD 12
  pal := e.extractLsb' 13 2
  pri := e.getLsbD 15

/-- The fields of a sprite attribute entry (R236). -/
structure SpriteEntry where
  y    : BitVec 10
  wf   : BitVec 2
  hf   : BitVec 2
  link : BitVec 7
  tile : TileRef
  x    : BitVec 9
deriving DecidableEq, Repr

/-- The layouts of R107 to R110, from the four words of an entry. -/
def spriteEntry (w0 w1 w2 w3 : Half) : SpriteEntry where
  y    := w0.extractLsb' 0 10
  wf   := w1.extractLsb' 10 2
  hf   := w1.extractLsb' 8 2
  link := w1.extractLsb' 0 7
  tile := tileRef w2
  x    := w3.extractLsb' 0 9

/-- `sample = (palette << 4) or pixel` (R114). -/
def sampleOf (pal : BitVec 2) (pixel : BitVec 4) : Byte := (pal.setWidth 8 <<< 4) ||| pixel.setWidth 8

/-! ## Colours -/

/-- The red channel of a colour word (R112). -/
def redOf (c : Half) : BitVec 3 := c.extractLsb' 1 3

/-- The green channel of a colour word (R112). -/
def greenOf (c : Half) : BitVec 3 := c.extractLsb' 5 3

/-- The blue channel of a colour word (R112). -/
def blueOf (c : Half) : BitVec 3 := c.extractLsb' 9 3

/-- `unpack(c)` (R113). -/
def unpackColour (c : Half) : BitVec 3 × BitVec 3 × BitVec 3 := (redOf c, greenOf c, blueOf c)

/-- `pack(r, g, b)` (R113). -/
def packColour (r g b : BitVec 3) : Half :=
  (r.setWidth 16 <<< 1) ||| (g.setWidth 16 <<< 5) ||| (b.setWidth 16 <<< 9)

/-- Expand, a table of the configuration (R257). -/
def expandOf (cfg : Config) (v : BitVec 3) : Channel := cfg.expand[v.toFin]

/-- The 16-bit form of a display-ready record (R115, R258): the low five bits of each channel. -/
def packedRecord : PalRecord → Half
  | .transparent => 0
  | .opaqueRgb r g b => (1 : BitVec 1) ++ BitVec.ofNat 5 b ++ BitVec.ofNat 5 g ++ BitVec.ofNat 5 r

/-! ## The region map -/

/-- A range of VRAM addresses `[base, base + size)`. -/
structure Region where
  base : Nat
  size : Nat
deriving DecidableEq, Repr

/-- `base <= o < base + size`. -/
def Region.holds (r : Region) (o : Nat) : Bool := decide (r.base ≤ o) && decide (o < r.base + r.size)

/-- The region ends inside a store of `size` bytes. -/
def Region.fits (size : Nat) (r : Region) : Bool := decide (r.base + r.size ≤ size)

/-- `N = 2*PW*PH`, the bytes of a nametable (R28, R49). -/
def nametableBytes (pw ph : BitVec 8) : Nat := 2 * pw.toNat * ph.toNat

/-- The bytes of the sprite attribute table (R49). -/
def spriteTableBytes (cfg : Config) : Nat := 8 * cfg.spriteSlots

/-- The bytes of the horizontal scroll table (R49). -/
def scrollTableBytes (cfg : Config) : Nat := 4 * cfg.screenHeight

/-- P_BASE. -/
def State.planeBase (s : State) : Plane → BitVec 16
  | .a => s.paBase
  | .b => s.pbBase

/-- The nametable of a plane (R49). -/
def State.planeRegion (s : State) (p : Plane) : Region :=
  { base := (s.planeBase p).toNat, size := nametableBytes s.pw s.ph }

/-- The sprite attribute table (R49). -/
def State.spriteRegion (s : State) : Region :=
  { base := s.sprBase.toNat, size := spriteTableBytes s.cfg }

/-- The horizontal scroll table (R49). -/
def State.scrollRegion (s : State) : Region :=
  { base := s.hsBase.toNat, size := scrollTableBytes s.cfg }

/-! ## Operand checks -/

/-- `offset and not (ALIGN - 1)` over the 24-bit operand (R104, R179). -/
def alignMask (align : Nat) (offset : BitVec 24) : BitVec 24 := offset &&& ~~~(BitVec.ofNat 24 (align - 1))

/-- A legal width or height (R28, R184). -/
def legalSide (n : BitVec 8) : Bool := n == 32 || n == 64 || n == 128

/-- The legal pairs of R28 and R184. -/
def legalPlaneSize (pw ph : BitVec 8) : Bool :=
  legalSide pw && legalSide ph && decide (pw.toNat * ph.toNat ≤ 4096)

/-- Every address an engine of RENDER can form lies in VRAM (R70): the plane size is legal and the
four regions end inside the store. -/
def State.regionsFit (s : State) : Bool :=
  legalPlaneSize s.pw s.ph && (s.planeRegion .a).fits s.cfg.vramSize && (s.planeRegion .b).fits s.cfg.vramSize &&
    s.spriteRegion.fits s.cfg.vramSize && s.scrollRegion.fits s.cfg.vramSize

end Sys2Proof.Machine
end

