-- ==== Sys2Proof/Machine/Flags.lean ====
section
/-! DEFINITION. This hardware's flags: the region locator (R131) and the marking half of the dirty tracker (R144 to R147). -/

namespace Sys2Proof.Machine

/-- `Classify(o)` (R131): plane A, plane B, the two tables, None, the first match in that order. -/
def State.classify (s : State) (o : Nat) : VClass :=
  if (s.planeRegion .a).holds o then .planeA
  else if (s.planeRegion .b).holds o then .planeB
  else if s.spriteRegion.holds o then .other
  else if s.scrollRegion.holds o then .other
  else .none

/-- Flags `lo` to `hi` set, both inclusive, the others as they were. A flag already set stays set
(R145, R146). -/
def FlagSet.mark (f : FlagSet) (lo hi : Nat) : FlagSet :=
  f.filter (fun k => decide (k < lo)) ++ List.range' lo (hi + 1 - lo) ++ f.filter (fun k => decide (hi < k))

/-- The indices are strictly rising, from `lo` on. -/
def risesFrom : Nat → List Nat → Bool
  | _, [] => true
  | lo, k :: rest => decide (lo ≤ k) && risesFrom (k + 1) rest

/-- The canonical form of an array of `n` flags: strictly rising, every index below `n`. -/
def FlagSet.wf (f : FlagSet) (n : Nat) : Bool := risesFrom 0 f && f.all fun k => decide (k < n)

/-- `MarkBlocks(a, b)`, a < b (R145). -/
def State.markBlocks (a b : Nat) (s : State) : State :=
  { s with dirtyBlk := FlagSet.mark s.dirtyBlk (a / s.cfg.blockSize) ((b - 1) / s.cfg.blockSize) }

/-- DIRTY_TILE_P. -/
def State.dirtyTile (s : State) : Plane → FlagSet
  | .a => s.dirtyTileA
  | .b => s.dirtyTileB

/-- `DIRTY_TILE_P <- f`. -/
def State.setDirtyTile (p : Plane) (f : FlagSet) (s : State) : State :=
  match p with
  | .a => { s with dirtyTileA := f }
  | .b => { s with dirtyTileB := f }

/-- `MarkTiles(P, a, b)`, a < b (R146): the range clipped to plane P as configured now, then the
run of row-major tile indices from its first entry to its last. -/
def State.markTiles (p : Plane) (a b : Nat) (s : State) : State :=
  let base := (s.planeBase p).toNat
  let lo := max a base
  let hi := min b (base + nametableBytes s.pw s.ph)
  if lo < hi then
    s.setDirtyTile p (FlagSet.mark (s.dirtyTile p) ((lo - base) / 2) ((hi - 1 - base) / 2))
  else s

/-- `MarkDirty(a, b)` (R144): exactly one of four paths, by VCLASS. -/
def State.markDirty (a b : Nat) (s : State) : State :=
  if a = b then s else
    match s.vclass with
    | .none => s.markBlocks a b
    | .planeA => s.markTiles .a a b
    | .planeB => s.markTiles .b a b
    | .other => s

end Sys2Proof.Machine
end

