-- ==== Sys2Proof/Machine/Palette.lean ====
section
/-! DEFINITION. Colour conversion and palette upload (46_palette.md). -/

namespace Sys2Proof.Machine

/-- The display-ready record of entry `i` holding the colour word `word` (R256). -/
def recordOf (cfg : Config) (i : Nat) (word : Half) : PalRecord :=
  if i % 16 = 0 then .transparent
  else .opaqueRgb (expandOf cfg (redOf word)) (expandOf cfg (greenOf word)) (expandOf cfg (blueOf word))

/-- `ConvertPalette()` (R256): all 64 entries. -/
def convertPalette (cfg : Config) (cram : Vector Half cramEntries) : Vector PalRecord cramEntries :=
  Vector.ofFn fun i => recordOf cfg i.val (cram[i.val])

/-- `FillColour()` (R260): the entry's real colour, whatever its position. -/
def State.fillColour (s : State) : Channel × Channel × Channel :=
  let word := s.cram[s.bgcol.toFin]
  (expandOf s.cfg (redOf word), expandOf s.cfg (greenOf word), expandOf s.cfg (blueOf word))

/-- `UploadPalette()` (R259). -/
def State.uploadPalette (s : State) : State :=
  State.emit (.palUpload s.palStage) { s with palOut := s.palStage }

end Sys2Proof.Machine
end

