-- ==== Sys2Proof/Machine/Planes.lean ====
section
/-! DEFINITION. The plane renderer (44_plane_renderer.md). -/

namespace Sys2Proof.Machine

/-- What the Building step does, in order: a primitive for a bin (R273) or a diagnostic raised by
the sprite walk (R238). -/
inductive BuildAction where
  | prim (p : Prim) (b : Bin)
  | diag (code : DiagCode) (info : Nat)
deriving DecidableEq, Repr

/-- A run (R218): first scanline, last scanline, source row of the first, scroll value. -/
structure Run where
  y0 : Nat
  y1 : Nat
  v0 : Nat
  hs : Half
deriving DecidableEq, Repr

/-- `HS(P, y)` (R216): the foreground value is plane A's, the background value plane B's. -/
def State.scrollAt (s : State) (p : Plane) (y : Nat) : Half :=
  match p with
  | .a => s.vram.read16 (s.hsBase.toNat + 4 * y)
  | .b => s.vram.read16 (s.hsBase.toNat + 4 * y + 2)

/-- VS(P) (R217). -/
def State.vscroll (s : State) : Plane → Half
  | .a => s.vsa
  | .b => s.vsb

/-- `v(P, y) = (y + VS(P)) mod Hp` (R217). -/
def State.sourceRow (s : State) (p : Plane) (y : Nat) : Nat :=
  (y + (s.vscroll p).toNat) % (8 * s.ph.toNat)

/-- The scanline loop of R218 with the open run (y0, v0, hs0): `n` scanlines from `y` on are still
to come. The last append is the explicit flush of R219. -/
def runsFrom (hs : Nat → Half) (row : Nat → Nat) : (n y y0 v0 : Nat) → Half → List Run
  | 0, y, y0, v0, hs0 => [{ y0 := y0, y1 := y - 1, v0 := v0, hs := hs0 }]
  | n + 1, y, y0, v0, hs0 =>
    if hs y ≠ hs0 ∨ row y % 256 = 0 then
      { y0 := y0, y1 := y - 1, v0 := v0, hs := hs0 } :: runsFrom hs row n (y + 1) y (row y) (hs y)
    else runsFrom hs row n (y + 1) y0 v0 hs0

/-- `PlaneRuns(P)` (R218). -/
def State.planeRuns (s : State) (p : Plane) : List Run :=
  runsFrom (s.scrollAt p) (s.sourceRow p) (s.cfg.screenHeight - 1) 1 0 (s.sourceRow p 0) (s.scrollAt p 0)

/-- A sub-segment of a flush (R221): screen column, width, source column. -/
structure SubSeg where
  x : Nat
  w : Nat
  u : Nat
deriving DecidableEq, Repr

/-- The width loop of R221: split at every multiple of 256 of the source column. Each turn covers at
least one column, so `fuel = width` turns are enough. -/
def subSegments (width wp : Nat) : (fuel x u : Nat) → List SubSeg
  | 0, _, _ => []
  | fuel + 1, x, u =>
    if x < width then
      let w := min (width - x) (256 - u % 256)
      { x := x, w := w, u := u } :: subSegments width wp fuel (x + w) ((u + w) % wp)
    else []

/-- `u = (0 - hs) mod Wp`, the source column shown at screen x = 0 (R221; R7 gives the sign of
mod). -/
def startColumn (hs : Half) (wp : Nat) : Nat := ((-(hs.toNat : Int)) % (wp : Int)).toNat

/-- The layers of a plane, in emission order (R221). -/
def layersOf : Plane → List Layer
  | .a => [.lo, .hi]
  | .b => [.lo]

/-- `Bin(P, L)` (R222, R274). -/
def segBin : Plane → Layer → Bin
  | .b, _ => 1
  | .a, .lo => 2
  | .a, .hi => 4

/-- `Flush(P, run)` (R221). -/
def State.flushRun (s : State) (p : Plane) (r : Run) : List BuildAction :=
  let wp := 8 * s.pw.toNat
  (subSegments s.cfg.screenWidth wp s.cfg.screenWidth 0 (startColumn r.hs wp)).flatMap fun g =>
    (layersOf p).map fun l =>
      .prim (.seg { plane := p, layer := l, x := g.x, y := r.y0, w := g.w, h := r.y1 - r.y0 + 1,
                    u := g.u, v := r.v0 }) (segBin p l)

/-- `PlaneRenderer()` (R225). -/
def State.planeActions (s : State) : List BuildAction :=
  [Plane.a, Plane.b].flatMap fun p => (s.planeRuns p).flatMap (s.flushRun p)

end Sys2Proof.Machine
end

