-- ==== Sys2Proof/Machine/Sprites.lean ====
section
/-! DEFINITION. The sprite renderer (45_sprite_renderer.md). -/

namespace Sys2Proof.Machine

/-- `ReadSprite(i)` (R236): four 16-bit reads from VRAM itself. -/
def State.readSprite (s : State) (i : Nat) : SpriteEntry :=
  let a := s.sprBase.toNat + 8 * i
  spriteEntry (s.vram.read16 a) (s.vram.read16 (a + 2)) (s.vram.read16 (a + 4)) (s.vram.read16 (a + 6))

/-- The bin of a sprite by its priority bit (R239, R242). -/
def spriteBin (pri : Bool) : Bin := if pri then 5 else 3

/-- Column `k` of a sprite read from slot `i` (R239, R240): signed coordinates, the column order
reversed by a horizontal flip, the tile number wrapping at 11 bits. -/
def spriteColumn (bias : Nat) (e : SpriteEntry) (i k : Nat) : SprCol :=
  let ht := e.hf.toNat + 1
  let sc := if e.tile.hf then e.wf.toNat - k else k
  { x := (e.x.toNat : Int) - (bias : Int) + 8 * (k : Int)
    y := (e.y.toNat : Int) - (bias : Int)
    ht := ht
    tile := BitVec.ofNat 11 (e.tile.pat.toNat + sc * ht)
    pal := e.tile.pal
    hf := e.tile.hf
    vf := e.tile.vf
    slot := i }

/-- `EmitSprite(s)` (R239): one primitive per 8-pixel column, left to right. -/
def spriteActions (bias : Nat) (e : SpriteEntry) (i : Nat) : List BuildAction :=
  (List.range (e.wf.toNat + 1)).map fun k => .prim (.sprcol (spriteColumn bias e i k)) (spriteBin e.tile.pri)

/-- The walk of R238 at slot `i`, with `left` visits still allowed, this one included: the visit
count reaches SPRITE_SLOTS when `left` is 1. -/
def State.spriteWalk (s : State) : (left i : Nat) → List BuildAction
  | 0, _ => []
  | left + 1, i =>
    let e := s.readSprite i
    let link := e.link.toNat
    spriteActions s.cfg.originBias e i ++
      (if link = 0 then []
       else if left = 0 then [.diag .spriteChain i]
       else if s.cfg.spriteSlots ≤ link then [.diag .spriteLink link]
       else s.spriteWalk left link)

/-- `SpriteRenderer()` (R238). -/
def State.spriteWalkActions (s : State) : List BuildAction := s.spriteWalk s.cfg.spriteSlots 0

end Sys2Proof.Machine
end

