-- ==== Sys2Proof/Machine/Tile.lean ====
section
/-! DEFINITION. The tile decoder and the tile upload (43_tile_decoder.md). -/

namespace Sys2Proof.Machine

/-- `Pix(pat, r, c)` (R201): 4 bytes a row, rows top to bottom, the high nibble the left pixel. -/
def pixelOf (vram : Memory) (pat : BitVec 11) (r c : Nat) : BitVec 4 :=
  let byte := vram.read (32 * pat.toNat + 4 * r + c / 2)
  if c % 2 = 0 then byte.extractLsb' 4 4 else byte.extractLsb' 0 4

/-- Sample `out[8*y + x]` of a decoded cell (R202). -/
def decodedSample (vram : Memory) (pat : BitVec 11) (hf vf : Bool) (pal : BitVec 2) (y x : Nat) : Byte :=
  let r := if vf then 7 - y else y
  let c := if hf then 7 - x else x
  sampleOf pal (pixelOf vram pat r c)

/-- `Decode(pat, hf, vf, pal)` (R200, R202): 64 samples, left to right, top to bottom. -/
def decodeTile (vram : Memory) (pat : BitVec 11) (hf vf : Bool) (pal : BitVec 2) : List Byte :=
  (List.range 64).map fun i => decodedSample vram pat hf vf pal (i / 8) (i % 8)

/-- Where sample [v][u] of a TEX_PLANE layer stands in the memory that holds the layer (R45). -/
def texAddr (v u : Nat) : Nat := texSide * v + u

/-- The 64 samples of a cell written to rows 8*ty.. and columns 8*tx.. of a layer (R208). -/
def writeCell (m : Memory) (tx ty : Nat) (samples : List Byte) : Memory :=
  (List.range 8).foldl (fun m j => m.write (texAddr (8 * ty + j) (8 * tx)) ((samples.drop (8 * j)).take 8)) m

/-- 64 samples of value 0x00 (R208). -/
def blankCell : List Byte := List.replicate 64 0

/-- `UploadTile(P, t)` (R207, R208). Plane A's cell goes to the layer its priority bit names and
the other layer's cell is blanked; plane B has one layer and its priority bit is ignored. -/
def State.uploadTile (p : Plane) (t : Nat) (s : State) : State :=
  let e := s.vram.read16 ((s.planeBase p).toNat + 2 * t)
  let f := tileRef e
  let samples := decodeTile s.vram f.pat f.hf f.vf f.pal
  let tx := t % s.pw.toNat
  let ty := t / s.pw.toNat
  State.emit (.tileUpload p t e samples) <|
    match p with
    | .a =>
      { s with
        texALo := writeCell s.texALo tx ty (if f.pri then blankCell else samples)
        texAHi := writeCell s.texAHi tx ty (if f.pri then samples else blankCell) }
    | .b => { s with texBLo := writeCell s.texBLo tx ty samples }

end Sys2Proof.Machine
end

