-- ==== Sys2Proof/Machine/Frame.lean ====
section
/-! DEFINITION. RENDER: the frame driver, the upload sweep, the sequencer, the present (47_frame_driver.md). -/

namespace Sys2Proof.Machine

/-! ## Building -/

/-- `BackgroundFill()` (R276). -/
def State.fillAction (s : State) : BuildAction :=
  .prim (.fill { x := 0, y := 0, w := s.cfg.screenWidth, h := s.cfg.screenHeight,
                 r := s.fillColour.1, g := s.fillColour.2.1, b := s.fillColour.2.2 }) 0

/-- Everything the Building step emits or raises, in engine order (R271, R307). -/
def State.buildActions (s : State) : List BuildAction :=
  s.planeActions ++ s.spriteWalkActions ++ [s.fillAction]

/-- The back slot under construction and the diagnostics raised so far. -/
structure Built where
  slot  : Slot
  diags : List OutEvent
deriving DecidableEq, Repr

/-- One action of the Building step: `Emit(p, b)` with its bound (R273), or a raise. -/
def Built.step (cap : Nat) (b : Built) : BuildAction → Built
  | .prim p bin =>
    if b.slot.count = cap then { b with diags := b.diags ++ [diagEvent .primOverflow bin.val] }
    else { b with slot := b.slot.push p bin }
  | .diag code info => { b with diags := b.diags ++ [diagEvent code info] }

/-- The back slot the Building step builds, from empty, and its diagnostics (R271, R273). -/
def State.build (s : State) : Built :=
  s.buildActions.foldl (Built.step s.cfg.primCapacity) { slot := Slot.empty, diags := [] }

/-- The code of the first diagnostic of a list of events. -/
def firstDiag : List OutEvent → Option DiagCode
  | .diag code _ :: _ => some code
  | _ => none

/-- `BuildingStep(); phase <- Flushed` (R270, R271). -/
def State.buildingStep (s : State) : State :=
  let b := s.build
  State.setSlot s.front.other b.slot
    { s with palStage := convertPalette s.cfg s.cram, out := s.out ++ b.diags, phase := .flushed }

/-- RENDER (R270), up to its first wait: the Building step. Under Unchecked a frame that would raise
a diagnostic is refused (R302). -/
def execRender (s : State) : Result :=
  requireInit .render s fun s =>
    if s.regionsFit then
      match s.policy, firstDiag s.build.diags with
      | .unchecked, some code => .refused (.uncheckedViolation code)
      | .unchecked, none => .next s.buildingStep
      | .validated, _ => .next s.buildingStep
    else .fault .regionOutsideVram

/-! ## Flushed -/

/-- Block `k` copied to TEX_RAW and reported (R280). -/
def State.uploadBlock (s : State) (k : Nat) : State :=
  let a := k * s.cfg.blockSize
  let bytes := s.vram.readRange a s.cfg.blockSize
  State.emit (.blockUpload k bytes) { s with texRaw := s.texRaw.write a bytes }

/-- `SweepBlocks()` (R280): the dirty blocks in ascending order; every flag is clear after. -/
def State.sweepBlocks (s : State) : State :=
  { s.dirtyBlk.foldl State.uploadBlock s with dirtyBlk := [] }

/-- One set flag of `SweepTiles(P)` (R281): an index beyond the plane is not uploaded. -/
def State.sweepTile (p : Plane) (s : State) (t : Nat) : State :=
  if t < s.pw.toNat * s.ph.toNat then s.uploadTile p t else s

/-- `SweepTiles(P)` (R281): ascending tile index; every flag is clear after. -/
def State.sweepTiles (p : Plane) (s : State) : State :=
  State.setDirtyTile p [] ((s.dirtyTile p).foldl (State.sweepTile p) s)

/-- `FlushedStep()` (R278). -/
def State.flush (s : State) : State :=
  State.sweepTiles .b (State.sweepTiles .a (State.sweepBlocks s.uploadPalette))

/-- `FlushedStep(); phase <- Presented` (R270). It runs only when GPU_BUSY = 0 (R279). -/
def flushedStep (s : State) : Result :=
  if s.regionsFit then .next { s.flush with phase := .presented } else .fault .regionOutsideVram

/-! ## Presented -/

/-- The events of the Presented step (R283, R290): VINT is the last when enabled (R288). -/
def State.presentEvents (s : State) : List OutEvent :=
  let back := s.front.other
  [.install back back.disp back.draw, .submitOt back (s.slot back).drawList, .flip back] ++
    (if s.vintEn then [.vint] else [])

/-- `PresentedStep(); phase <- Building` (R270, R283). -/
def State.present (s : State) : State :=
  let back := s.front.other
  { s with
    activeDisp := back.disp
    activeDraw := back.draw
    out := s.out ++ s.presentEvents
    gpuBusy := true
    front := back
    phase := .building }

end Sys2Proof.Machine
end

