-- ==== Sys2Proof/Machine/Setup.lean ====
section
/-! DEFINITION. INIT and the configuration commands (42_config.md). -/

namespace Sys2Proof.Machine

/-- INIT (R176): accepted once; it stores the two enables and changes nothing else. -/
def execInit (vint hint : Bool) (s : State) : Result :=
  if s.inited then reject .alreadyInit (Opcode.code .init).toNat s
  else .next { s with inited := true, vintEn := vint, hintEn := hint }

/-- The common procedure of the four location setters (R179): mask, then check the masked value. -/
def setLocation (o : Opcode) (align size : Nat) (offset : BitVec 24) (upd : BitVec 16 → State)
    (s : State) : Result :=
  requireInit o s fun s =>
    let m := (alignMask align offset).toNat
    if s.cfg.vramSize < m + size then reject .regionRange m s else .next (upd (BitVec.ofNat 16 m))

/-- SETPA (R180). -/
def execSetpa (offset : BitVec 24) (s : State) : Result :=
  setLocation .setpa s.cfg.planeAlign (nametableBytes s.pw s.ph) offset (fun m => { s with paBase := m }) s

/-- SETPB (R181). -/
def execSetpb (offset : BitVec 24) (s : State) : Result :=
  setLocation .setpb s.cfg.planeAlign (nametableBytes s.pw s.ph) offset (fun m => { s with pbBase := m }) s

/-- SETSPR (R182). -/
def execSetspr (offset : BitVec 24) (s : State) : Result :=
  setLocation .setspr s.cfg.spriteAlign (spriteTableBytes s.cfg) offset (fun m => { s with sprBase := m }) s

/-- SETHS (R183). -/
def execSeths (offset : BitVec 24) (s : State) : Result :=
  setLocation .seths s.cfg.hscrollAlign (scrollTableBytes s.cfg) offset (fun m => { s with hsBase := m }) s

/-- SETPSZ (R184): the size is checked first, then that both planes still fit. -/
def execSetpsz (width height : BitVec 8) (s : State) : Result :=
  requireInit .setpsz s fun s =>
    let n := nametableBytes width height
    if !legalPlaneSize width height then reject .planeSize (height ++ width).toNat s
    else if s.cfg.vramSize < s.paBase.toNat + n ∨ s.cfg.vramSize < s.pbBase.toNat + n then reject .regionRange n s
    else .next { s with pw := width, ph := height }

/-- SETBG (R185). -/
def execSetbg (index : BitVec 8) (s : State) : Result :=
  requireInit .setbg s fun s =>
    if s.cfg.cramWords ≤ index.toNat then reject .bgColour index.toNat s
    else .next { s with bgcol := BitVec.ofNat 6 index.toNat }

/-- SETVS (R186). -/
def execSetvs (a b : Half) (s : State) : Result :=
  requireInit .setvs s fun s => .next { s with vsa := a, vsb := b }

/-- SETHINT (R187). Nothing reads the stored line (R314). -/
def execSethint (line : Half) (s : State) : Result :=
  requireInit .sethint s fun s => .next { s with hintLine := line }

end Sys2Proof.Machine
end

