-- ==== Sys2Proof/Machine/Vram.lean ====
section
/-! DEFINITION. SEEKV, WRITEV, FILLV (40_vram_access.md). -/

namespace Sys2Proof.Machine

/-- SEEKV (R132): the cursor moves and the address is classified with the region map of now. -/
def execSeekv (offset : BitVec 24) (s : State) : Result :=
  requireInit .seekv s fun s =>
    if s.cfg.vramSize ≤ offset.toNat then reject .vramSeek offset.toNat s
    else .next { s with vcur := BitVec.ofNat 17 offset.toNat, vclass := s.classify offset.toNat }

/-- What an accepted WRITEV or FILLV does with its bytes (R140, R141): they go to the cursor's
address and on, the cursor moves past them, and the range is reported to the dirty tracker. -/
def State.writeVram (bytes : List Byte) (s : State) : State :=
  let start := s.vcur.toNat
  let stop := start + bytes.length
  State.markDirty start stop { s with vram := s.vram.write start bytes, vcur := BitVec.ofNat 17 stop }

/-- WRITEV (R140). -/
def execWritev (bytes : List Byte) (s : State) : Result :=
  requireInit .writev s fun s =>
    if s.cfg.vramSize < s.vcur.toNat + bytes.length then reject .vramWrite s.vcur.toNat s
    else .next (s.writeVram bytes)

/-- FILLV (R141). -/
def execFillv (byte : Byte) (len : BitVec 24) (s : State) : Result :=
  requireInit .fillv s fun s =>
    if s.cfg.vramSize < s.vcur.toNat + len.toNat then reject .vramFill s.vcur.toNat s
    else .next (s.writeVram (List.replicate len.toNat byte))

end Sys2Proof.Machine
end

