-- ==== Sys2Proof/Machine/Dispatch.lean ====
section
/-! DEFINITION. One arm per command. -/

namespace Sys2Proof.Machine

def exec (i : Instr) (s : State) : Host.Outcome State Fault Refusal :=
  match i with
  | .init vint hint => Sys2Proof.Machine.execInit vint hint s
  | .seekv offset => Sys2Proof.Machine.execSeekv offset s
  | .writev bytes => Sys2Proof.Machine.execWritev bytes s
  | .fillv byte len => Sys2Proof.Machine.execFillv byte len s
  | .seekc offset => Sys2Proof.Machine.execSeekc offset s
  | .writec words => Sys2Proof.Machine.execWritec words s
  | .fillc word len => Sys2Proof.Machine.execFillc word len s
  | .setpa offset => Sys2Proof.Machine.execSetpa offset s
  | .setpb offset => Sys2Proof.Machine.execSetpb offset s
  | .setspr offset => Sys2Proof.Machine.execSetspr offset s
  | .seths offset => Sys2Proof.Machine.execSeths offset s
  | .setpsz width height => Sys2Proof.Machine.execSetpsz width height s
  | .setbg index => Sys2Proof.Machine.execSetbg index s
  | .setvs a b => Sys2Proof.Machine.execSetvs a b s
  | .sethint line => Sys2Proof.Machine.execSethint line s
  | .render => Sys2Proof.Machine.execRender s

end Sys2Proof.Machine
end

