-- ==== Sys2Proof/Machine/Port.lean ====
section
/-! DEFINITION. The command port, the input events and the reset input: which input the next step takes and what it does. -/

namespace Sys2Proof.Machine

/-! ## The command port -/

/-- The port, which is open, takes a word (R90, R101, R103): a header or the next payload word. An
illegal header is consumed alone with E_ILLEGAL_CMD, under both policies and before INIT as well; a
command takes effect with its last word. -/
def acceptWord (w : Word) (s : State) : Result :=
  match s.rx with
  | none =>
    match opcodeOf w with
    | none => .next (s.raise .illegalCmd w.toNat)
    | some o =>
      match payloadWords w with
      | 0 => exec (assemble o w []) s
      | n + 1 => .next { s with rx := some { header := w, got := [], left := n + 1 } }
  | some p =>
    if p.left ≤ 1 then
      match opcodeOf p.header with
      | none => .next { s.raise .illegalCmd p.header.toNat with rx := none }
      | some o => exec (assemble o p.header (p.got ++ [w])) { s with rx := none }
    else .next { s with rx := some { p with got := p.got ++ [w], left := p.left - 1 } }

/-! ## Events -/

/-- GPU_DONE (R311): clears GPU_BUSY in any phase. -/
def State.gpuDone (s : State) : State := { s with gpuBusy := false }

/-- VBLANK (R284, R311): enables the Presented step when a RENDER waits for it, and is otherwise
ignored and not remembered. -/
def State.vblank (s : State) : State :=
  match s.phase with
  | .presented => s.present
  | .building => s
  | .flushed => s

/-- The reset input (R340): every register and flag at its reset value, the strap sampled, a RENDER
in progress abandoned, a partly received command forgotten, OUT empty. The unspecified contents are
fresh free values. The parameters and what is still presented at the inputs stay. -/
def State.resetInput (strap : Policy) (s : State) : State :=
  State.powerOn s.cfg strap (s.resets + 1) s.inputs

/-- An event the environment raises, or a word the open port takes. -/
def takeInput (i : Input) (s : State) : Result :=
  match i with
  | .word w => acceptWord w s
  | .gpuDone => .next s.gpuDone
  | .vblank => .next s.vblank
  | .gpuDoneAndVblank => .next s.gpuDone.vblank
  | .reset strap => .next (s.resetInput strap)

/-! ## Which input is next -/

/-- A word at the command port. -/
def Input.isWord : Input → Bool
  | .word _ => true
  | .gpuDone => false
  | .vblank => false
  | .gpuDoneAndVblank => false
  | .reset _ => false

/-- The reset input. -/
def Input.isReset : Input → Bool
  | .reset _ => true
  | .word _ => false
  | .gpuDone => false
  | .vblank => false
  | .gpuDoneAndVblank => false

/-- The oldest input that is no command word, and the inputs without it: while a RENDER is in
progress the port stalls and the words stay where they are (R316). -/
def oldestEvent : List Input → Option (Input × List Input)
  | [] => none
  | i :: rest =>
    if i.isWord then (oldestEvent rest).map fun p => (p.1, i :: p.2) else some (i, rest)

/-- The input an advance may take: the oldest one while the port is open (PHASE = Building, R34),
the oldest event while a RENDER is in progress. -/
def State.nextInput (s : State) : Option (Input × List Input) :=
  match s.phase with
  | .building =>
    match s.inputs with
    | [] => none
    | i :: rest => some (i, rest)
  | .flushed => oldestEvent s.inputs
  | .presented => oldestEvent s.inputs

/-- The Flushed step is enabled (R279). -/
def State.flushEnabled (s : State) : Bool := s.phase == .flushed && !s.gpuBusy

/-- One step of the machine: the enabled Flushed step, before any input but reset; else the next
input; else nothing, all state retained (R270, R316, R326). -/
def advance (s : State) : Result :=
  match s.nextInput with
  | some (i, rest) =>
    if s.flushEnabled && !i.isReset then flushedStep s
    else takeInput i { s with inputs := rest }
  | none => if s.flushEnabled then flushedStep s else .next s

/-! ## Placing a command at the port -/

/-- A machine whose open port is about to take the last word of an instruction with the table bits
`v`: the words before it have come, the last is the oldest input. -/
def State.presentWord (v : Nat) (s : State) : State :=
  let h := tableWord v 0
  match payloadWords h with
  | 0 => { s with phase := .building, rx := none, inputs := .word h :: s.inputs }
  | n + 1 =>
    { s with
      phase := .building
      rx := some { header := h, got := tableWords v n 1, left := 1 }
      inputs := .word (tableWord v (n + 1)) :: s.inputs }

end Sys2Proof.Machine
end

