-- ==== Sys2Proof/Machine/Step.lean ====
section
/-! DEFINITION. One step of the machine, and a machine about to run a given instruction. -/

namespace Sys2Proof.Machine

/-- One step (R270, R311, R316): see `advance`. -/
def step (s : State) : Host.Outcome State Fault Refusal := advance s

/-- `s` with the instruction whose bits are `w` where the next step takes it: at the open command
port, its last word the oldest input, the words before it received. -/
def State.withFetchWord (s : State) (nbits w : Nat) : State := s.presentWord (w % 2 ^ nbits)

end Sys2Proof.Machine
end

