-- ==== Sys2Proof/Machine/Picture.lean ====
section
/-! DEFINITION. What the output streams mean to their consumer (R223, R241, R261, R291): functions of the state that no step reads. -/

namespace Sys2Proof.Machine

/-- A framebuffer pixel. -/
structure Pixel where
  r : Channel
  g : Channel
  b : Channel
deriving DecidableEq, Repr

/-- TEX_PLANE[plane][layer] (R45). -/
def State.texLayer (s : State) : Plane → Layer → Memory
  | .a, .lo => s.texALo
  | .a, .hi => s.texAHi
  | .b, _ => s.texBLo

/-- The sample a segment gives its pixel in column `i`, row `j` (R223). -/
def segSample (s : State) (p : Seg) (i j : Nat) : Byte :=
  (s.texLayer p.plane p.layer).read (texAddr (p.v + j) (p.u + i))

/-- The sample a sprite column gives its pixel in column `i`, row `j` (R241): from TEX_RAW, not
VRAM. -/
def sprColSample (s : State) (p : SprCol) (i j : Nat) : Byte :=
  let si := if p.hf then 7 - i else i
  let sj := if p.vf then 8 * p.ht - 1 - j else j
  let t := (p.tile.toNat + sj / 8) % 2048
  let b := s.texRaw.read (32 * t + 4 * (sj % 8) + si / 2)
  sampleOf p.pal (if si % 2 = 0 then b.extractLsb' 4 4 else b.extractLsb' 0 4)

/-- The record a sample resolves to (R261). A sample above 63, of which R261 says none occurs, is a
free value. -/
def resolve (s : State) (sample : Byte) : PalRecord :=
  if h : sample.toNat < cramEntries then s.palOut[sample.toNat] else (Config.freeResolve sample).clip s.cfg.nativeBits

/-- A record drawn over a pixel: Transparent leaves it untouched (R223, R241). -/
def overPixel (under : Pixel) : PalRecord → Pixel
  | .transparent => under
  | .opaqueRgb r g b => { r := r, g := g, b := b }

/-- The pixel (x, y) after one primitive is drawn over it (R291). -/
def paintPixel (s : State) (x y : Nat) (under : Pixel) : Prim → Pixel
  | .fill p =>
    if p.x ≤ x ∧ x < p.x + p.w ∧ p.y ≤ y ∧ y < p.y + p.h then { r := p.r, g := p.g, b := p.b } else under
  | .seg p =>
    if p.x ≤ x ∧ x < p.x + p.w ∧ p.y ≤ y ∧ y < p.y + p.h then
      overPixel under (resolve s (segSample s p (x - p.x) (y - p.y)))
    else under
  | .sprcol p =>
    let i := (x : Int) - p.x
    let j := (y : Int) - p.y
    if 0 ≤ i ∧ i < 8 ∧ 0 ≤ j ∧ j < 8 * (p.ht : Int) then
      overPixel under (resolve s (sprColSample s p i.toNat j.toNat))
    else under

/-- The pixel (x, y) of the picture a draw list describes over a framebuffer that held `under` there
(R291): the list in order, inside the draw viewport, against the shadows of now. -/
def pictureAt (s : State) (list : List Prim) (x y : Nat) (under : Pixel) : Pixel :=
  if x < s.cfg.screenWidth ∧ y < s.cfg.screenHeight then list.foldl (paintPixel s x y) under else under

/-- The texture-space x origin of a segment in the downstream atlas (R45, R223, informative). -/
def atlasX (cfg : Config) (p : Seg) : Nat := cfg.atlasXBase + 256 * (p.u / 256) + p.u % 256

end Sys2Proof.Machine
end

