-- ==== Sys2Proof/Safety.lean ====
section
/-! DEFINITION. What counts as a well-formed state and as a safe step, and the terms the statements use. -/

namespace Sys2Proof.Machine

/-- The canonical form of a store, inside its address space. -/
def Memory.ok (m : Memory) (size : Nat) : Bool := m.wf && m.within size

/-- The primitives a slot stores are as many as its count says, and no more than the scratch region
holds (R41). -/
def Slot.ok (sl : Slot) (cap : Nat) : Bool :=
  decide (sl.count = (sl.bins.toList.map List.length).sum) && decide (sl.count ≤ cap)

/-- A partly received command (R90): a legal header, some payload still to come, none lost. -/
def Partial.ok (p : Partial) : Bool :=
  (opcodeOf p.header).isSome && decide (1 ≤ p.left) && decide (p.got.length + p.left = payloadWords p.header)

/-- The facts that hold at reset and that every step keeps. -/
structure State.Wf (s : State) : Prop where
  /-- The parameters meet the constraints of R4 and R257. -/
  cfgLegal : s.cfg.legal = true
  /-- Every store is in canonical form inside its address space (R68). -/
  vramOk : s.vram.ok s.cfg.vramSize = true
  texRawOk : s.texRaw.ok s.cfg.vramSize = true
  texALoOk : s.texALo.ok (texSide * texSide) = true
  texAHiOk : s.texAHi.ok (texSide * texSide) = true
  texBLoOk : s.texBLo.ok (texSide * texSide) = true
  /-- The cursors stay in their ranges (R22, R25). -/
  vcurRange : s.vcur.toNat ≤ s.cfg.vramSize
  ccurRange : s.ccur.toNat ≤ s.cfg.cramWords
  /-- The bases are aligned (R26, R27). -/
  paAligned : s.cfg.planeAlign ∣ s.paBase.toNat
  pbAligned : s.cfg.planeAlign ∣ s.pbBase.toNat
  sprAligned : s.cfg.spriteAlign ∣ s.sprBase.toNat
  hsAligned : s.cfg.hscrollAlign ∣ s.hsBase.toNat
  /-- The plane size is legal (R28) and every region ends inside VRAM (R70). -/
  regions : s.regionsFit = true
  /-- The flag arrays have their sizes (R38, R39). -/
  blkOk : FlagSet.wf s.dirtyBlk s.cfg.numBlocks = true
  tileAOk : FlagSet.wf s.dirtyTileA s.cfg.maxTiles = true
  tileBOk : FlagSet.wf s.dirtyTileB s.cfg.maxTiles = true
  /-- The channels of the display-ready records have NATIVE_BITS bits (R43, R46). -/
  palStageOk : s.palStage.toList.all (PalRecord.fits s.cfg.nativeBits) = true
  palOutOk : s.palOut.toList.all (PalRecord.fits s.cfg.nativeBits) = true
  /-- The slots count what they hold (R41). -/
  slot0Ok : s.slot0.ok s.cfg.primCapacity = true
  slot1Ok : s.slot1.ok s.cfg.primCapacity = true
  /-- The active viewports are those of the front slot (R37, R42, R283). -/
  dispFront : s.activeDisp = s.front.disp
  drawFront : s.activeDraw = s.front.draw
  /-- The port's partly received command (R90). -/
  rxOk : ∀ p, s.rx = some p → p.ok = true
  /-- A RENDER is in progress only after INIT (R304), with no command partly received (R316). -/
  renderInited : s.phase ≠ .building → s.inited = true ∧ s.rx = none
  /-- Between the Flushed step and the Presented step the GPU is idle (R73, R279). -/
  presentedIdle : s.phase = .presented → s.gpuBusy = false

/-! ## What a frame emits, in the terms the statements use -/

/-- The primitives of a list of actions of the Building step, each with its bin. -/
def primsOf (as : List BuildAction) : List (Prim × Bin) :=
  as.filterMap fun a => match a with
    | .prim p b => some (p, b)
    | .diag _ _ => none

/-- The diagnostics a list of actions raises itself. -/
def diagsOf (as : List BuildAction) : List OutEvent :=
  as.filterMap fun a => match a with
    | .prim _ _ => none
    | .diag code info => some (diagEvent code info)

/-- The TILE_UPLOAD event of tile `t` of plane `p`, whose nametable begins at `base` (R207, R208). -/
def tileUploadEvent (vram : Memory) (base : Nat) (p : Plane) (t : Nat) : OutEvent :=
  let e := vram.read16 (base + 2 * t)
  .tileUpload p t e (decodeTile vram (tileRef e).pat (tileRef e).hf (tileRef e).vf (tileRef e).pal)

/-- The tiles of a list that lie inside a plane of this size (R281). -/
def insideTiles (pw ph : BitVec 8) (ts : List Nat) : List Nat :=
  ts.filter fun t => decide (t < pw.toNat * ph.toNat)

/-- The BLOCK_UPLOAD event of block `k` (R280). -/
def State.blockEvent (s : State) (k : Nat) : OutEvent :=
  .blockUpload k (s.vram.readRange (k * s.cfg.blockSize) s.cfg.blockSize)

/-- The events of the Flushed step with the staged palette `pal` (R290). -/
def State.flushEvents (s : State) (pal : Vector PalRecord cramEntries) : List OutEvent :=
  [.palUpload pal] ++ s.dirtyBlk.map s.blockEvent ++
    (insideTiles s.pw s.ph s.dirtyTileA).map (tileUploadEvent s.vram s.paBase.toNat .a) ++
    (insideTiles s.pw s.ph s.dirtyTileB).map (tileUploadEvent s.vram s.pbBase.toNat .b)

/-- A step that neither faults nor is refused. -/
def stepSafe (s : State) : Prop := ∃ t, step s = .next t

end Sys2Proof.Machine
end

