-- ==== Sys2Proof/Certificates/Slice0/Obligations.lean ====
section
/-! DEFINITION. The statements about the machine. -/

open Sys2Proof Sys2Proof.Machine

/-! ## Words the statements use -/

namespace Sys2Proof.Machine

/-- The mask of R94. -/
def tableMask : Opcode → Word
  | .init    => 0xFFFFFFFC
  | .seekv   => 0xFF000000
  | .writev  => 0xFF000000
  | .fillv   => 0xFF000000
  | .seekc   => 0xFF000000
  | .writec  => 0xFF000000
  | .fillc   => 0xFF000000
  | .setpa   => 0xFF000000
  | .setpb   => 0xFF000000
  | .setspr  => 0xFF000000
  | .seths   => 0xFF000000
  | .setpsz  => 0xFFFF0000
  | .setbg   => 0xFFFFFF00
  | .setvs   => 0xFFFFFFFF
  | .sethint => 0xFFFF0000
  | .render  => 0xFFFFFFFF

/-- The match of R94. -/
def tableMatch : Opcode → Word
  | .init    => 0x01000000
  | .seekv   => 0x10000000
  | .writev  => 0x11000000
  | .fillv   => 0x12000000
  | .seekc   => 0x20000000
  | .writec  => 0x21000000
  | .fillc   => 0x22000000
  | .setpa   => 0x30000000
  | .setpb   => 0x31000000
  | .setspr  => 0x32000000
  | .seths   => 0x33000000
  | .setpsz  => 0x34000000
  | .setbg   => 0x35000000
  | .setvs   => 0x36000000
  | .sethint => 0x37000000
  | .render  => 0x40000000

/-- The port is open with `w` the next word, no command partly received. -/
def State.headerNext (s : State) (w : Word) (rest : List Input) : Prop :=
  s.phase = .building ∧ s.rx = none ∧ s.inputs = .word w :: rest

/-- The words of the command being received, `w` the word that comes now. -/
def wordsWith (w : Word) : Option Partial → List Word
  | none => [w]
  | some p => p.header :: (p.got ++ [w])

/-- The reset input is not among what is presented. -/
def State.noReset (s : State) : Prop := ∀ strap, Input.reset strap ∉ s.inputs

/-- The class under which writes are tracked in a plane's tile flags. -/
def classOf : Plane → VClass
  | .a => .planeA
  | .b => .planeB

/-- `rs` are runs in ascending order that cover scanlines `lo` to `hi - 1`, each scanline once; each
starts with the row and the scroll value of its first scanline, keeps that value, has no phase wrap
after its first scanline, and is maximal: the scanline after it, when there is one, has another value
or phase 0 (R218, R219). -/
def runsCover (hs : Nat → Half) (row : Nat → Nat) : (lo hi : Nat) → List Run → Prop
  | lo, hi, [] => lo = hi
  | lo, hi, r :: rs =>
    r.y0 = lo ∧ lo ≤ r.y1 ∧ r.y1 < hi ∧ r.hs = hs lo ∧ r.v0 = row lo ∧
      (∀ y, lo < y → y ≤ r.y1 → hs y = hs lo ∧ row y % 256 ≠ 0) ∧
      (r.y1 + 1 < hi → hs (r.y1 + 1) ≠ hs lo ∨ row (r.y1 + 1) % 256 = 0) ∧ runsCover hs row (r.y1 + 1) hi rs

/-- `c` is the list of slots a walk visits by following links from its first slot, every link but the
last entry's non-zero and inside the table (R238). -/
def State.linked (s : State) : List Nat → Prop
  | [] => False
  | [_] => True
  | i :: j :: c =>
    (s.readSprite i).link.toNat = j ∧ j ≠ 0 ∧ j < s.cfg.spriteSlots ∧ s.linked (j :: c)

/-- What the walk emits for the slots it visits, in order (R239). -/
def State.spritesOf (s : State) (c : List Nat) : List BuildAction :=
  c.flatMap fun i => spriteActions s.cfg.originBias (s.readSprite i) i

/-- How many VINT events a trace holds. -/
def vintCount (out : List OutEvent) : Nat := out.countP fun e => decide (e = .vint)

/-- `s` with another HINT_EN and HINT_LINE. -/
def State.withHint (en : Bool) (line : Half) (s : State) : State := { s with hintEn := en, hintLine := line }

/-- An outcome's next state under a map. -/
def mapNext (f : State → State) : Result → Result
  | .next t => .next (f t)
  | .fault r => .fault r
  | .refused r => .refused r

end Sys2Proof.Machine

/-! ## Encoding and the command port -/

/-- Decoding the encoding of a well-formed command, whatever follows it, gives that command and what
follows. -/
def Obligations.DecodeOfEncodeIsTheCommand : Prop :=
  ∀ (i : Instr) (rest : List Word), i.wellFormed = true → decode (encode i ++ rest) = .command i rest

/-- Words of 95_test_vectors.md part T2 decode to the commands they spell. -/
def Obligations.SpelledWordsDecode : Prop :=
  decode [0x01000001] = .command (.init true false) [] ∧
  decode [0x1000C010] = .command (.seekv 0xC010) [] ∧
  decode [0x11000003, 0x00563412] = .command (.writev [0x12, 0x34, 0x56]) [] ∧
  decode [0x12000001, 0xABCDEF55] = .command (.fillv 0x55 1) [] ∧
  decode [0x21000001, 0xFFFF0EEE] = .command (.writec [0x0EEE]) [] ∧
  decode [0x34002040] = .command (.setpsz 64 32) [] ∧
  decode [0x36000000, 0x01000008] = .command (.setvs 8 0x0100) [] ∧
  decode [0x40000000] = .command .render [] ∧
  decode [0x40000001] = .illegal 0x40000001 []

/-- R94: a header word spells a command exactly when it matches the command's row. -/
def Obligations.HeaderSpellsCommandIffItMatches : Prop :=
  ∀ (w : Word) (o : Opcode), opcodeOf w = some o ↔ w &&& tableMask o = tableMatch o

/-- R101: a word that matches no row is consumed alone, raises E_ILLEGAL_CMD, and changes nothing
else; whatever INITED and POLICY are. -/
def Obligations.IllegalWordIsConsumedAlone : Prop :=
  ∀ (s : State) (w : Word) (rest : List Input), s.headerNext w rest →
    (∀ o, w &&& tableMask o ≠ tableMatch o) →
    step s = .next { s with inputs := rest, out := s.out ++ [.diag .illegalCmd w] }

/-- R90: the header and the payload words before the last have no effect but to be received. -/
def Obligations.IncompleteCommandHasNoEffect : Prop :=
  (∀ (s : State) (w : Word) (rest : List Input), s.headerNext w rest → 0 < payloadWords w →
    step s = .next { s with inputs := rest, rx := some { header := w, got := [], left := payloadWords w } }) ∧
  (∀ (s : State) (p : Partial) (w : Word) (rest : List Input), s.phase = .building → s.rx = some p →
    s.inputs = .word w :: rest → 1 < p.left →
    step s = .next { s with inputs := rest, rx := some { header := p.header, got := p.got ++ [w], left := p.left - 1 } })

/-- A step that takes the last word of a command runs that command: the words received and the word
taken decode to it, and the machine goes on from an empty receiver and the remaining inputs. The form
of the port (R90) is the spec's own decision D3 (log 17). -/
def Obligations.StepRunsTheDecodedCommand : Prop :=
  ∀ (s : State) (w : Word) (rest : List Input) (i : Instr), s.phase = .building → s.inputs = .word w :: rest →
    (∀ p, s.rx = some p → p.ok = true) → decode (wordsWith w s.rx) = .command i [] →
    step s = exec i { s with rx := none, inputs := rest }

/-- The words of a command, sent one after another to the open port, run exactly that command. The
form of the port and of its payloads (R90, R96 to R100, R103) is the spec's own decision, D3 and D4
(log 17). -/
def Obligations.CommandWordsRunTheCommand : Prop :=
  ∀ (i : Instr) (s : State) (rest : List Input), i.wellFormed = true → s.phase = .building → s.rx = none →
    s.inputs = (encode i).map Input.word ++ rest →
    core.run (encode i).length s = exec i { s with inputs := rest }

/-- While a RENDER is in progress the port stalls: no word is taken, dropped or reported. -/
def Obligations.PortStallsDuringRender : Prop :=
  ∀ (s t : State), s.phase ≠ .building → s.noReset → step s = .next t →
    t.inputs.filter Input.isWord = s.inputs.filter Input.isWord ∧ t.rx = s.rx ∧ t.diagStream = s.diagStream

/-! ## Events, waits, reset -/

/-- R311: GPU_DONE clears GPU_BUSY in any phase; VBLANK has no effect unless a RENDER waits for it.
R316: of the two at the same instant GPU_DONE is first; while a RENDER waits for the GPU the VBLANK is
lost, while it waits for the VBLANK the Presented step runs, and outside a RENDER only GPU_BUSY is
cleared. That an enabled Flushed step goes before an event is the model's (log 6). -/
def Obligations.InputEventsHaveTheirEffect : Prop :=
  (∀ (s : State) (rest : List Input), s.nextInput = some (.gpuDone, rest) → s.flushEnabled = false →
    step s = .next { s with inputs := rest, gpuBusy := false }) ∧
  (∀ (s : State) (rest : List Input), s.nextInput = some (.vblank, rest) → s.flushEnabled = false →
    s.phase ≠ .presented → step s = .next { s with inputs := rest }) ∧
  (∀ (s : State) (rest : List Input), s.nextInput = some (.vblank, rest) → s.phase = .presented →
    step s = .next ({ s with inputs := rest } : State).present) ∧
  (∀ (s : State) (rest : List Input), s.nextInput = some (.gpuDoneAndVblank, rest) →
    (s.phase = .flushed → s.gpuBusy = true → step s = .next { s with inputs := rest, gpuBusy := false }) ∧
    (s.phase = .presented → step s = .next ({ s with inputs := rest } : State).present) ∧
    (s.phase = .building → step s = .next { s with inputs := rest, gpuBusy := false }))

/-- While RENDER waits all state is retained and nothing changes but GPU_BUSY, until the awaited event
or reset (R326): with nothing raised a step changes nothing (that such a step exists is the model's
choice, log 8), and an event that is not the awaited one changes at most GPU_BUSY. -/
def Obligations.WaitingRetainsAllState : Prop :=
  ∀ (s : State), (s.phase = .flushed ∧ s.gpuBusy = true) ∨ s.phase = .presented →
    ((∀ i ∈ s.inputs, i.isWord = true) → step s = .next s) ∧
    ∀ (i : Input) (rest : List Input), s.nextInput = some (i, rest) → i.isReset = false →
      (s.phase = .presented → i = .gpuDone) →
      ∃ busy, step s = .next { s with inputs := rest, gpuBusy := busy }

/-- R340: the reset input gives the machine after reset, with the strap sampled; the parameters and
what is still presented stay (log 6). -/
def Obligations.ResetInputResets : Prop :=
  ∀ (s : State) (strap : Policy) (rest : List Input), s.nextInput = some (.reset strap, rest) →
    step s = .next (State.powerOn s.cfg strap (s.resets + 1) rest)

/-- R51, R340: the state after reset. Unspecified contents are free values, and the port has forgotten
any partly received command, so that the next word is a header. State.reset is that state with the
default parameters of R4 and the default strap (R33; logs 11 and 12); that its count of resets is 0 and
that nothing is presented to it are the model's choices (logs 3 and 4). -/
def Obligations.StateAfterReset : Prop :=
  (State.reset = State.powerOn {
      vramSize := 65536, cramWords := 64, screenWidth := 320, screenHeight := 224, spriteSlots := 80
      blockSize := 2048, maxTiles := 4096, planeAlign := 0x2000, spriteAlign := 0x0400, hscrollAlign := 0x0400
      originBias := 128, nativeBits := 5, numBins := 6, primCapacity := 4096, atlasXBase := 512
      expand := #v[0, 4, 9, 13, 18, 22, 27, 31] } .validated 0 []) ∧
  ∀ (cfg : Config) (strap : Policy) (k : Nat) (inputs : List Input),
    let s := State.powerOn cfg strap k inputs
    (s.vcur = 0 ∧ s.ccur = 0 ∧ s.vclass = .none) ∧
    (s.paBase = 0 ∧ s.pbBase = 0 ∧ s.sprBase = 0 ∧ s.hsBase = 0 ∧ s.pw = 64 ∧ s.ph = 32) ∧
    (s.bgcol = 0 ∧ s.vsa = 0 ∧ s.vsb = 0 ∧ s.hintLine = 0) ∧
    (s.inited = false ∧ s.vintEn = false ∧ s.hintEn = false ∧ s.policy = strap) ∧
    (s.phase = .building ∧ s.front = .zero ∧ s.gpuBusy = false ∧ s.activeDisp = .fb0 ∧ s.activeDraw = .fb1) ∧
    (s.dirtyBlk = [] ∧ s.dirtyTileA = [] ∧ s.dirtyTileB = []) ∧
    (∀ i, (s.slot i).count = 0 ∧ ∀ b : Bin, (s.slot i).bins[b] = []) ∧
    (s.out = [] ∧ s.diagStream = []) ∧ s.rx = none ∧ (s.cfg = cfg ∧ s.inputs = inputs ∧ s.resets = k) ∧
    (∀ a, s.vram.read a = Config.freeByte .vram k a) ∧ (∀ a, s.texRaw.read a = Config.freeByte .texRaw k a) ∧
    (∀ a, s.texALo.read a = Config.freeByte .texALo k a) ∧ (∀ a, s.texAHi.read a = Config.freeByte .texAHi k a) ∧
    (∀ a, s.texBLo.read a = Config.freeByte .texBLo k a) ∧
    (∀ (i : Nat) (h : i < cramEntries), s.cram[i] = Config.freeCram k i ∧
      s.palStage[i] = (Config.freePalStage k i).clip cfg.nativeBits ∧
      s.palOut[i] = (Config.freePalOut k i).clip cfg.nativeBits)

/-! ## Diagnostics and policy -/

/-- R304: before INIT every other legal command is rejected with E_NOT_INIT and its op value. -/
def Obligations.CommandsBeforeInitAreRejected : Prop :=
  ∀ (i : Instr) (s : State), i.opcode ≠ .init → s.inited = false → s.policy = .validated →
    exec i s = .next { s with out := s.out ++ [.diag .notInit (i.opcode.code.setWidth 32)] }

/-- R302: under Unchecked a command that would raise a diagnostic under Validated is refused, and one
that raises nothing behaves as under Validated. E_ILLEGAL_CMD is raised under both. -/
def Obligations.UncheckedRefusesExactlyTheViolations : Prop :=
  (∀ (i : Instr) (s t : State), s.policy = .unchecked → exec i { s with policy := .validated } = .next t →
    (t.diagStream ≠ s.diagStream → ∃ code, exec i s = .refused (.uncheckedViolation code)) ∧
    (t.diagStream = s.diagStream → exec i s = .next { t with policy := .unchecked })) ∧
  (∀ (s : State) (w : Word) (rest : List Input), s.policy = .unchecked → s.headerNext w rest → opcodeOf w = none →
    step s = .next { s with inputs := rest, out := s.out ++ [.diag .illegalCmd w] })

/-- A command other than RENDER that raises a diagnostic raises exactly one and changes nothing else
(R300, R306). -/
def Obligations.RejectedCommandsChangeOnlyTheTrace : Prop :=
  ∀ (i : Instr) (s t : State), i.opcode ≠ .render → exec i s = .next t → t.out ≠ s.out →
    ∃ code info, t = { s with out := s.out ++ [.diag code info] }

/-! ## INIT and the configuration commands -/

/-- R176. -/
def Obligations.InitIsAcceptedOnce : Prop :=
  ∀ (vint hint : Bool) (s : State),
    (s.inited = false → exec (.init vint hint) s = .next { s with inited := true, vintEn := vint, hintEn := hint }) ∧
    (s.inited = true → s.policy = .validated →
      exec (.init vint hint) s = .next { s with out := s.out ++ [.diag .alreadyInit 0x01] })

/-- The mask of the location setters clears the low bits of the whole operand (R104, R179). -/
def Obligations.AlignMaskRoundsDown : Prop :=
  ∀ (align : Nat) (offset : BitVec 24), powerOfTwo align = true →
    (alignMask align offset).toNat = offset.toNat - offset.toNat % align

/-- R179 to R183: each location setter masks its operand, stores it when the region fits, and rejects
it with E_REGION_RANGE otherwise. -/
def Obligations.LocationSettersMaskThenCheck : Prop :=
  ∀ (offset : BitVec 24) (s : State), s.inited = true →
    let n := 2 * s.pw.toNat * s.ph.toNat
    let mp := (alignMask s.cfg.planeAlign offset).toNat
    let ms := (alignMask s.cfg.spriteAlign offset).toNat
    let mh := (alignMask s.cfg.hscrollAlign offset).toNat
    (mp + n ≤ s.cfg.vramSize → exec (.setpa offset) s = .next { s with paBase := BitVec.ofNat 16 mp } ∧
      exec (.setpb offset) s = .next { s with pbBase := BitVec.ofNat 16 mp }) ∧
    (ms + 8 * s.cfg.spriteSlots ≤ s.cfg.vramSize → exec (.setspr offset) s = .next { s with sprBase := BitVec.ofNat 16 ms }) ∧
    (mh + 4 * s.cfg.screenHeight ≤ s.cfg.vramSize → exec (.seths offset) s = .next { s with hsBase := BitVec.ofNat 16 mh }) ∧
    (s.policy = .validated →
      (s.cfg.vramSize < mp + n → exec (.setpa offset) s = .next (s.raise .regionRange mp) ∧
        exec (.setpb offset) s = .next (s.raise .regionRange mp)) ∧
      (s.cfg.vramSize < ms + 8 * s.cfg.spriteSlots → exec (.setspr offset) s = .next (s.raise .regionRange ms)) ∧
      (s.cfg.vramSize < mh + 4 * s.cfg.screenHeight → exec (.seths offset) s = .next (s.raise .regionRange mh)))

/-- R184: the size is checked first, then the range of both planes; the pair is stored. -/
def Obligations.SetpszChecksSizeThenRange : Prop :=
  ∀ (width height : BitVec 8) (s : State), s.inited = true →
    let legal := (width = 32 ∨ width = 64 ∨ width = 128) ∧ (height = 32 ∨ height = 64 ∨ height = 128) ∧
      width.toNat * height.toNat ≤ 4096
    let n := 2 * width.toNat * height.toNat
    let fits := s.paBase.toNat + n ≤ s.cfg.vramSize ∧ s.pbBase.toNat + n ≤ s.cfg.vramSize
    (legal → fits → exec (.setpsz width height) s = .next { s with pw := width, ph := height }) ∧
    (s.policy = .validated → ¬legal →
      exec (.setpsz width height) s = .next (s.raise .planeSize (256 * height.toNat + width.toNat))) ∧
    (s.policy = .validated → legal → ¬fits → exec (.setpsz width height) s = .next (s.raise .regionRange n))

/-- R185, R186, R187. CRAM_WORDS is 64 (R4). -/
def Obligations.SetbgSetvsSethintStoreTheirOperands : Prop :=
  (∀ (s : State), s.inited = false → s.policy = .validated →
    (∀ index : BitVec 8, exec (.setbg index) s = .next (s.raise .notInit 0x35)) ∧
    (∀ a b : Half, exec (.setvs a b) s = .next (s.raise .notInit 0x36)) ∧
    (∀ line : Half, exec (.sethint line) s = .next (s.raise .notInit 0x37))) ∧
  (∀ (s : State), s.inited = true →
    (∀ index : BitVec 8, index.toNat < s.cfg.cramWords → exec (.setbg index) s = .next { s with bgcol := index.setWidth 6 }) ∧
    (∀ index : BitVec 8, s.cfg.cramWords ≤ index.toNat → s.policy = .validated →
      exec (.setbg index) s = .next (s.raise .bgColour index.toNat)) ∧
    (∀ a b : Half, exec (.setvs a b) s = .next { s with vsa := a, vsb := b }) ∧
    (∀ line : Half, exec (.sethint line) s = .next { s with hintLine := line }))

/-- Which command may write which state (R52), at the command itself: RENDER's later steps are stated
apart. -/
def Obligations.OnlyTheNamedCommandsWrite : Prop :=
  ∀ (i : Instr) (s t : State), exec i s = .next t →
    (i.opcode ≠ .writev → i.opcode ≠ .fillv → t.vram = s.vram ∧ t.dirtyBlk = s.dirtyBlk ∧
      t.dirtyTileA = s.dirtyTileA ∧ t.dirtyTileB = s.dirtyTileB) ∧
    (i.opcode ≠ .seekv → i.opcode ≠ .writev → i.opcode ≠ .fillv → t.vcur = s.vcur) ∧
    (i.opcode ≠ .seekv → t.vclass = s.vclass) ∧
    (i.opcode ≠ .writec → i.opcode ≠ .fillc → t.cram = s.cram) ∧
    (i.opcode ≠ .seekc → i.opcode ≠ .writec → i.opcode ≠ .fillc → t.ccur = s.ccur) ∧
    (i.opcode ≠ .setpa → t.paBase = s.paBase) ∧ (i.opcode ≠ .setpb → t.pbBase = s.pbBase) ∧
    (i.opcode ≠ .setspr → t.sprBase = s.sprBase) ∧ (i.opcode ≠ .seths → t.hsBase = s.hsBase) ∧
    (i.opcode ≠ .setpsz → t.pw = s.pw ∧ t.ph = s.ph) ∧ (i.opcode ≠ .setbg → t.bgcol = s.bgcol) ∧
    (i.opcode ≠ .setvs → t.vsa = s.vsa ∧ t.vsb = s.vsb) ∧ (i.opcode ≠ .sethint → t.hintLine = s.hintLine) ∧
    (i.opcode ≠ .init → t.inited = s.inited ∧ t.vintEn = s.vintEn ∧ t.hintEn = s.hintEn) ∧
    (i.opcode ≠ .render → t.phase = s.phase ∧ t.slot0 = s.slot0 ∧ t.slot1 = s.slot1 ∧ t.palStage = s.palStage) ∧
    (t.front = s.front ∧ t.activeDisp = s.activeDisp ∧ t.activeDraw = s.activeDraw ∧ t.palOut = s.palOut ∧
      t.texRaw = s.texRaw ∧ t.texALo = s.texALo ∧ t.texAHi = s.texAHi ∧ t.texBLo = s.texBLo ∧
      t.gpuBusy = s.gpuBusy ∧ t.policy = s.policy ∧ t.cfg = s.cfg)

/-! ## VRAM -/

/-- R131: the first region that holds the address, in the fixed order. -/
def Obligations.ClassifyTakesTheFirstRegion : Prop :=
  ∀ (s : State) (o : Nat),
    let n := 2 * s.pw.toNat * s.ph.toNat
    let inA := s.paBase.toNat ≤ o ∧ o < s.paBase.toNat + n
    let inB := s.pbBase.toNat ≤ o ∧ o < s.pbBase.toNat + n
    let inTables := (s.sprBase.toNat ≤ o ∧ o < s.sprBase.toNat + 8 * s.cfg.spriteSlots) ∨
      (s.hsBase.toNat ≤ o ∧ o < s.hsBase.toNat + 4 * s.cfg.screenHeight)
    (inA → s.classify o = .planeA) ∧ (¬inA → inB → s.classify o = .planeB) ∧
    (¬inA → ¬inB → inTables → s.classify o = .other) ∧ (¬inA → ¬inB → ¬inTables → s.classify o = .none)

/-- R132. -/
def Obligations.SeekvMovesAndClassifies : Prop :=
  ∀ (offset : BitVec 24) (s : State), s.inited = true →
    (offset.toNat < s.cfg.vramSize →
      exec (.seekv offset) s = .next { s with vcur := offset.setWidth 17, vclass := s.classify offset.toNat }) ∧
    (s.cfg.vramSize ≤ offset.toNat → s.policy = .validated →
      exec (.seekv offset) s = .next (s.raise .vramSeek offset.toNat))

/-- R140: an accepted WRITEV stores its bytes at the cursor, every other byte reads as before, the
cursor moves past them, the range is marked, and nothing else changes; a range past the end is
rejected whole; before INIT it is rejected. -/
def Obligations.WritevStoresItsBytes : Prop :=
  ∀ (bytes : List Byte) (s : State),
    let start := s.vcur.toNat
    let stop := start + bytes.length
    (s.inited = false → s.policy = .validated → exec (.writev bytes) s = .next (s.raise .notInit 0x11)) ∧
    (s.inited = true → stop ≤ s.cfg.vramSize → ∃ t, exec (.writev bytes) s = .next t ∧
      (∀ (i : Nat) (h : i < bytes.length), t.vram.read (start + i) = bytes[i]) ∧
      (∀ a, a < start ∨ stop ≤ a → t.vram.read a = s.vram.read a) ∧
      t = { s with
        vram := t.vram
        vcur := BitVec.ofNat 17 stop
        dirtyBlk := (s.markDirty start stop).dirtyBlk
        dirtyTileA := (s.markDirty start stop).dirtyTileA
        dirtyTileB := (s.markDirty start stop).dirtyTileB }) ∧
    (s.inited = true → s.cfg.vramSize < stop → s.policy = .validated → exec (.writev bytes) s = .next (s.raise .vramWrite start))

/-- R141: FILLV is WRITEV of copies, apart from the diagnostic code. -/
def Obligations.FillvIsWritevOfCopies : Prop :=
  ∀ (byte : Byte) (len : BitVec 24) (s : State),
    (s.inited = false → s.policy = .validated → exec (.fillv byte len) s = .next (s.raise .notInit 0x12)) ∧
    (s.inited = true → s.vcur.toNat + len.toNat ≤ s.cfg.vramSize → ∃ t, exec (.fillv byte len) s = .next t ∧
      exec (.writev (List.replicate len.toNat byte)) s = .next t) ∧
    (s.inited = true → s.cfg.vramSize < s.vcur.toNat + len.toNat → s.policy = .validated →
      exec (.fillv byte len) s = .next (s.raise .vramFill s.vcur.toNat))

/-- R145: under class None the blocks marked are exactly those that hold a written byte. -/
def Obligations.NoneClassMarksExactlyTheWrittenBlocks : Prop :=
  ∀ (s : State) (a b : Nat), a < b → s.vclass = .none →
    (∀ k, k ∈ (s.markDirty a b).dirtyBlk ↔ k ∈ s.dirtyBlk ∨ ∃ x, a ≤ x ∧ x < b ∧ x / s.cfg.blockSize = k) ∧
    (s.markDirty a b).dirtyTileA = s.dirtyTileA ∧ (s.markDirty a b).dirtyTileB = s.dirtyTileB

/-- R146: under class PlaneP the tiles marked are exactly those of the written bytes that lie in plane
P's nametable as configured now, and no other flag changes. -/
def Obligations.PlaneClassMarksExactlyTheWrittenTiles : Prop :=
  ∀ (s : State) (p : Plane) (a b : Nat), a < b → s.vclass = classOf p →
    (∀ t, t ∈ (s.markDirty a b).dirtyTile p ↔ t ∈ s.dirtyTile p ∨
      ∃ x, a ≤ x ∧ x < b ∧ (s.planeBase p).toNat ≤ x ∧
        x < (s.planeBase p).toNat + 2 * s.pw.toNat * s.ph.toNat ∧ (x - (s.planeBase p).toNat) / 2 = t) ∧
    (∀ q, q ≠ p → (s.markDirty a b).dirtyTile q = s.dirtyTile q) ∧ (s.markDirty a b).dirtyBlk = s.dirtyBlk

/-- R143, R147: a write under class Other, and an empty write under any class, marks nothing. -/
def Obligations.OtherAndEmptyWritesMarkNothing : Prop :=
  ∀ (s : State) (bytes : List Byte), s.inited = true → s.vcur.toNat + bytes.length ≤ s.cfg.vramSize →
    s.vclass = .other ∨ bytes = [] →
    ∃ t, exec (.writev bytes) s = .next t ∧ t.dirtyBlk = s.dirtyBlk ∧ t.dirtyTileA = s.dirtyTileA ∧
      t.dirtyTileB = s.dirtyTileB ∧ (bytes = [] → t.vcur = s.vcur ∧ ∀ a, t.vram.read a = s.vram.read a)

/-- R81, R325: the bytes written at the cursor read back through the debug accessor, which reads VRAM
itself and gives no data past its end (the spec's decision D38). That it answers "unavailable" while a
RENDER is in progress is the model's reading: U14 says stuck until the RENDER completes (log 20). -/
def Obligations.DebugReadReturnsTheWrittenBytes : Prop :=
  (∀ (s : State) (bytes : List Byte), s.inited = true → s.phase = .building →
    s.vcur.toNat + bytes.length ≤ s.cfg.vramSize →
    ∃ t, exec (.writev bytes) s = .next t ∧ t.debugRead s.vcur.toNat bytes.length = .data bytes) ∧
  (∀ (s : State) (o n : Nat),
    (s.phase = .building → o + n ≤ s.cfg.vramSize →
      s.debugRead o n = .data ((List.range n).map fun i => s.vram.read (o + i))) ∧
    (s.phase = .building → s.cfg.vramSize < o + n → s.debugRead o n = .noData) ∧
    (s.phase ≠ .building → s.debugRead o n = .unavailable))

/-! ## CRAM -/

/-- R161. CRAM_WORDS is 64 (R4). -/
def Obligations.SeekcMovesTheCursor : Prop :=
  ∀ (offset : BitVec 24) (s : State), s.inited = true →
    (offset.toNat < s.cfg.cramWords → exec (.seekc offset) s = .next { s with ccur := offset.setWidth 7 }) ∧
    (s.cfg.cramWords ≤ offset.toNat → s.policy = .validated → exec (.seekc offset) s = .next (s.raise .cramSeek offset.toNat))

/-- R162, CRAM_WORDS being 64 (R4): an accepted WRITEC stores its words at the cursor, every other
entry stays, the cursor moves past them, and nothing else changes; a range past entry 63 is rejected
whole; before INIT it is rejected. -/
def Obligations.WritecStoresItsWords : Prop :=
  ∀ (words : List Half) (s : State),
    let start := s.ccur.toNat
    let stop := start + words.length
    (s.inited = false → s.policy = .validated → exec (.writec words) s = .next (s.raise .notInit 0x21)) ∧
    (s.inited = true → stop ≤ s.cfg.cramWords → ∃ t, exec (.writec words) s = .next t ∧
      (∀ (i : Nat) (hi : i < words.length) (hc : start + i < cramEntries), t.cram[start + i] = words[i]) ∧
      (∀ (j : Nat) (hj : j < cramEntries), j < start ∨ stop ≤ j → t.cram[j] = s.cram[j]) ∧
      t = { s with cram := t.cram, ccur := BitVec.ofNat 7 stop }) ∧
    (s.inited = true → s.cfg.cramWords < stop → s.policy = .validated → exec (.writec words) s = .next (s.raise .cramWrite start))

/-- R163, CRAM_WORDS being 64 (R4): FILLC is WRITEC of copies, apart from the diagnostic code. -/
def Obligations.FillcIsWritecOfCopies : Prop :=
  ∀ (word : Half) (len : BitVec 24) (s : State),
    (s.inited = false → s.policy = .validated → exec (.fillc word len) s = .next (s.raise .notInit 0x22)) ∧
    (s.inited = true → s.ccur.toNat + len.toNat ≤ s.cfg.cramWords → ∃ t, exec (.fillc word len) s = .next t ∧
      exec (.writec (List.replicate len.toNat word)) s = .next t) ∧
    (s.inited = true → s.cfg.cramWords < s.ccur.toNat + len.toNat → s.policy = .validated →
      exec (.fillc word len) s = .next (s.raise .cramFill s.ccur.toNat))

/-- R113: the two formulas; packing then unpacking gives the triple back; unpacking then packing
keeps the channel bits. -/
def Obligations.ColourPackingRoundTrip : Prop :=
  (∀ r g b : BitVec 3, packColour r g b =
    (r.setWidth 16 <<< 1) ||| (g.setWidth 16 <<< 5) ||| (b.setWidth 16 <<< 9)) ∧
  (∀ word : Half, unpackColour word = (word.extractLsb' 1 3, word.extractLsb' 5 3, word.extractLsb' 9 3)) ∧
  (∀ r g b : BitVec 3, unpackColour (packColour r g b) = (r, g, b)) ∧
  (∀ word : Half, packColour (redOf word) (greenOf word) (blueOf word) = word &&& 0x0EEE)

/-! ## The tile decoder -/

/-- R204: the flipped decodes are exact reflections of the unflipped one. -/
def Obligations.FlippedDecodesAreReflections : Prop :=
  ∀ (m : Memory) (pat : BitVec 11) (pal : BitVec 2) (x y : Nat), x < 8 → y < 8 →
    (decodeTile m pat true false pal)[8 * y + x]? = (decodeTile m pat false false pal)[8 * y + (7 - x)]? ∧
    (decodeTile m pat false true pal)[8 * y + x]? = (decodeTile m pat false false pal)[8 * (7 - y) + x]? ∧
    (decodeTile m pat true true pal)[8 * y + x]? = (decodeTile m pat false false pal)[8 * (7 - y) + (7 - x)]?

/-- R205: the palette changes bits 5-4 of every sample only. -/
def Obligations.PaletteChangesOnlyItsBits : Prop :=
  ∀ (m : Memory) (pat : BitVec 11) (hf vf : Bool) (pal : BitVec 2),
    decodeTile m pat hf vf pal = (decodeTile m pat hf vf 0).map fun b => (pal.setWidth 8 <<< 4) ||| b

/-- R203, R114: the decode over source bytes, in each of the four traversals; a sample is the palette in
bits 5-4 and the nibble in bits 3-0. -/
def Obligations.DecodeWalksTheSourceBytes : Prop :=
  ∀ (m : Memory) (pat : BitVec 11) (hf vf : Bool) (pal : BitVec 2) (y j : Nat), y < 8 → j < 4 →
    let b := m.read (32 * pat.toNat + 4 * (if vf then 7 - y else y) + (if hf then 3 - j else j))
    let hi : Byte := (pal.setWidth 8 <<< 4) ||| (b.extractLsb' 4 4).setWidth 8
    let lo : Byte := (pal.setWidth 8 <<< 4) ||| (b.extractLsb' 0 4).setWidth 8
    (decodeTile m pat hf vf pal)[8 * y + 2 * j]? = some (if hf then lo else hi) ∧
    (decodeTile m pat hf vf pal)[8 * y + 2 * j + 1]? = some (if hf then hi else lo)

/-- R207, R208: a tile upload reads the big-endian entry of its tile (R60, R105), writes its own cell
of its plane's layers and reports it; every other sample and everything else stays. -/
def Obligations.UploadTileWritesItsCell : Prop :=
  ∀ (s : State) (p : Plane) (t : Nat), s.Wf → t < s.pw.toNat * s.ph.toNat →
    let a := (if p = .a then s.paBase else s.pbBase).toNat + 2 * t
    let e := s.vram.read a ++ s.vram.read (a + 1)
    let d := decodeTile s.vram (e.extractLsb' 0 11) (e.getLsbD 11) (e.getLsbD 12) (e.extractLsb' 13 2)
    let tx := t % s.pw.toNat
    let ty := t / s.pw.toNat
    let u := s.uploadTile p t
    (∀ v c, v < texSide → c < texSide →
      let inCell := 8 * ty ≤ v ∧ v < 8 * ty + 8 ∧ 8 * tx ≤ c ∧ c < 8 * tx + 8
      let sample := d.getD (8 * (v - 8 * ty) + (c - 8 * tx)) 0
      (u.texALo.read (texAddr v c) =
        if p = .a ∧ inCell then (if e.getLsbD 15 then 0 else sample) else s.texALo.read (texAddr v c)) ∧
      (u.texAHi.read (texAddr v c) =
        if p = .a ∧ inCell then (if e.getLsbD 15 then sample else 0) else s.texAHi.read (texAddr v c)) ∧
      (u.texBLo.read (texAddr v c) =
        if p = .b ∧ inCell then sample else s.texBLo.read (texAddr v c))) ∧
    u = { s with
      texALo := u.texALo
      texAHi := u.texAHi
      texBLo := u.texBLo
      out := s.out ++ [.tileUpload p t e d] }

/-! ## The plane renderer -/

/-- R216 to R219: the scroll value of a scanline is the big-endian word of the scroll table, plane A's
at +0 and plane B's at +2 (R60, R111); its source row is the scanline plus the plane's vertical scroll;
the runs of a plane cover every scanline exactly once, in ascending order, and are maximal. -/
def Obligations.RunsCoverEveryScanline : Prop :=
  ∀ (s : State) (p : Plane), 1 ≤ s.cfg.screenHeight →
    let at_ := fun y : Nat => s.hsBase.toNat + 4 * y + if p = .a then 0 else 2
    let hs := fun y : Nat => s.vram.read (at_ y) ++ s.vram.read (at_ y + 1)
    let row := fun y : Nat => (y + (if p = .a then s.vsa else s.vsb).toNat) % (8 * s.ph.toNat)
    (∀ y, s.scrollAt p y = hs y ∧ s.sourceRow p y = row y) ∧
    runsCover hs row 0 s.cfg.screenHeight (s.planeRuns p)

/-- R220: the number of runs is the number of maximal runs of equal scroll value plus the scanlines at
which the phase is 0 with an unchanged value. -/
def Obligations.RunCount : Prop :=
  ∀ (s : State) (p : Plane), 1 ≤ s.cfg.screenHeight →
    let lines := List.range' 1 (s.cfg.screenHeight - 1)
    let k := 1 + lines.countP fun y => decide (s.scrollAt p y ≠ s.scrollAt p (y - 1))
    (s.planeRuns p).length =
      k + lines.countP fun y => decide (s.sourceRow p y % 256 = 0 ∧ s.scrollAt p y = s.scrollAt p (y - 1))

/-- R221: a flush covers every screen column with exactly one sub-segment, which shows the source
column (x - hs) mod Wp there. -/
def Obligations.FlushShowsTheScrolledColumn : Prop :=
  ∀ (width wp : Nat) (hs : Half) (x : Nat), 256 ∣ wp → 0 < wp → x < width →
    ∃ g ∈ subSegments width wp width 0 (startColumn hs wp),
      (g.x ≤ x ∧ x < g.x + g.w) ∧ ((g.u + (x - g.x) : Nat) : Int) = ((x : Int) - (hs.toNat : Int)) % (wp : Int) ∧
      ∀ g' ∈ subSegments width wp width 0 (startColumn hs wp), g'.x ≤ x ∧ x < g'.x + g'.w → g' = g

/-- R221, R222, R225: plane A, then plane B, emit for each run and each sub-segment one SEG a layer, LO
in bin 2 and HI in bin 4 for plane A, bin 1 for plane B, with the run's first scanline, height and
source row. The guarantees of R223: a segment lies inside one 256 x 256 page, on the screen and in the
plane. -/
def Obligations.SegmentsStayInOnePage : Prop :=
  (∀ s : State,
    let subs := fun r : Run =>
      subSegments s.cfg.screenWidth (8 * s.pw.toNat) s.cfg.screenWidth 0 (startColumn r.hs (8 * s.pw.toNat))
    let seg := fun (p : Plane) (l : Layer) (r : Run) (g : SubSeg) => Prim.seg {
      plane := p, layer := l, x := g.x, y := r.y0, w := g.w, h := r.y1 - r.y0 + 1, u := g.u, v := r.v0 }
    s.planeActions =
      ((s.planeRuns .a).flatMap fun r => (subs r).flatMap fun g =>
        [.prim (seg .a .lo r g) 2, .prim (seg .a .hi r g) 4]) ++
      ((s.planeRuns .b).flatMap fun r => (subs r).flatMap fun g => [.prim (seg .b .lo r g) 1])) ∧
  ∀ (s : State) (g : Seg) (b : Bin), s.Wf → BuildAction.prim (.seg g) b ∈ s.planeActions →
    (1 ≤ g.w ∧ g.u % 256 + g.w ≤ 256 ∧ g.x + g.w ≤ s.cfg.screenWidth ∧ g.u < 8 * s.pw.toNat) ∧
    (1 ≤ g.h ∧ g.v % 256 + g.h ≤ 256 ∧ g.y + g.h ≤ s.cfg.screenHeight ∧ g.v < 8 * s.ph.toNat) ∧
    ((g.plane = .b ∧ g.layer = .lo ∧ b = 1) ∨ (g.plane = .a ∧ g.layer = .lo ∧ b = 2) ∨
      (g.plane = .a ∧ g.layer = .hi ∧ b = 4))

/-! ## The sprite renderer -/

/-- R238, R244, R245: the walk visits a chain in link order, each entry once, and ends normally on
link 0; after SPRITE_SLOTS visits it stops with E_SPRITE_CHAIN; a link outside the table stops it with
E_SPRITE_LINK and the entry it names is not read. -/
def Obligations.SpriteWalkFollowsTheChain : Prop :=
  ∀ (s : State) (c : List Nat) (i : Nat), s.linked c → c.head? = some 0 → c.getLast? = some i →
    let link := (s.readSprite i).link.toNat
    (c.length ≤ s.cfg.spriteSlots → link = 0 → s.spriteWalkActions = s.spritesOf c) ∧
    (c.length = s.cfg.spriteSlots → link ≠ 0 →
      s.spriteWalkActions = s.spritesOf c ++ [.diag .spriteChain i]) ∧
    (c.length < s.cfg.spriteSlots → link ≠ 0 → s.cfg.spriteSlots ≤ link →
      s.spriteWalkActions = s.spritesOf c ++ [.diag .spriteLink link])

/-- R236, with R107 to R110: the fields of an entry are those bits of its four big-endian words (R60).
R239, R240: the columns of a sprite, left to right, in the bin of its priority bit. -/
def Obligations.SpriteColumnsLeftToRight : Prop :=
  ∀ (s : State) (i k : Nat), k ≤ (s.readSprite i).wf.toNat →
    let e := s.readSprite i
    let word := fun n : Nat =>
      s.vram.read (s.sprBase.toNat + 8 * i + 2 * n) ++ s.vram.read (s.sprBase.toNat + 8 * i + 2 * n + 1)
    let sc := if e.tile.hf then e.wf.toNat - k else k
    (e.y = (word 0).extractLsb' 0 10 ∧ e.wf = (word 1).extractLsb' 10 2 ∧ e.hf = (word 1).extractLsb' 8 2 ∧
      e.link = (word 1).extractLsb' 0 7 ∧ e.tile.pat = (word 2).extractLsb' 0 11 ∧
      e.tile.hf = (word 2).getLsbD 11 ∧ e.tile.vf = (word 2).getLsbD 12 ∧
      e.tile.pal = (word 2).extractLsb' 13 2 ∧ e.tile.pri = (word 2).getLsbD 15 ∧
      e.x = (word 3).extractLsb' 0 9) ∧
    (spriteActions s.cfg.originBias e i).length = e.wf.toNat + 1 ∧
    (spriteActions s.cfg.originBias e i)[k]? = some (.prim (.sprcol {
      x := (e.x.toNat : Int) - s.cfg.originBias + 8 * k
      y := (e.y.toNat : Int) - s.cfg.originBias
      ht := e.hf.toNat + 1
      tile := BitVec.ofNat 11 ((e.tile.pat.toNat + sc * (e.hf.toNat + 1)) % 2048)
      pal := e.tile.pal
      hf := e.tile.hf
      vf := e.tile.vf
      slot := i }) (if e.tile.pri then 5 else 3))

/-! ## RENDER -/

/-- R256: the record of each entry. R257: Expand is a table of the parameters; at the defaults it is
(c << 2) or (c >> 1); whatever the legal parameters it sends 0 to 0, 7 to the largest channel, and is
strictly increasing. R258: the packed form of a record. -/
def Obligations.PaletteConversion : Prop :=
  (∀ (cfg : Config) (v : BitVec 3), expandOf cfg v = cfg.expand[v.toFin]) ∧
  (∀ v : BitVec 3, expandOf {} v = ((v.setWidth 5 <<< 2) ||| (v.setWidth 5 >>> 1)).toNat) ∧
  (([0, 1, 2, 3, 4, 5, 6, 7] : List (BitVec 3)).map (expandOf {}) = [0, 4, 9, 13, 18, 22, 27, 31]) ∧
  (∀ cfg : Config, cfg.legal = true → expandOf cfg 0 = 0 ∧ expandOf cfg 7 = 2 ^ cfg.nativeBits - 1 ∧
    ∀ u v : BitVec 3, u < v → expandOf cfg u < expandOf cfg v) ∧
  (packedRecord .transparent = 0 ∧ ∀ r g b : Nat, r < 32 → g < 32 → b < 32 →
    packedRecord (.opaqueRgb r g b) = BitVec.ofNat 16 (0x8000 + 1024 * b + 32 * g + r)) ∧
  ∀ (cfg : Config) (cram : Vector Half cramEntries) (i : Nat) (h : i < cramEntries),
    (i % 16 = 0 → (convertPalette cfg cram)[i] = .transparent) ∧
    (i % 16 ≠ 0 → (convertPalette cfg cram)[i] =
      .opaqueRgb (expandOf cfg (cram[i].extractLsb' 1 3)) (expandOf cfg (cram[i].extractLsb' 5 3))
        (expandOf cfg (cram[i].extractLsb' 9 3)))

/-- RENDER starts a frame: the Building step converts the palette, builds the back slot from empty,
appends its diagnostics, leaves the front slot and everything else, and the phase becomes Flushed
(R270, R271). -/
def Obligations.RenderBuildsTheBackSlot : Prop :=
  ∀ (s : State), s.inited = true → s.policy = .validated → s.regionsFit = true →
    ∃ t, exec .render s = .next t ∧ t.slot s.front.other = s.build.slot ∧ t.slot s.front = s.slot s.front ∧
      t = { s with
        slot0 := t.slot0
        slot1 := t.slot1
        palStage := convertPalette s.cfg s.cram
        out := s.out ++ s.build.diags
        phase := .flushed }

/-- R271: the Building step emits the planes, then the sprites, then the fill. R273: the first
PRIM_CAPACITY primitives are kept, each at the end of its bin, and each later one is dropped with
E_PRIM_OVERFLOW and its bin. R307: those dropped before the fill are reported first, then what the
sprite walk raises, then the fill if it was dropped. -/
def Obligations.BinsHoldWhatWasEmitted : Prop :=
  ∀ (s : State) (b : Bin),
    let prims := primsOf s.buildActions
    let cap := s.cfg.primCapacity
    s.buildActions = s.planeActions ++ s.spriteWalkActions ++ [.prim (.fill {
        x := 0, y := 0, w := s.cfg.screenWidth, h := s.cfg.screenHeight
        r := expandOf s.cfg (redOf s.cram[s.bgcol.toFin]), g := expandOf s.cfg (greenOf s.cram[s.bgcol.toFin])
        b := expandOf s.cfg (blueOf s.cram[s.bgcol.toFin]) }) 0] ∧
    s.build.slot.bins[b] = ((prims.take cap).filter fun pb => decide (pb.2 = b)).map Prod.fst ∧
    s.build.slot.count = min cap prims.length ∧
    s.build.diags = (prims.dropLast.drop cap).map (fun pb => diagEvent .primOverflow pb.2.val) ++
      diagsOf s.buildActions ++ (if cap < prims.length then [diagEvent .primOverflow 0] else [])

/-- The fill, unless it was dropped, is the first primitive drawn, and the only fill (R274, R276,
R286), so the picture the list describes does not depend on what the framebuffer held (R291). -/
def Obligations.BackgroundFillIsDrawnFirst : Prop :=
  ∀ (s : State), diagEvent .primOverflow 0 ∉ s.build.diags →
    ∃ rest, s.build.slot.drawList = .fill {
        x := 0, y := 0, w := s.cfg.screenWidth, h := s.cfg.screenHeight
        r := expandOf s.cfg (redOf s.cram[s.bgcol.toFin]), g := expandOf s.cfg (greenOf s.cram[s.bgcol.toFin])
        b := expandOf s.cfg (blueOf s.cram[s.bgcol.toFin]) } :: rest ∧
      (∀ f, Prim.fill f ∉ rest) ∧
      ∀ (view : State) (x y : Nat) (u v : Pixel), view.cfg = s.cfg → x < s.cfg.screenWidth → y < s.cfg.screenHeight →
        pictureAt view s.build.slot.drawList x y u = pictureAt view s.build.slot.drawList x y v

/-- At the default parameters a frame emits at most 2337 primitives and never overflows (R224, R247,
R273). -/
def Obligations.DefaultFrameNeverOverflows : Prop :=
  ∀ (s : State), s.Wf → s.cfg = {} →
    s.build.slot.count ≤ 2337 ∧ ∀ info, diagEvent .primOverflow info ∉ s.build.diags

/-- The Flushed step uploads the palette and exactly the flagged blocks and tiles, in the fixed order,
and clears every flag (R259, R278, R280, R281, R290); what the shadows hold after it is
FlushCopiesTheFlaggedBlocks. That the enabled step goes before a VBLANK or GPU_DONE presented with it is
the model's choice (log 6, unsafe). -/
def Obligations.FlushUploadsExactlyTheFlagged : Prop :=
  ∀ (s : State), s.Wf → s.flushEnabled = true →
    (∀ i rest, s.nextInput = some (i, rest) → i.isReset = false) →
    ∃ t, step s = .next t ∧ t.out = s.out ++ s.flushEvents s.palStage ∧
      t = { s with
        palOut := s.palStage
        dirtyBlk := []
        dirtyTileA := []
        dirtyTileB := []
        texRaw := t.texRaw
        texALo := t.texALo
        texAHi := t.texAHi
        texBLo := t.texBLo
        out := t.out
        phase := .presented }

/-- R76, R77, R208, R280, R281: after the Flushed step TEX_RAW holds VRAM in every block that was
flagged, and what it held before elsewhere; the cell of every flagged tile inside its plane holds the
decode of the tile's entry, for plane A in the layer its priority bit names, the other layer blank
there, and every other sample of TEX_PLANE is what it was. That the enabled step goes before a VBLANK
or GPU_DONE presented with it is the model's choice (log 6, unsafe). -/
def Obligations.FlushCopiesTheFlaggedBlocks : Prop :=
  ∀ (s t : State), s.Wf → s.flushEnabled = true →
    (∀ i rest, s.nextInput = some (i, rest) → i.isReset = false) → step s = .next t →
    (∀ a, a < s.cfg.vramSize →
      t.texRaw.read a = if a / s.cfg.blockSize ∈ s.dirtyBlk then s.vram.read a else s.texRaw.read a) ∧
    ∀ v c, v < texSide → c < texSide →
      let tile := v / 8 * s.pw.toNat + c / 8
      let inside := c / 8 < s.pw.toNat ∧ v / 8 < s.ph.toNat
      let entry := fun base : BitVec 16 =>
        s.vram.read (base.toNat + 2 * tile) ++ s.vram.read (base.toNat + 2 * tile + 1)
      let sample := fun e : Half =>
        (decodeTile s.vram (e.extractLsb' 0 11) (e.getLsbD 11) (e.getLsbD 12) (e.extractLsb' 13 2)).getD
          (8 * (v % 8) + c % 8) 0
      let eA := entry s.paBase
      (t.texALo.read (texAddr v c) =
        if inside ∧ tile ∈ s.dirtyTileA then (if eA.getLsbD 15 then 0 else sample eA)
        else s.texALo.read (texAddr v c)) ∧
      (t.texAHi.read (texAddr v c) =
        if inside ∧ tile ∈ s.dirtyTileA then (if eA.getLsbD 15 then sample eA else 0)
        else s.texAHi.read (texAddr v c)) ∧
      (t.texBLo.read (texAddr v c) =
        if inside ∧ tile ∈ s.dirtyTileB then sample (entry s.pbBase) else s.texBLo.read (texAddr v c))

/-- R283: the Presented step, at the VBLANK that RENDER waits for. R285, R42: the viewports installed are
(FB0, FB1) for slot 0 and (FB1, FB0) for slot 1. R286: the list submitted is the bins 0 to 5, each
reversed. -/
def Obligations.PresentInstallsSubmitsAndFlips : Prop :=
  ∀ (s : State) (rest : List Input), s.phase = .presented → s.nextInput = some (.vblank, rest) →
    let back := if s.front = .zero then SlotId.one else .zero
    let disp := if back = .one then FbId.fb1 else .fb0
    let draw := if back = .one then FbId.fb0 else .fb1
    let bins := if back = .one then s.slot1.bins else s.slot0.bins
    let list := bins[0].reverse ++ bins[1].reverse ++ bins[2].reverse ++ bins[3].reverse ++ bins[4].reverse ++
      bins[5].reverse
    step s = .next { s with
      inputs := rest
      activeDisp := disp
      activeDraw := draw
      gpuBusy := true
      front := back
      phase := .building
      out := s.out ++ [.install back disp draw, .submitOt back list, .flip back] ++
        (if s.vintEn then [.vint] else []) }

/-- RENDER completes: with the GPU idle, a RENDER word and a VBLANK give one whole frame in three
steps; the events are those of R290 in that order, every flag is clear, PAL_OUT is the conversion of
CRAM, and the slots swap. That the Flushed step goes before the VBLANK, which is presented from the
start, is the model's choice (log 6, unsafe). -/
def Obligations.RenderCompletesWithOneVblank : Prop :=
  ∀ (s : State) (rest : List Input), s.Wf → s.inited = true → s.policy = .validated → s.gpuBusy = false →
    s.headerNext 0x40000000 (.vblank :: rest) →
    ∃ t, core.run 3 s = .next t ∧
      t.out = s.out ++ s.build.diags ++ s.flushEvents (convertPalette s.cfg s.cram) ++
        [.install s.front.other s.front.other.disp s.front.other.draw,
         .submitOt s.front.other s.build.slot.drawList, .flip s.front.other] ++
        (if s.vintEn then [.vint] else []) ∧
      t.inputs = rest ∧ t.phase = .building ∧ t.front = s.front.other ∧ t.gpuBusy = true ∧
      t.dirtyBlk = [] ∧ t.dirtyTileA = [] ∧ t.dirtyTileB = [] ∧
      t.palOut = convertPalette s.cfg s.cram ∧ t.vram = s.vram ∧ t.cram = s.cram ∧
      t.slot s.front.other = s.build.slot ∧ t.slot s.front = s.slot s.front

/-! ## The whole machine -/

/-- The state after reset is well formed, for every legal choice of the parameters. -/
def Obligations.ResetIsWellFormed : Prop :=
  State.reset.Wf ∧ ∀ (cfg : Config) (strap : Policy) (k : Nat) (inputs : List Input), cfg.legal = true →
    (State.powerOn cfg strap k inputs).Wf

/-- Every step keeps a well-formed state well formed. -/
def Obligations.StepKeepsWellFormed : Prop :=
  ∀ (s t : State), s.Wf → step s = .next t → t.Wf

/-- A well-formed machine never has an odd region base, so no engine reads a 16-bit structure at an odd
address (R63); it never faults, and under Validated every step completes (R66, R70, R303). The
fault is the model's own (log 14), and that a step with nothing to do completes is the model's choice
(log 8). -/
def Obligations.WellFormedMachineGoesOn : Prop :=
  ∀ (s : State), s.Wf →
    (∀ base ∈ [s.paBase, s.pbBase, s.sprBase, s.hsBase], base.toNat % 2 = 0) ∧
    (∀ r, step s ≠ .fault r) ∧ (s.policy = .validated → stepSafe s)

/-- R33, R320: no step but reset changes POLICY or takes INITED back; no step changes the
parameters. -/
def Obligations.StrapAndInitedAreLasting : Prop :=
  ∀ (s t : State), step s = .next t →
    t.cfg = s.cfg ∧ (s.noReset → t.policy = s.policy ∧ (s.inited = true →
      t.inited = true ∧ t.vintEn = s.vintEn ∧ t.hintEn = s.hintEn))

/-- No rule reads OUT (R50): a step appends the same events whatever OUT holds, and nothing else
depends on it. -/
def Obligations.OutIsNeverRead : Prop :=
  ∀ (s t : State) (o : List OutEvent), s.noReset → step s = .next t →
    ∃ es, t.out = s.out ++ es ∧ step { s with out := o } = .next { t with out := o ++ es }

/-- R314: INIT records HINT_EN and SETHINT records HINT_LINE, and both are read by nothing: two
machines that differ only there step to machines that differ only there. There is no event HINT in
OUT's type. -/
def Obligations.HintIsReadByNothing : Prop :=
  (∀ (s : State) (vint hint : Bool), s.inited = false →
    ∃ t, exec (.init vint hint) s = .next t ∧ t.hintEn = hint) ∧
  (∀ (s : State) (line : Half), s.inited = true → ∃ t, exec (.sethint line) s = .next t ∧ t.hintLine = line) ∧
  (∀ (s : State) (en : Bool) (line : Half),
    mapNext (State.withHint false 0) (step (s.withHint en line)) = mapNext (State.withHint false 0) (step s))

/-- R312: exactly one VINT per completed RENDER when enabled, and none at any other moment. -/
def Obligations.OneVintPerFrame : Prop :=
  ∀ (s t : State), s.noReset → step s = .next t →
    vintCount t.out = vintCount s.out + (if s.phase = .presented ∧ t.phase = .building ∧ s.vintEn = true then 1 else 0)

/-- While the GPU draws, no upload changes a shadow it reads (R73, R279). -/
def Obligations.NoUploadWhileTheGpuIsBusy : Prop :=
  ∀ (s t : State), s.noReset → s.gpuBusy = true → step s = .next t →
    t.texRaw = s.texRaw ∧ t.texALo = s.texALo ∧ t.texAHi = s.texAHi ∧ t.texBLo = s.texBLo ∧ t.palOut = s.palOut
end

