-- ==== Sys2Proof/Laws/State.lean ====
section
/-! SUPPORT. What each named update of the state does to each field. -/

namespace Sys2Proof.Machine

variable (s : State)

/-! ## emit and raise -/

@[simp] theorem State.emit_out (e : OutEvent) : (s.emit e).out = s.out ++ [e] := rfl
@[simp] theorem State.emit_cfg (e : OutEvent) : (s.emit e).cfg = s.cfg := rfl
@[simp] theorem State.emit_vram (e : OutEvent) : (s.emit e).vram = s.vram := rfl
@[simp] theorem State.emit_vcur (e : OutEvent) : (s.emit e).vcur = s.vcur := rfl
@[simp] theorem State.emit_vclass (e : OutEvent) : (s.emit e).vclass = s.vclass := rfl
@[simp] theorem State.emit_cram (e : OutEvent) : (s.emit e).cram = s.cram := rfl
@[simp] theorem State.emit_ccur (e : OutEvent) : (s.emit e).ccur = s.ccur := rfl
@[simp] theorem State.emit_paBase (e : OutEvent) : (s.emit e).paBase = s.paBase := rfl
@[simp] theorem State.emit_pbBase (e : OutEvent) : (s.emit e).pbBase = s.pbBase := rfl
@[simp] theorem State.emit_sprBase (e : OutEvent) : (s.emit e).sprBase = s.sprBase := rfl
@[simp] theorem State.emit_hsBase (e : OutEvent) : (s.emit e).hsBase = s.hsBase := rfl
@[simp] theorem State.emit_pw (e : OutEvent) : (s.emit e).pw = s.pw := rfl
@[simp] theorem State.emit_ph (e : OutEvent) : (s.emit e).ph = s.ph := rfl
@[simp] theorem State.emit_bgcol (e : OutEvent) : (s.emit e).bgcol = s.bgcol := rfl
@[simp] theorem State.emit_vsa (e : OutEvent) : (s.emit e).vsa = s.vsa := rfl
@[simp] theorem State.emit_vsb (e : OutEvent) : (s.emit e).vsb = s.vsb := rfl
@[simp] theorem State.emit_hintLine (e : OutEvent) : (s.emit e).hintLine = s.hintLine := rfl
@[simp] theorem State.emit_inited (e : OutEvent) : (s.emit e).inited = s.inited := rfl
@[simp] theorem State.emit_vintEn (e : OutEvent) : (s.emit e).vintEn = s.vintEn := rfl
@[simp] theorem State.emit_hintEn (e : OutEvent) : (s.emit e).hintEn = s.hintEn := rfl
@[simp] theorem State.emit_policy (e : OutEvent) : (s.emit e).policy = s.policy := rfl
@[simp] theorem State.emit_phase (e : OutEvent) : (s.emit e).phase = s.phase := rfl
@[simp] theorem State.emit_front (e : OutEvent) : (s.emit e).front = s.front := rfl
@[simp] theorem State.emit_gpuBusy (e : OutEvent) : (s.emit e).gpuBusy = s.gpuBusy := rfl
@[simp] theorem State.emit_activeDisp (e : OutEvent) : (s.emit e).activeDisp = s.activeDisp := rfl
@[simp] theorem State.emit_activeDraw (e : OutEvent) : (s.emit e).activeDraw = s.activeDraw := rfl
@[simp] theorem State.emit_dirtyBlk (e : OutEvent) : (s.emit e).dirtyBlk = s.dirtyBlk := rfl
@[simp] theorem State.emit_dirtyTileA (e : OutEvent) : (s.emit e).dirtyTileA = s.dirtyTileA := rfl
@[simp] theorem State.emit_dirtyTileB (e : OutEvent) : (s.emit e).dirtyTileB = s.dirtyTileB := rfl
@[simp] theorem State.emit_slot0 (e : OutEvent) : (s.emit e).slot0 = s.slot0 := rfl
@[simp] theorem State.emit_slot1 (e : OutEvent) : (s.emit e).slot1 = s.slot1 := rfl
@[simp] theorem State.emit_palStage (e : OutEvent) : (s.emit e).palStage = s.palStage := rfl
@[simp] theorem State.emit_palOut (e : OutEvent) : (s.emit e).palOut = s.palOut := rfl
@[simp] theorem State.emit_texRaw (e : OutEvent) : (s.emit e).texRaw = s.texRaw := rfl
@[simp] theorem State.emit_texALo (e : OutEvent) : (s.emit e).texALo = s.texALo := rfl
@[simp] theorem State.emit_texAHi (e : OutEvent) : (s.emit e).texAHi = s.texAHi := rfl
@[simp] theorem State.emit_texBLo (e : OutEvent) : (s.emit e).texBLo = s.texBLo := rfl
@[simp] theorem State.emit_rx (e : OutEvent) : (s.emit e).rx = s.rx := rfl
@[simp] theorem State.emit_inputs (e : OutEvent) : (s.emit e).inputs = s.inputs := rfl
@[simp] theorem State.emit_resets (e : OutEvent) : (s.emit e).resets = s.resets := rfl

@[simp] theorem State.raise_out (c : DiagCode) (n : Nat) : (s.raise c n).out = s.out ++ [diagEvent c n] := rfl
@[simp] theorem State.raise_cfg (c : DiagCode) (n : Nat) : (s.raise c n).cfg = s.cfg := rfl
@[simp] theorem State.raise_vram (c : DiagCode) (n : Nat) : (s.raise c n).vram = s.vram := rfl
@[simp] theorem State.raise_vcur (c : DiagCode) (n : Nat) : (s.raise c n).vcur = s.vcur := rfl
@[simp] theorem State.raise_vclass (c : DiagCode) (n : Nat) : (s.raise c n).vclass = s.vclass := rfl
@[simp] theorem State.raise_cram (c : DiagCode) (n : Nat) : (s.raise c n).cram = s.cram := rfl
@[simp] theorem State.raise_ccur (c : DiagCode) (n : Nat) : (s.raise c n).ccur = s.ccur := rfl
@[simp] theorem State.raise_paBase (c : DiagCode) (n : Nat) : (s.raise c n).paBase = s.paBase := rfl
@[simp] theorem State.raise_pbBase (c : DiagCode) (n : Nat) : (s.raise c n).pbBase = s.pbBase := rfl
@[simp] theorem State.raise_sprBase (c : DiagCode) (n : Nat) : (s.raise c n).sprBase = s.sprBase := rfl
@[simp] theorem State.raise_hsBase (c : DiagCode) (n : Nat) : (s.raise c n).hsBase = s.hsBase := rfl
@[simp] theorem State.raise_pw (c : DiagCode) (n : Nat) : (s.raise c n).pw = s.pw := rfl
@[simp] theorem State.raise_ph (c : DiagCode) (n : Nat) : (s.raise c n).ph = s.ph := rfl
@[simp] theorem State.raise_bgcol (c : DiagCode) (n : Nat) : (s.raise c n).bgcol = s.bgcol := rfl
@[simp] theorem State.raise_vsa (c : DiagCode) (n : Nat) : (s.raise c n).vsa = s.vsa := rfl
@[simp] theorem State.raise_vsb (c : DiagCode) (n : Nat) : (s.raise c n).vsb = s.vsb := rfl
@[simp] theorem State.raise_hintLine (c : DiagCode) (n : Nat) : (s.raise c n).hintLine = s.hintLine := rfl
@[simp] theorem State.raise_inited (c : DiagCode) (n : Nat) : (s.raise c n).inited = s.inited := rfl
@[simp] theorem State.raise_vintEn (c : DiagCode) (n : Nat) : (s.raise c n).vintEn = s.vintEn := rfl
@[simp] theorem State.raise_hintEn (c : DiagCode) (n : Nat) : (s.raise c n).hintEn = s.hintEn := rfl
@[simp] theorem State.raise_policy (c : DiagCode) (n : Nat) : (s.raise c n).policy = s.policy := rfl
@[simp] theorem State.raise_phase (c : DiagCode) (n : Nat) : (s.raise c n).phase = s.phase := rfl
@[simp] theorem State.raise_front (c : DiagCode) (n : Nat) : (s.raise c n).front = s.front := rfl
@[simp] theorem State.raise_gpuBusy (c : DiagCode) (n : Nat) : (s.raise c n).gpuBusy = s.gpuBusy := rfl
@[simp] theorem State.raise_activeDisp (c : DiagCode) (n : Nat) : (s.raise c n).activeDisp = s.activeDisp := rfl
@[simp] theorem State.raise_activeDraw (c : DiagCode) (n : Nat) : (s.raise c n).activeDraw = s.activeDraw := rfl
@[simp] theorem State.raise_dirtyBlk (c : DiagCode) (n : Nat) : (s.raise c n).dirtyBlk = s.dirtyBlk := rfl
@[simp] theorem State.raise_dirtyTileA (c : DiagCode) (n : Nat) : (s.raise c n).dirtyTileA = s.dirtyTileA := rfl
@[simp] theorem State.raise_dirtyTileB (c : DiagCode) (n : Nat) : (s.raise c n).dirtyTileB = s.dirtyTileB := rfl
@[simp] theorem State.raise_slot0 (c : DiagCode) (n : Nat) : (s.raise c n).slot0 = s.slot0 := rfl
@[simp] theorem State.raise_slot1 (c : DiagCode) (n : Nat) : (s.raise c n).slot1 = s.slot1 := rfl
@[simp] theorem State.raise_palStage (c : DiagCode) (n : Nat) : (s.raise c n).palStage = s.palStage := rfl
@[simp] theorem State.raise_palOut (c : DiagCode) (n : Nat) : (s.raise c n).palOut = s.palOut := rfl
@[simp] theorem State.raise_texRaw (c : DiagCode) (n : Nat) : (s.raise c n).texRaw = s.texRaw := rfl
@[simp] theorem State.raise_texALo (c : DiagCode) (n : Nat) : (s.raise c n).texALo = s.texALo := rfl
@[simp] theorem State.raise_texAHi (c : DiagCode) (n : Nat) : (s.raise c n).texAHi = s.texAHi := rfl
@[simp] theorem State.raise_texBLo (c : DiagCode) (n : Nat) : (s.raise c n).texBLo = s.texBLo := rfl
@[simp] theorem State.raise_rx (c : DiagCode) (n : Nat) : (s.raise c n).rx = s.rx := rfl
@[simp] theorem State.raise_inputs (c : DiagCode) (n : Nat) : (s.raise c n).inputs = s.inputs := rfl
@[simp] theorem State.raise_resets (c : DiagCode) (n : Nat) : (s.raise c n).resets = s.resets := rfl

/-! ## setSlot -/

@[simp] theorem State.slot_setSlot (i : SlotId) (v : Slot) : (s.setSlot i v).slot i = v := by cases i <;> rfl
@[simp] theorem State.slot_setSlot_other (i : SlotId) (v : Slot) : (s.setSlot i.other v).slot i = s.slot i := by
  cases i <;> rfl
@[simp] theorem SlotId.other_other (i : SlotId) : i.other.other = i := by cases i <;> rfl
theorem SlotId.other_ne (i : SlotId) : i.other ≠ i := by cases i <;> decide
@[simp] theorem State.setSlot_cfg (i : SlotId) (v : Slot) : (s.setSlot i v).cfg = s.cfg := by cases i <;> rfl
@[simp] theorem State.setSlot_vram (i : SlotId) (v : Slot) : (s.setSlot i v).vram = s.vram := by cases i <;> rfl
@[simp] theorem State.setSlot_vcur (i : SlotId) (v : Slot) : (s.setSlot i v).vcur = s.vcur := by cases i <;> rfl
@[simp] theorem State.setSlot_vclass (i : SlotId) (v : Slot) : (s.setSlot i v).vclass = s.vclass := by cases i <;> rfl
@[simp] theorem State.setSlot_cram (i : SlotId) (v : Slot) : (s.setSlot i v).cram = s.cram := by cases i <;> rfl
@[simp] theorem State.setSlot_ccur (i : SlotId) (v : Slot) : (s.setSlot i v).ccur = s.ccur := by cases i <;> rfl
@[simp] theorem State.setSlot_paBase (i : SlotId) (v : Slot) : (s.setSlot i v).paBase = s.paBase := by cases i <;> rfl
@[simp] theorem State.setSlot_pbBase (i : SlotId) (v : Slot) : (s.setSlot i v).pbBase = s.pbBase := by cases i <;> rfl
@[simp] theorem State.setSlot_sprBase (i : SlotId) (v : Slot) : (s.setSlot i v).sprBase = s.sprBase := by cases i <;> rfl
@[simp] theorem State.setSlot_hsBase (i : SlotId) (v : Slot) : (s.setSlot i v).hsBase = s.hsBase := by cases i <;> rfl
@[simp] theorem State.setSlot_pw (i : SlotId) (v : Slot) : (s.setSlot i v).pw = s.pw := by cases i <;> rfl
@[simp] theorem State.setSlot_ph (i : SlotId) (v : Slot) : (s.setSlot i v).ph = s.ph := by cases i <;> rfl
@[simp] theorem State.setSlot_bgcol (i : SlotId) (v : Slot) : (s.setSlot i v).bgcol = s.bgcol := by cases i <;> rfl
@[simp] theorem State.setSlot_vsa (i : SlotId) (v : Slot) : (s.setSlot i v).vsa = s.vsa := by cases i <;> rfl
@[simp] theorem State.setSlot_vsb (i : SlotId) (v : Slot) : (s.setSlot i v).vsb = s.vsb := by cases i <;> rfl
@[simp] theorem State.setSlot_hintLine (i : SlotId) (v : Slot) : (s.setSlot i v).hintLine = s.hintLine := by cases i <;> rfl
@[simp] theorem State.setSlot_inited (i : SlotId) (v : Slot) : (s.setSlot i v).inited = s.inited := by cases i <;> rfl
@[simp] theorem State.setSlot_vintEn (i : SlotId) (v : Slot) : (s.setSlot i v).vintEn = s.vintEn := by cases i <;> rfl
@[simp] theorem State.setSlot_hintEn (i : SlotId) (v : Slot) : (s.setSlot i v).hintEn = s.hintEn := by cases i <;> rfl
@[simp] theorem State.setSlot_policy (i : SlotId) (v : Slot) : (s.setSlot i v).policy = s.policy := by cases i <;> rfl
@[simp] theorem State.setSlot_phase (i : SlotId) (v : Slot) : (s.setSlot i v).phase = s.phase := by cases i <;> rfl
@[simp] theorem State.setSlot_front (i : SlotId) (v : Slot) : (s.setSlot i v).front = s.front := by cases i <;> rfl
@[simp] theorem State.setSlot_gpuBusy (i : SlotId) (v : Slot) : (s.setSlot i v).gpuBusy = s.gpuBusy := by cases i <;> rfl
@[simp] theorem State.setSlot_activeDisp (i : SlotId) (v : Slot) : (s.setSlot i v).activeDisp = s.activeDisp := by cases i <;> rfl
@[simp] theorem State.setSlot_activeDraw (i : SlotId) (v : Slot) : (s.setSlot i v).activeDraw = s.activeDraw := by cases i <;> rfl
@[simp] theorem State.setSlot_dirtyBlk (i : SlotId) (v : Slot) : (s.setSlot i v).dirtyBlk = s.dirtyBlk := by cases i <;> rfl
@[simp] theorem State.setSlot_dirtyTileA (i : SlotId) (v : Slot) : (s.setSlot i v).dirtyTileA = s.dirtyTileA := by cases i <;> rfl
@[simp] theorem State.setSlot_dirtyTileB (i : SlotId) (v : Slot) : (s.setSlot i v).dirtyTileB = s.dirtyTileB := by cases i <;> rfl
@[simp] theorem State.setSlot_palStage (i : SlotId) (v : Slot) : (s.setSlot i v).palStage = s.palStage := by cases i <;> rfl
@[simp] theorem State.setSlot_palOut (i : SlotId) (v : Slot) : (s.setSlot i v).palOut = s.palOut := by cases i <;> rfl
@[simp] theorem State.setSlot_texRaw (i : SlotId) (v : Slot) : (s.setSlot i v).texRaw = s.texRaw := by cases i <;> rfl
@[simp] theorem State.setSlot_texALo (i : SlotId) (v : Slot) : (s.setSlot i v).texALo = s.texALo := by cases i <;> rfl
@[simp] theorem State.setSlot_texAHi (i : SlotId) (v : Slot) : (s.setSlot i v).texAHi = s.texAHi := by cases i <;> rfl
@[simp] theorem State.setSlot_texBLo (i : SlotId) (v : Slot) : (s.setSlot i v).texBLo = s.texBLo := by cases i <;> rfl
@[simp] theorem State.setSlot_out (i : SlotId) (v : Slot) : (s.setSlot i v).out = s.out := by cases i <;> rfl
@[simp] theorem State.setSlot_rx (i : SlotId) (v : Slot) : (s.setSlot i v).rx = s.rx := by cases i <;> rfl
@[simp] theorem State.setSlot_inputs (i : SlotId) (v : Slot) : (s.setSlot i v).inputs = s.inputs := by cases i <;> rfl
@[simp] theorem State.setSlot_resets (i : SlotId) (v : Slot) : (s.setSlot i v).resets = s.resets := by cases i <;> rfl

/-! ## setDirtyTile -/

@[simp] theorem State.dirtyTile_set (p : Plane) (f : FlagSet) : (s.setDirtyTile p f).dirtyTile p = f := by cases p <;> rfl
@[simp] theorem State.setDirtyTile_cfg (p : Plane) (f : FlagSet) : (s.setDirtyTile p f).cfg = s.cfg := by cases p <;> rfl
@[simp] theorem State.setDirtyTile_vram (p : Plane) (f : FlagSet) : (s.setDirtyTile p f).vram = s.vram := by cases p <;> rfl
@[simp] theorem State.setDirtyTile_vcur (p : Plane) (f : FlagSet) : (s.setDirtyTile p f).vcur = s.vcur := by cases p <;> rfl
@[simp] theorem State.setDirtyTile_vclass (p : Plane) (f : FlagSet) : (s.setDirtyTile p f).vclass = s.vclass := by cases p <;> rfl
@[simp] theorem State.setDirtyTile_cram (p : Plane) (f : FlagSet) : (s.setDirtyTile p f).cram = s.cram := by cases p <;> rfl
@[simp] theorem State.setDirtyTile_ccur (p : Plane) (f : FlagSet) : (s.setDirtyTile p f).ccur = s.ccur := by cases p <;> rfl
@[simp] theorem State.setDirtyTile_paBase (p : Plane) (f : FlagSet) : (s.setDirtyTile p f).paBase = s.paBase := by cases p <;> rfl
@[simp] theorem State.setDirtyTile_pbBase (p : Plane) (f : FlagSet) : (s.setDirtyTile p f).pbBase = s.pbBase := by cases p <;> rfl
@[simp] theorem State.setDirtyTile_sprBase (p : Plane) (f : FlagSet) : (s.setDirtyTile p f).sprBase = s.sprBase := by cases p <;> rfl
@[simp] theorem State.setDirtyTile_hsBase (p : Plane) (f : FlagSet) : (s.setDirtyTile p f).hsBase = s.hsBase := by cases p <;> rfl
@[simp] theorem State.setDirtyTile_pw (p : Plane) (f : FlagSet) : (s.setDirtyTile p f).pw = s.pw := by cases p <;> rfl
@[simp] theorem State.setDirtyTile_ph (p : Plane) (f : FlagSet) : (s.setDirtyTile p f).ph = s.ph := by cases p <;> rfl
@[simp] theorem State.setDirtyTile_bgcol (p : Plane) (f : FlagSet) : (s.setDirtyTile p f).bgcol = s.bgcol := by cases p <;> rfl
@[simp] theorem State.setDirtyTile_vsa (p : Plane) (f : FlagSet) : (s.setDirtyTile p f).vsa = s.vsa := by cases p <;> rfl
@[simp] theorem State.setDirtyTile_vsb (p : Plane) (f : FlagSet) : (s.setDirtyTile p f).vsb = s.vsb := by cases p <;> rfl
@[simp] theorem State.setDirtyTile_hintLine (p : Plane) (f : FlagSet) : (s.setDirtyTile p f).hintLine = s.hintLine := by cases p <;> rfl
@[simp] theorem State.setDirtyTile_inited (p : Plane) (f : FlagSet) : (s.setDirtyTile p f).inited = s.inited := by cases p <;> rfl
@[simp] theorem State.setDirtyTile_vintEn (p : Plane) (f : FlagSet) : (s.setDirtyTile p f).vintEn = s.vintEn := by cases p <;> rfl
@[simp] theorem State.setDirtyTile_hintEn (p : Plane) (f : FlagSet) : (s.setDirtyTile p f).hintEn = s.hintEn := by cases p <;> rfl
@[simp] theorem State.setDirtyTile_policy (p : Plane) (f : FlagSet) : (s.setDirtyTile p f).policy = s.policy := by cases p <;> rfl
@[simp] theorem State.setDirtyTile_phase (p : Plane) (f : FlagSet) : (s.setDirtyTile p f).phase = s.phase := by cases p <;> rfl
@[simp] theorem State.setDirtyTile_front (p : Plane) (f : FlagSet) : (s.setDirtyTile p f).front = s.front := by cases p <;> rfl
@[simp] theorem State.setDirtyTile_gpuBusy (p : Plane) (f : FlagSet) : (s.setDirtyTile p f).gpuBusy = s.gpuBusy := by cases p <;> rfl
@[simp] theorem State.setDirtyTile_activeDisp (p : Plane) (f : FlagSet) : (s.setDirtyTile p f).activeDisp = s.activeDisp := by cases p <;> rfl
@[simp] theorem State.setDirtyTile_activeDraw (p : Plane) (f : FlagSet) : (s.setDirtyTile p f).activeDraw = s.activeDraw := by cases p <;> rfl
@[simp] theorem State.setDirtyTile_dirtyBlk (p : Plane) (f : FlagSet) : (s.setDirtyTile p f).dirtyBlk = s.dirtyBlk := by cases p <;> rfl
@[simp] theorem State.setDirtyTile_slot0 (p : Plane) (f : FlagSet) : (s.setDirtyTile p f).slot0 = s.slot0 := by cases p <;> rfl
@[simp] theorem State.setDirtyTile_slot1 (p : Plane) (f : FlagSet) : (s.setDirtyTile p f).slot1 = s.slot1 := by cases p <;> rfl
@[simp] theorem State.setDirtyTile_palStage (p : Plane) (f : FlagSet) : (s.setDirtyTile p f).palStage = s.palStage := by cases p <;> rfl
@[simp] theorem State.setDirtyTile_palOut (p : Plane) (f : FlagSet) : (s.setDirtyTile p f).palOut = s.palOut := by cases p <;> rfl
@[simp] theorem State.setDirtyTile_texRaw (p : Plane) (f : FlagSet) : (s.setDirtyTile p f).texRaw = s.texRaw := by cases p <;> rfl
@[simp] theorem State.setDirtyTile_texALo (p : Plane) (f : FlagSet) : (s.setDirtyTile p f).texALo = s.texALo := by cases p <;> rfl
@[simp] theorem State.setDirtyTile_texAHi (p : Plane) (f : FlagSet) : (s.setDirtyTile p f).texAHi = s.texAHi := by cases p <;> rfl
@[simp] theorem State.setDirtyTile_texBLo (p : Plane) (f : FlagSet) : (s.setDirtyTile p f).texBLo = s.texBLo := by cases p <;> rfl
@[simp] theorem State.setDirtyTile_out (p : Plane) (f : FlagSet) : (s.setDirtyTile p f).out = s.out := by cases p <;> rfl
@[simp] theorem State.setDirtyTile_rx (p : Plane) (f : FlagSet) : (s.setDirtyTile p f).rx = s.rx := by cases p <;> rfl
@[simp] theorem State.setDirtyTile_inputs (p : Plane) (f : FlagSet) : (s.setDirtyTile p f).inputs = s.inputs := by cases p <;> rfl
@[simp] theorem State.setDirtyTile_resets (p : Plane) (f : FlagSet) : (s.setDirtyTile p f).resets = s.resets := by cases p <;> rfl

/-! ## The Building step -/

/-- Everything the Building step changes (R271). -/
theorem State.buildingStep_shape : s.buildingStep = { s with
    slot0 := match s.front with
      | .zero => s.slot0
      | .one => s.build.slot
    slot1 := match s.front with
      | .zero => s.build.slot
      | .one => s.slot1
    palStage := convertPalette s.cfg s.cram
    out := s.out ++ s.build.diags
    phase := .flushed } := by
  unfold State.buildingStep
  cases s.front <;> rfl

end Sys2Proof.Machine
end

