-- ==== Sys2Proof/Laws/Build.lean ====
section
/-! SUPPORT. The slot under construction: what one action and a list of actions do to its bins, its count and its diagnostics. -/

namespace Sys2Proof.Machine

@[simp] theorem primsOf_nil : primsOf [] = [] := rfl
@[simp] theorem primsOf_prim (p : Prim) (b : Bin) (as : List BuildAction) :
    primsOf (.prim p b :: as) = (p, b) :: primsOf as := rfl
@[simp] theorem primsOf_diag (code : DiagCode) (info : Nat) (as : List BuildAction) :
    primsOf (.diag code info :: as) = primsOf as := rfl
@[simp] theorem primsOf_append (as bs : List BuildAction) : primsOf (as ++ bs) = primsOf as ++ primsOf bs := by
  simp [primsOf]
@[simp] theorem diagsOf_nil : diagsOf [] = [] := rfl
@[simp] theorem diagsOf_prim (p : Prim) (b : Bin) (as : List BuildAction) : diagsOf (.prim p b :: as) = diagsOf as := rfl
@[simp] theorem diagsOf_diag (code : DiagCode) (info : Nat) (as : List BuildAction) :
    diagsOf (.diag code info :: as) = diagEvent code info :: diagsOf as := rfl
@[simp] theorem diagsOf_append (as bs : List BuildAction) : diagsOf (as ++ bs) = diagsOf as ++ diagsOf bs := by
  simp [diagsOf]

/-! ## Slots -/

@[simp] theorem Slot.push_count (p : Prim) (b : Bin) (sl : Slot) : (sl.push p b).count = sl.count + 1 := rfl

theorem Slot.push_bins (p : Prim) (b k : Bin) (sl : Slot) :
    (sl.push p b).bins[k] = if k = b then sl.bins[k] ++ [p] else sl.bins[k] := by
  simp only [Slot.push, Fin.getElem_fin, Vector.getElem_set]
  by_cases h : k = b
  · subst h; simp
  · rw [if_neg fun hv => h (Fin.ext hv.symm), if_neg h]

@[simp] theorem Slot.empty_bins (k : Bin) : Slot.empty.bins[k] = [] := by simp [Slot.empty]
@[simp] theorem Slot.empty_count : Slot.empty.count = 0 := rfl

/-- The length of the bins together, as a sum over the bins. -/
theorem Slot.sum_push (p : Prim) (b : Bin) (sl : Slot) :
    ((sl.push p b).bins.toList.map List.length).sum = (sl.bins.toList.map List.length).sum + 1 := by
  obtain ⟨⟨⟨l⟩, hl⟩, n⟩ := sl
  match l, hl with
  | [a, c, d, e, f, g], _ =>
    fin_cases b <;> simp [Slot.push, Vector.set, Vector.toList] <;> omega

theorem Slot.ok_empty (cap : Nat) : Slot.empty.ok cap = true := by
  simp [Slot.ok, Slot.empty, Vector.toList_replicate]

theorem Slot.ok_push {p : Prim} {b : Bin} {sl : Slot} {cap : Nat} (h : sl.ok cap = true) (hc : sl.count ≠ cap) :
    (sl.push p b).ok cap = true := by
  simp only [Slot.ok, Bool.and_eq_true, decide_eq_true_eq] at h ⊢
  rw [Slot.sum_push, Slot.push_count]
  omega

/-! ## Actions -/

/-- The fold of the Building step over a list of actions, from `b`. -/
def Built.run (cap : Nat) (b : Built) (as : List BuildAction) : Built := as.foldl (Built.step cap) b

@[simp] theorem Built.run_nil (cap : Nat) (b : Built) : b.run cap [] = b := rfl
@[simp] theorem Built.run_cons (cap : Nat) (b : Built) (a : BuildAction) (as : List BuildAction) :
    b.run cap (a :: as) = (b.step cap a).run cap as := rfl
@[simp] theorem Built.run_append (cap : Nat) (b : Built) (as bs : List BuildAction) :
    b.run cap (as ++ bs) = (b.run cap as).run cap bs := by simp [Built.run]

theorem State.build_eq_run (s : State) :
    s.build = Built.run s.cfg.primCapacity { slot := Slot.empty, diags := [] } s.buildActions := rfl

theorem Built.step_ok {cap : Nat} {b : Built} (h : b.slot.ok cap = true) (a : BuildAction) :
    (b.step cap a).slot.ok cap = true := by
  cases a with
  | prim p bin =>
    simp only [Built.step]
    split
    · exact h
    · next hc => exact Slot.ok_push h hc
  | diag code info => exact h

theorem Built.run_ok {cap : Nat} (as : List BuildAction) : ∀ {b : Built}, b.slot.ok cap = true →
    (b.run cap as).slot.ok cap = true := by
  induction as with
  | nil => intro b h; exact h
  | cons a as ih => intro b h; exact ih (Built.step_ok h a)

/-- The slot a frame builds counts what it holds and stays within the capacity (R41, R273). -/
theorem State.build_ok (s : State) : s.build.slot.ok s.cfg.primCapacity = true :=
  Built.run_ok _ (Slot.ok_empty _)

/-- Below the capacity nothing is dropped: each primitive goes to the end of its bin. -/
theorem Built.run_fits {cap : Nat} (as : List BuildAction) : ∀ (b : Built),
    b.slot.count + (primsOf as).length ≤ cap →
    (b.run cap as).slot.count = b.slot.count + (primsOf as).length ∧
    (b.run cap as).diags = b.diags ++ diagsOf as ∧
    ∀ k : Bin, (b.run cap as).slot.bins[k] =
      b.slot.bins[k] ++ ((primsOf as).filter fun pb => decide (pb.2 = k)).map Prod.fst := by
  induction as with
  | nil => intro b _; simp
  | cons a as ih =>
    intro b h
    cases a with
    | prim p bin =>
      simp only [primsOf_prim, List.length_cons] at h
      have hs : b.step cap (.prim p bin) = { b with slot := b.slot.push p bin } := by
        simp only [Built.step]
        rw [if_neg (by omega)]
      rw [Built.run_cons, hs]
      obtain ⟨h1, h2, h3⟩ := ih { b with slot := b.slot.push p bin } (by simp only [Slot.push_count]; omega)
      refine ⟨by simp only [h1, Slot.push_count, primsOf_prim, List.length_cons]; omega, h2, fun k => ?_⟩
      rw [h3, Slot.push_bins, primsOf_prim]
      by_cases hk : k = bin
      · subst hk; simp
      · rw [if_neg hk, List.filter_cons_of_neg (by simpa using fun hb => hk hb.symm)]
    | diag code info =>
      simp only [primsOf_diag] at h
      obtain ⟨h1, h2, h3⟩ := ih (b.step cap (.diag code info)) h
      exact ⟨h1, h2.trans (by simp [Built.step]), h3⟩

/-- Whatever the capacity, the diagnostics of a run are raises and drops. -/
theorem Built.mem_diags {cap : Nat} (as : List BuildAction) : ∀ (b : Built) (e : OutEvent),
    e ∈ (b.run cap as).diags → e ∈ b.diags ∨ ∃ code info, e = diagEvent code info := by
  induction as with
  | nil => intro b e h; exact .inl h
  | cons a as ih =>
    intro b e h
    rcases ih (b.step cap a) e h with h | h
    · cases a with
      | prim p bin =>
        simp only [Built.step] at h
        split at h
        · rcases List.mem_append.mp h with h | h
          · exact .inl h
          · exact .inr ⟨_, _, by simpa using h⟩
        · exact .inl h
      | diag code info =>
        rcases List.mem_append.mp h with h | h
        · exact .inl h
        · exact .inr ⟨_, _, by simpa using h⟩
    · exact .inr h

/-- Every event of the Building step is a diagnostic. -/
theorem State.build_diags {s : State} {e : OutEvent} (h : e ∈ s.build.diags) : ∃ code info, e = diagEvent code info :=
  (Built.mem_diags _ _ e h).resolve_left (by simp)

/-! ## What the Building step reads -/

/-- Two states that agree on everything the Building step reads (R271: VRAM, CRAM, the configuration
registers and the parameters). -/
structure SameScene (s t : State) : Prop where
  cfg : t.cfg = s.cfg
  vram : t.vram = s.vram
  cram : t.cram = s.cram
  sprBase : t.sprBase = s.sprBase
  hsBase : t.hsBase = s.hsBase
  pw : t.pw = s.pw
  ph : t.ph = s.ph
  bgcol : t.bgcol = s.bgcol
  vsa : t.vsa = s.vsa
  vsb : t.vsb = s.vsb

theorem State.spriteWalk_congr {s t : State} (h : SameScene s t) : ∀ (left i : Nat),
    t.spriteWalk left i = s.spriteWalk left i := by
  intro left
  induction left with
  | zero => intro i; rfl
  | succ left ih =>
    intro i
    have hr : t.readSprite = s.readSprite := by
      funext j
      simp only [State.readSprite, h.vram, h.sprBase]
    simp only [State.spriteWalk, hr, h.cfg, ih]

theorem State.planeActions_congr {s t : State} (h : SameScene s t) : t.planeActions = s.planeActions := by
  have hs : t.scrollAt = s.scrollAt := by
    funext p y
    cases p <;> simp only [State.scrollAt, h.vram, h.hsBase]
  have hv : t.vscroll = s.vscroll := by
    funext p
    cases p <;> simp only [State.vscroll, h.vsa, h.vsb]
  have hr : t.sourceRow = s.sourceRow := by
    funext p y
    simp only [State.sourceRow, hv, h.ph]
  have hp : t.planeRuns = s.planeRuns := by
    funext p
    simp only [State.planeRuns, hs, hr, h.cfg]
  have hf : t.flushRun = s.flushRun := by
    funext p r
    simp only [State.flushRun, h.pw, h.cfg]
  simp only [State.planeActions, hp, hf]

/-- States that agree on what the Building step reads build the same frame. -/
theorem State.build_congr {s t : State} (h : SameScene s t) : t.build = s.build := by
  simp only [State.build, State.buildActions, State.planeActions_congr h, State.spriteWalkActions,
    State.spriteWalk_congr h, State.fillAction, State.fillColour, h.cfg, h.cram, h.bgcol]

/-! ## Bins -/

/-- A bin holds nothing but primitives emitted for it. -/
theorem Built.mem_bins {cap : Nat} (as : List BuildAction) : ∀ (b : Built) (k : Bin) (p : Prim),
    p ∈ (b.run cap as).slot.bins[k] → p ∈ b.slot.bins[k] ∨ (p, k) ∈ primsOf as := by
  induction as with
  | nil => intro b k p h; exact .inl h
  | cons a as ih =>
    intro b k p h
    rcases ih (b.step cap a) k p h with hb | hb
    · cases a with
      | prim q bin =>
        simp only [Built.step] at hb
        split at hb
        · exact .inl hb
        · simp only [Slot.push_bins] at hb
          split at hb
          · next hk =>
            rcases List.mem_append.mp hb with hb | hb
            · exact .inl hb
            · have : p = q := by simpa using hb
              subst this; subst hk
              exact .inr (by simp)
          · exact .inl hb
      | diag code info => exact .inl hb
    · cases a with
      | prim q bin => exact .inr (.tail _ hb)
      | diag code info => exact .inr hb

/-- Whatever the capacity: the first primitives that fit are kept, each at the end of its bin. -/
theorem Built.run_keeps {cap : Nat} (as : List BuildAction) : ∀ (b : Built), b.slot.count ≤ cap →
    (b.run cap as).slot.count = min cap (b.slot.count + (primsOf as).length) ∧
    ∀ k : Bin, (b.run cap as).slot.bins[k] = b.slot.bins[k] ++
      (((primsOf as).take (cap - b.slot.count)).filter fun pb => decide (pb.2 = k)).map Prod.fst := by
  induction as with
  | nil => intro b h; simpa using h
  | cons a as ih =>
    intro b h
    cases a with
    | diag code info => exact ih (b.step cap (.diag code info)) h
    | prim p bin =>
      simp only [Built.run_cons, primsOf_prim, List.length_cons]
      by_cases hc : b.slot.count = cap
      · have hs : (b.step cap (.prim p bin)).slot = b.slot := by simp [Built.step, hc]
        obtain ⟨h1, h2⟩ := ih (b.step cap (.prim p bin)) (by rw [hs]; exact h)
        rw [hs] at h1 h2
        refine ⟨by omega, fun k => ?_⟩
        rw [h2]
        simp [hc]
      · have hs : (b.step cap (.prim p bin)).slot = b.slot.push p bin := by simp [Built.step, hc]
        obtain ⟨h1, h2⟩ := ih (b.step cap (.prim p bin)) (by rw [hs, Slot.push_count]; omega)
        rw [hs] at h1 h2
        simp only [Slot.push_count] at h1 h2
        refine ⟨by omega, fun k => ?_⟩
        rw [h2, Slot.push_bins, show cap - b.slot.count = cap - (b.slot.count + 1) + 1 by omega, List.take_succ_cons]
        by_cases hk : k = bin
        · subst hk; simp
        · rw [if_neg hk, List.filter_cons_of_neg (by simpa using fun hb => hk hb.symm)]

/-- Each primitive beyond the capacity is reported with its bin, in order (R273). -/
theorem Built.run_drops {cap : Nat} (as : List BuildAction) : ∀ (b : Built), b.slot.count ≤ cap → diagsOf as = [] →
    (b.run cap as).diags = b.diags ++
      ((primsOf as).drop (cap - b.slot.count)).map fun pb => diagEvent .primOverflow pb.2.val := by
  induction as with
  | nil => intro b _ _; simp
  | cons a as ih =>
    intro b h hd
    cases a with
    | diag code info => simp at hd
    | prim p bin =>
      simp only [Built.run_cons, primsOf_prim]
      by_cases hc : b.slot.count = cap
      · have hs : b.step cap (.prim p bin) = { b with diags := b.diags ++ [diagEvent .primOverflow bin.val] } := by
          simp [Built.step, hc]
        rw [hs, ih { b with diags := b.diags ++ [diagEvent .primOverflow bin.val] } h hd]
        simp [hc]
      · have hs : b.step cap (.prim p bin) = { b with slot := b.slot.push p bin } := by simp [Built.step, hc]
        rw [hs, ih { b with slot := b.slot.push p bin } (by rw [Slot.push_count]; omega) hd, Slot.push_count,
          show cap - b.slot.count = cap - (b.slot.count + 1) + 1 by omega, List.drop_succ_cons]

/-- Raises are appended as they come. -/
theorem Built.run_raises {cap : Nat} (as : List BuildAction) : ∀ (b : Built), primsOf as = [] →
    b.run cap as = { b with diags := b.diags ++ diagsOf as } := by
  induction as with
  | nil => intro b _; simp
  | cons a as ih =>
    intro b h
    cases a with
    | prim p bin => simp at h
    | diag code info => rw [Built.run_cons, ih _ h]; simp [Built.step]

end Sys2Proof.Machine
end

