-- ==== Sys2Proof/Laws/Flags.lean ====
section
/-! SUPPORT. The dirty flags: what marking sets, and what it leaves. -/

namespace Sys2Proof.Machine

/-- Marking sets exactly the flags of its range and clears none (R145, R146, R149 b, c). -/
theorem FlagSet.mem_mark (f : FlagSet) (lo hi k : Nat) : k ∈ FlagSet.mark f lo hi ↔ k ∈ f ∨ (lo ≤ k ∧ k ≤ hi) := by
  simp only [FlagSet.mark, List.mem_append, List.mem_filter, List.mem_range'_1, decide_eq_true_eq]
  constructor
  · rintro ((⟨h, -⟩ | h) | ⟨h, -⟩)
    · exact .inl h
    · exact .inr ⟨h.1, by omega⟩
    · exact .inl h
  · intro h
    by_cases h1 : k < lo
    · exact .inl (.inl ⟨h.resolve_right (by omega), h1⟩)
    · by_cases h2 : hi < k
      · exact .inr ⟨h.resolve_right (by omega), h2⟩
      · exact .inl (.inr ⟨by omega, by omega⟩)

theorem risesFrom_mono {lo lo' : Nat} (h : lo' ≤ lo) {f : FlagSet} (hf : risesFrom lo f = true) :
    risesFrom lo' f = true := by
  cases f with
  | nil => rfl
  | cons k ks =>
    simp only [risesFrom, Bool.and_eq_true, decide_eq_true_eq] at hf ⊢
    exact ⟨h.trans hf.1, hf.2⟩

theorem risesFrom_filter (p : Nat → Bool) : ∀ {lo : Nat} {f : FlagSet}, risesFrom lo f = true →
    risesFrom lo (f.filter p) = true
  | _, [], _ => rfl
  | lo, k :: ks, h => by
    simp only [risesFrom, Bool.and_eq_true, decide_eq_true_eq] at h
    have ih := risesFrom_filter p h.2
    by_cases hp : p k = true
    · rw [List.filter_cons_of_pos hp]
      simp only [risesFrom, Bool.and_eq_true, decide_eq_true_eq]
      exact ⟨h.1, ih⟩
    · rw [List.filter_cons_of_neg hp]
      exact risesFrom_mono (by omega) ih

theorem risesFrom_append : ∀ {lo mid : Nat} {f g : FlagSet}, risesFrom lo f = true → (∀ k ∈ f, k < mid) →
    lo ≤ mid → risesFrom mid g = true → risesFrom lo (f ++ g) = true
  | _, _, [], _, _, _, hm, hg => risesFrom_mono hm hg
  | lo, mid, k :: ks, g, hf, hlt, _, hg => by
    simp only [risesFrom, Bool.and_eq_true, decide_eq_true_eq, List.cons_append] at hf ⊢
    exact ⟨hf.1, risesFrom_append hf.2 (fun d hd => hlt d (by simp [hd])) (hlt k (by simp)) hg⟩

theorem risesFrom_from {lo lo' : Nat} {f : FlagSet} (h : risesFrom lo f = true) (hlo : ∀ k ∈ f, lo' ≤ k) :
    risesFrom lo' f = true := by
  cases f with
  | nil => rfl
  | cons k ks =>
    simp only [risesFrom, Bool.and_eq_true, decide_eq_true_eq] at h ⊢
    exact ⟨hlo k (by simp), h.2⟩

theorem risesFrom_range' (n : Nat) : ∀ lo, risesFrom lo (List.range' lo n) = true := by
  induction n with
  | zero => intro lo; rfl
  | succ n ih =>
    intro lo
    simp only [List.range'_succ, risesFrom, Bool.and_eq_true, decide_eq_true_eq]
    exact ⟨Nat.le_refl lo, ih (lo + 1)⟩

/-- Marking a range below `n` keeps an array of `n` flags well formed. -/
theorem FlagSet.wf_mark {f : FlagSet} {n lo hi : Nat} (h : FlagSet.wf f n = true) (hr : lo ≤ hi) (hn : hi < n) :
    FlagSet.wf (FlagSet.mark f lo hi) n = true := by
  simp only [FlagSet.wf, Bool.and_eq_true, List.all_eq_true, decide_eq_true_eq] at h ⊢
  refine ⟨?_, fun k hk => ?_⟩
  · refine risesFrom_append (mid := hi + 1) (risesFrom_append (mid := lo) (risesFrom_filter _ h.1) ?_
      (Nat.zero_le lo) (risesFrom_range' _ lo)) ?_ (Nat.zero_le _) ?_
    · intro k hk
      simpa using (List.mem_filter.mp hk).2
    · intro k hk
      rcases List.mem_append.mp hk with hk | hk
      · have : k < lo := by simpa using (List.mem_filter.mp hk).2
        omega
      · have := List.mem_range'_1.mp hk
        omega
    · exact risesFrom_from (risesFrom_filter _ h.1) fun k hk => by
        have : hi < k := by simpa using (List.mem_filter.mp hk).2
        omega
  · rcases (FlagSet.mem_mark f lo hi k).mp hk with hk | hk
    · exact h.2 k hk
    · omega

/-- Marking touches the three flag arrays only. -/
theorem State.markDirty_shape (a b : Nat) (s : State) :
    s.markDirty a b = { s with
      dirtyBlk := (s.markDirty a b).dirtyBlk
      dirtyTileA := (s.markDirty a b).dirtyTileA
      dirtyTileB := (s.markDirty a b).dirtyTileB } := by
  simp only [State.markDirty]
  split
  · rfl
  · split
    · rfl
    · simp only [State.markTiles]; split <;> rfl
    · simp only [State.markTiles]; split <;> rfl
    · rfl

/-- Two states that agree on everything marking reads and writes (R144 to R146). -/
structure SameMarks (s t : State) : Prop where
  cfg : t.cfg = s.cfg
  vclass : t.vclass = s.vclass
  paBase : t.paBase = s.paBase
  pbBase : t.pbBase = s.pbBase
  pw : t.pw = s.pw
  ph : t.ph = s.ph
  blk : t.dirtyBlk = s.dirtyBlk
  tileA : t.dirtyTileA = s.dirtyTileA
  tileB : t.dirtyTileB = s.dirtyTileB

/-- States that agree on what marking reads get the same flags. -/
theorem State.markDirty_congr {s t : State} (h : SameMarks s t) (a b : Nat) :
    (t.markDirty a b).dirtyBlk = (s.markDirty a b).dirtyBlk ∧
    (t.markDirty a b).dirtyTileA = (s.markDirty a b).dirtyTileA ∧
    (t.markDirty a b).dirtyTileB = (s.markDirty a b).dirtyTileB := by
  obtain ⟨h1, h2, h3, h4, h5, h6, h7, h8, h9⟩ := h
  simp only [State.markDirty, h2]
  split
  · exact ⟨h7, h8, h9⟩
  · split
    · exact ⟨by simp only [State.markBlocks, h7, h1], h8, h9⟩
    · have hb : t.planeBase .a = s.planeBase .a := h3
      have hd : t.dirtyTile .a = s.dirtyTile .a := h8
      simp only [State.markTiles, hb, hd, h5, h6]
      by_cases hc : max a (s.planeBase .a).toNat < min b ((s.planeBase .a).toNat + nametableBytes s.pw s.ph)
      · simp only [hc, ↓reduceIte]
        exact ⟨h7, rfl, h9⟩
      · simp only [hc, ↓reduceIte]
        exact ⟨h7, h8, h9⟩
    · have hb : t.planeBase .b = s.planeBase .b := h4
      have hd : t.dirtyTile .b = s.dirtyTile .b := h9
      simp only [State.markTiles, hb, hd, h5, h6]
      by_cases hc : max a (s.planeBase .b).toNat < min b ((s.planeBase .b).toNat + nametableBytes s.pw s.ph)
      · simp only [hc, ↓reduceIte]
        exact ⟨h7, h8, rfl⟩
      · simp only [hc, ↓reduceIte]
        exact ⟨h7, h8, h9⟩
    · exact ⟨h7, h8, h9⟩

/-- Everything an accepted write does (R140, R141). -/
theorem State.writeVram_shape (bytes : List Byte) (s : State) :
    s.writeVram bytes = { s with
      vram := s.vram.write s.vcur.toNat bytes
      vcur := BitVec.ofNat 17 (s.vcur.toNat + bytes.length)
      dirtyBlk := (s.markDirty s.vcur.toNat (s.vcur.toNat + bytes.length)).dirtyBlk
      dirtyTileA := (s.markDirty s.vcur.toNat (s.vcur.toNat + bytes.length)).dirtyTileA
      dirtyTileB := (s.markDirty s.vcur.toNat (s.vcur.toNat + bytes.length)).dirtyTileB } := by
  obtain ⟨e1, e2, e3⟩ := State.markDirty_congr (s := s)
    (t := { s with vram := s.vram.write s.vcur.toNat bytes, vcur := BitVec.ofNat 17 (s.vcur.toNat + bytes.length) })
    ⟨rfl, rfl, rfl, rfl, rfl, rfl, rfl, rfl, rfl⟩ s.vcur.toNat (s.vcur.toNat + bytes.length)
  simp only [State.writeVram]
  rw [State.markDirty_shape, e1, e2, e3]

/-- Which block flags are set after marking `[a, b)` (R144, R145). -/
theorem State.mem_dirtyBlk_markDirty (a b : Nat) (s : State) (k : Nat) :
    k ∈ (s.markDirty a b).dirtyBlk ↔
      k ∈ s.dirtyBlk ∨ (a ≠ b ∧ s.vclass = .none ∧ a / s.cfg.blockSize ≤ k ∧ k ≤ (b - 1) / s.cfg.blockSize) := by
  simp only [State.markDirty]
  split
  · next h => simp [h]
  · next h =>
    cases hc : s.vclass <;> simp only [State.markBlocks, State.markTiles, FlagSet.mem_mark]
    · simp [h]
    · split <;> simp [State.setDirtyTile]
    · split <;> simp [State.setDirtyTile]
    · simp

/-- The class under which a write is tracked in a plane's tile flags. -/
def planeClass : Plane → VClass
  | .a => .planeA
  | .b => .planeB

/-- Which tile flags are set after marking `[a, b)` (R144, R146). -/
theorem State.mem_dirtyTile_markDirty (a b : Nat) (s : State) (p : Plane) (t : Nat) :
    t ∈ (s.markDirty a b).dirtyTile p ↔
      t ∈ s.dirtyTile p ∨
        (a ≠ b ∧ s.vclass = planeClass p ∧
          max a (s.planeBase p).toNat < min b ((s.planeBase p).toNat + nametableBytes s.pw s.ph) ∧
          (max a (s.planeBase p).toNat - (s.planeBase p).toNat) / 2 ≤ t ∧
          t ≤ (min b ((s.planeBase p).toNat + nametableBytes s.pw s.ph) - 1 - (s.planeBase p).toNat) / 2) := by
  simp only [State.markDirty]
  split
  · next h => simp [h]
  · next h =>
    cases hc : s.vclass <;> cases p <;> simp only [State.markBlocks, State.markTiles, planeClass]
    all_goals
      try split
      all_goals
        simp only [State.dirtyTile, State.setDirtyTile, FlagSet.mem_mark]
        try simp [*]

end Sys2Proof.Machine
end

