-- ==== Sys2Proof/Laws/Memory.lean ====
section
/-! SUPPORT. Memories: read after write, the canonical form, the address space; CRAM. -/

namespace Sys2Proof.Machine

/-! ## Looking up -/

theorem lookupCell_append (xs ys : List Host.Cell) (a : Nat) :
    lookupCell (xs ++ ys) a = (lookupCell xs a).or (lookupCell ys a) := by
  induction xs with
  | nil => simp [lookupCell]
  | cons c cs ih =>
    simp only [List.cons_append, lookupCell]
    split <;> simp [ih]

theorem lookupCell_none_of {xs : List Host.Cell} {a : Nat} (h : ∀ c ∈ xs, c.1 ≠ a) : lookupCell xs a = none := by
  induction xs with
  | nil => rfl
  | cons c cs ih =>
    simp only [lookupCell]
    rw [if_neg (h c (by simp)), ih fun d hd => h d (by simp [hd])]

theorem lookupCell_filter_pos (p : Nat → Bool) (xs : List Host.Cell) (a : Nat) (h : p a = true) :
    lookupCell (xs.filter fun c => p c.1) a = lookupCell xs a := by
  induction xs with
  | nil => rfl
  | cons c cs ih =>
    by_cases hc : p c.1 = true
    · rw [List.filter_cons_of_pos (p := fun d : Host.Cell => p d.1) hc]
      simp only [lookupCell, ih]
    · rw [List.filter_cons_of_neg (p := fun d : Host.Cell => p d.1) hc, ih]
      simp only [lookupCell]
      rw [if_neg]
      rintro rfl
      exact hc h

theorem lookupCell_filter_neg (p : Nat → Bool) (xs : List Host.Cell) (a : Nat) (h : p a = false) :
    lookupCell (xs.filter fun c => p c.1) a = none := by
  refine lookupCell_none_of fun c hc hca => ?_
  have := (List.mem_filter.mp hc).2
  rw [hca, h] at this
  cases this

theorem freshCells_range (base : Background) (bs : List Byte) :
    ∀ a, ∀ c ∈ freshCells base a bs, a ≤ c.1 ∧ c.1 < a + bs.length := by
  induction bs with
  | nil => simp [freshCells]
  | cons b bs ih =>
    intro a c hc
    simp only [freshCells] at hc
    have tail : ∀ d ∈ freshCells base (a + 1) bs, a ≤ d.1 ∧ d.1 < a + (b :: bs).length := fun d hd => by
      have := ih (a + 1) d hd
      simp only [List.length_cons]
      omega
    split at hc
    · exact tail c hc
    · obtain rfl | hc := List.mem_cons.mp hc
      · simp
      · exact tail c hc

/-- What the fresh cells and the background say of an address of the range: the byte placed there. -/
theorem lookupCell_fresh (base : Background) (bs : List Byte) :
    ∀ (a i : Nat) (h : i < bs.length),
      (lookupCell (freshCells base a bs) (a + i)).getD (base.at (a + i)) = bs[i] := by
  induction bs with
  | nil => intro a i h; cases h
  | cons b bs ih =>
    intro a i h
    have none_here : lookupCell (freshCells base (a + 1) bs) a = none :=
      lookupCell_none_of fun c hc hca => by
        have := (freshCells_range base bs (a + 1) c hc).1
        omega
    cases i with
    | zero =>
      simp only [freshCells, Nat.add_zero, List.getElem_cons_zero]
      split
      · next hb => rw [none_here]; exact hb.symm
      · simp [lookupCell]
    | succ i =>
      have hi := ih (a + 1) i (by simpa using h)
      rw [show a + 1 + i = a + (i + 1) by omega] at hi
      simp only [freshCells, List.getElem_cons_succ]
      split
      · exact hi
      · simp only [lookupCell]
        rw [if_neg (by omega)]
        exact hi

/-! ## Read after write -/

@[simp] theorem Memory.write_base (m : Memory) (a : Nat) (bs : List Byte) : (m.write a bs).base = m.base := rfl

/-- A read outside the written range gives what it gave before. -/
theorem Memory.read_write_outside (m : Memory) (a : Nat) (bs : List Byte) (x : Nat)
    (h : x < a ∨ a + bs.length ≤ x) : (m.write a bs).read x = m.read x := by
  have mid : lookupCell (freshCells m.base a bs) x = none :=
    lookupCell_none_of fun c hc hcx => by
      have := freshCells_range m.base bs a c hc
      omega
  simp only [Memory.read, Memory.write, lookupCell_append, mid]
  rcases h with h | h
  · rw [lookupCell_filter_pos (fun k => decide (k < a)) _ _ (by simpa using h),
      lookupCell_filter_neg (fun k => decide (a + bs.length ≤ k)) _ _ (by simp; omega)]
    simp
  · rw [lookupCell_filter_neg (fun k => decide (k < a)) _ _ (by simp; omega),
      lookupCell_filter_pos (fun k => decide (a + bs.length ≤ k)) _ _ (by simpa using h)]
    simp

/-- A read inside the written range gives the byte written there. -/
theorem Memory.read_write_inside (m : Memory) (a : Nat) (bs : List Byte) (i : Nat) (h : i < bs.length) :
    (m.write a bs).read (a + i) = bs[i] := by
  simp only [Memory.read, Memory.write, lookupCell_append]
  rw [lookupCell_filter_neg (fun k => decide (k < a)) _ _ (by simp),
    lookupCell_filter_neg (fun k => decide (a + bs.length ≤ k)) _ _ (by simp; omega)]
  simpa using lookupCell_fresh m.base bs a i h

/-- Everything a write does to reads. -/
theorem Memory.read_write (m : Memory) (a : Nat) (bs : List Byte) (x : Nat) :
    (m.write a bs).read x = if h : a ≤ x ∧ x - a < bs.length then bs[x - a]'h.2 else m.read x := by
  split
  · next h =>
    obtain ⟨i, rfl⟩ : ∃ i, x = a + i := ⟨x - a, by omega⟩
    simpa using m.read_write_inside a bs i (by omega)
  · exact m.read_write_outside a bs x (by omega)

@[simp] theorem Memory.readRange_length (m : Memory) (a n : Nat) : (m.readRange a n).length = n := by
  simp [Memory.readRange]

@[simp] theorem Memory.readRange_getElem (m : Memory) (a n i : Nat) (h : i < (m.readRange a n).length) :
    (m.readRange a n)[i] = m.read (a + i) := by simp [Memory.readRange]

/-- The round trip of R149 (a) at one memory. -/
theorem Memory.readRange_write (m : Memory) (a : Nat) (bs : List Byte) :
    (m.write a bs).readRange a bs.length = bs := by
  refine List.ext_getElem (by simp) fun i h1 h2 => ?_
  simp [m.read_write_inside a bs i h2]

/-! ## The canonical form -/

theorem cellsRise_mono {lo lo' : Nat} (h : lo' ≤ lo) {xs : List Host.Cell} (hx : cellsRise lo xs = true) :
    cellsRise lo' xs = true := by
  cases xs with
  | nil => rfl
  | cons c cs =>
    simp only [cellsRise, Bool.and_eq_true, decide_eq_true_eq] at hx ⊢
    exact ⟨h.trans hx.1, hx.2⟩

theorem cellsRise_filter (p : Host.Cell → Bool) : ∀ {lo : Nat} {xs : List Host.Cell},
    cellsRise lo xs = true → cellsRise lo (xs.filter p) = true
  | _, [], _ => rfl
  | lo, c :: cs, h => by
    simp only [cellsRise, Bool.and_eq_true, decide_eq_true_eq] at h
    have ih := cellsRise_filter p h.2
    by_cases hp : p c = true
    · rw [List.filter_cons_of_pos hp]
      simp only [cellsRise, Bool.and_eq_true, decide_eq_true_eq]
      exact ⟨h.1, ih⟩
    · rw [List.filter_cons_of_neg hp]
      exact cellsRise_mono (by omega) ih

/-- Two rising lists put together rise when the first ends before the second begins. -/
theorem cellsRise_append : ∀ {lo mid : Nat} {xs ys : List Host.Cell}, cellsRise lo xs = true →
    (∀ c ∈ xs, c.1 < mid) → lo ≤ mid → cellsRise mid ys = true → cellsRise lo (xs ++ ys) = true
  | _, _, [], _, _, _, hm, hy => cellsRise_mono hm hy
  | lo, mid, c :: cs, ys, hx, hlt, _, hy => by
    simp only [cellsRise, Bool.and_eq_true, decide_eq_true_eq, List.cons_append] at hx ⊢
    exact ⟨hx.1, cellsRise_append hx.2 (fun d hd => hlt d (by simp [hd]))
      (hlt c (by simp)) hy⟩

/-- A rising list all of whose addresses are at least `lo'` rises from `lo'`. -/
theorem cellsRise_from {lo lo' : Nat} {xs : List Host.Cell} (h : cellsRise lo xs = true)
    (hlo : ∀ c ∈ xs, lo' ≤ c.1) : cellsRise lo' xs = true := by
  cases xs with
  | nil => rfl
  | cons c cs =>
    simp only [cellsRise, Bool.and_eq_true, decide_eq_true_eq] at h ⊢
    exact ⟨hlo c (by simp), h.2⟩

theorem freshCells_rise (base : Background) (bs : List Byte) : ∀ a, cellsRise a (freshCells base a bs) = true := by
  induction bs with
  | nil => intro a; rfl
  | cons b bs ih =>
    intro a
    simp only [freshCells]
    split
    · exact cellsRise_mono (by omega) (ih (a + 1))
    · simp only [cellsRise, Bool.and_eq_true, decide_eq_true_eq]
      exact ⟨Nat.le_refl a, ih (a + 1)⟩

theorem freshCells_ne (base : Background) (bs : List Byte) :
    ∀ a, ∀ c ∈ freshCells base a bs, c.2 ≠ base.at c.1 := by
  induction bs with
  | nil => simp [freshCells]
  | cons b bs ih =>
    intro a c hc
    simp only [freshCells] at hc
    split at hc
    · exact ih _ c hc
    · next hb =>
      obtain rfl | hc := List.mem_cons.mp hc
      · exact hb
      · exact ih _ c hc

/-- A write keeps the canonical form. -/
theorem Memory.wf_write {m : Memory} (a : Nat) (bs : List Byte) (h : m.wf = true) : (m.write a bs).wf = true := by
  simp only [Memory.wf, Bool.and_eq_true, List.all_eq_true, decide_eq_true_eq] at h ⊢
  refine ⟨?_, fun c hc => ?_⟩
  · refine cellsRise_append (mid := a + bs.length) (cellsRise_append (mid := a) (cellsRise_filter _ h.1) ?_
      (Nat.zero_le a) (freshCells_rise m.base bs a)) ?_ (Nat.zero_le _) ?_
    · intro c hc
      simpa using (List.mem_filter.mp hc).2
    · intro c hc
      rcases List.mem_append.mp hc with hc | hc
      · have : c.1 < a := by simpa using (List.mem_filter.mp hc).2
        omega
      · exact (freshCells_range m.base bs a c hc).2
    · exact cellsRise_from (cellsRise_filter _ h.1) fun c hc => by simpa using (List.mem_filter.mp hc).2
  · simp only [Memory.write, List.mem_append] at hc
    rcases hc with (hc | hc) | hc
    · exact h.2 c (List.mem_filter.mp hc).1
    · exact freshCells_ne m.base bs a c hc
    · exact h.2 c (List.mem_filter.mp hc).1

/-- A write inside the address space stays inside it. -/
theorem Memory.within_write {m : Memory} {size : Nat} (a : Nat) (bs : List Byte) (h : m.within size = true)
    (hs : a + bs.length ≤ size) : (m.write a bs).within size = true := by
  simp only [Memory.within, List.all_eq_true, decide_eq_true_eq] at h ⊢
  intro c hc
  simp only [Memory.write, List.mem_append] at hc
  rcases hc with (hc | hc) | hc
  · exact h c (List.mem_filter.mp hc).1
  · exact (freshCells_range m.base bs a c hc).2.trans_le hs
  · exact h c (List.mem_filter.mp hc).1

/-- A write inside the address space keeps a store well formed. -/
theorem Memory.ok_write {m : Memory} {size : Nat} (a : Nat) (bs : List Byte) (h : m.ok size = true)
    (hs : a + bs.length ≤ size) : (m.write a bs).ok size = true := by
  simp only [Memory.ok, Bool.and_eq_true] at h ⊢
  exact ⟨Memory.wf_write a bs h.1, Memory.within_write a bs h.2 hs⟩

/-- An unwritten store is well formed. -/
theorem Memory.ok_unwritten (store : Store) (k size : Nat) : (Memory.unwritten store k).ok size = true := rfl

/-! ## CRAM -/

/-- What `writeCram` leaves at entry `i` (R162): the word written there, else what was there. -/
theorem writeCram_getElem (ws : List Half) : ∀ (cram : Vector Half cramEntries) (a i : Nat) (hi : i < cramEntries),
    (writeCram cram a ws)[i] = if h : a ≤ i ∧ i - a < ws.length then ws[i - a]'h.2 else cram[i] := by
  induction ws with
  | nil => intro cram a i hi; simp [writeCram]
  | cons w ws ih =>
    intro cram a i hi
    simp only [writeCram, ih, List.length_cons]
    by_cases hai : a = i
    · subst hai
      rw [dif_neg (by omega), dif_pos ⟨Nat.le_refl a, by omega⟩]
      simp
    · by_cases h : a + 1 ≤ i ∧ i - (a + 1) < ws.length
      · rw [dif_pos h, dif_pos ⟨by omega, by omega⟩]
        simp only [show i - a = i - (a + 1) + 1 by omega, List.getElem_cons_succ]
      · rw [dif_neg h, dif_neg (by omega)]
        simp [hai]

end Sys2Proof.Machine
end

