-- ==== Sys2Proof/Laws/Words.lean ====
section
/-! SUPPORT. The header's fields, and the byte lanes of payload words. -/

namespace Sys2Proof

@[simp] theorem opField_header (o : Opcode) (arg : BitVec 24) : opField (header o arg) = o.code := by
  simp only [opField, header]
  exact BitVec.extractLsb'_append_eq_left

@[simp] theorem argField_header (o : Opcode) (arg : BitVec 24) : argField (header o arg) = arg := by
  simp only [argField, header]
  exact BitVec.extractLsb'_append_eq_right

theorem toNat_zero_append (m : Nat) {n : Nat} (x : BitVec n) : ((0 : BitVec m) ++ x).toNat = x.toNat := by
  simp [BitVec.toNat_append]

theorem find_code (o : Opcode) : Opcode.all.find? (fun p => p.code == o.code) = some o := by
  cases o <;> decide

/-- A header whose reserved bits are 0 spells its opcode. -/
theorem opcodeOf_header (o : Opcode) (arg : BitVec 24) (h : arg.toNat < 2 ^ o.argBits) :
    opcodeOf (header o arg) = some o := by
  simp [opcodeOf, find_code, h]

/-- A legal header is the header of its opcode and its arg. -/
theorem header_of_opcodeOf {w : Word} {o : Opcode} (h : opcodeOf w = some o) :
    w = header o (argField w) ∧ (argField w).toNat < 2 ^ o.argBits := by
  unfold opcodeOf at h
  split at h
  · next o' hf =>
    split at h
    · next hb =>
      obtain rfl : o' = o := by simpa using h
      have hc : o'.code = opField w := by simpa using List.find?_some hf
      refine ⟨?_, hb⟩
      rw [header, hc, opField, argField]
      rw [BitVec.eq_of_getLsbD_eq_iff]
      intro i hi
      simp only [BitVec.getLsbD_append, BitVec.getLsbD_extractLsb']
      split
      · simp [*]
      · rw [show 24 + (i - 24) = i by omega]
        simp
        omega
    · cases h
  · cases h

/-- The lanes of four bytes put together are the four bytes (R96). -/
theorem lanes_append (a b c d : Byte) : lanes (d ++ c ++ b ++ a : BitVec 32) = [a, b, c, d] := by
  simp only [lanes, List.cons.injEq, and_true]
  refine ⟨BitVec.extractLsb'_append_eq_right, ?_, ?_, ?_⟩ <;>
  · rw [BitVec.eq_of_getLsbD_eq_iff]
    intro i hi
    simp only [BitVec.getLsbD_append, BitVec.getLsbD_extractLsb', hi, decide_true, Bool.true_and]
    repeat (first | rw [if_pos (by omega)] | rw [if_neg (by omega)])
    congr 1
    omega

@[simp] theorem unpackBytes_nil : unpackBytes [] = [] := rfl

@[simp] theorem unpackBytes_cons (w : Word) (ws : List Word) :
    unpackBytes (w :: ws) = lanes w ++ unpackBytes ws := by simp [unpackBytes]

/-- Unpacking packed bytes gives them back, then at most three padding bytes (R96). -/
theorem unpack_pack (bs : List Byte) : ∃ pad, unpackBytes (packBytes bs) = bs ++ pad := by
  induction bs using packBytes.induct with
  | case1 => exact ⟨[], rfl⟩
  | case2 a => exact ⟨[0, 0, 0], by simpa [packBytes] using lanes_append a 0 0 0⟩
  | case3 a b => exact ⟨[0, 0], by simpa [packBytes] using lanes_append a b 0 0⟩
  | case4 a b c => exact ⟨[0], by simp [packBytes, lanes_append]⟩
  | case5 a b c d rest ih =>
    obtain ⟨pad, h⟩ := ih
    exact ⟨pad, by simp [packBytes, lanes_append, h]⟩

/-- `ceil(n/4)` payload words (R96). -/
@[simp] theorem packBytes_length (bs : List Byte) : (packBytes bs).length = ceilDiv bs.length 4 := by
  induction bs using packBytes.induct with
  | case1 => rfl
  | case2 a => simp [packBytes, ceilDiv]
  | case3 a b => simp [packBytes, ceilDiv]
  | case4 a b c => simp [packBytes, ceilDiv]
  | case5 a b c d rest ih =>
    simp only [packBytes, List.length_cons, ih, ceilDiv]
    omega

@[simp] theorem unpackBytes_length (ws : List Word) : (unpackBytes ws).length = 4 * ws.length := by
  induction ws with
  | nil => rfl
  | cons w ws ih => simp [lanes, ih]; omega

/-- `splitExact` takes exactly the first `n` elements. -/
theorem splitExact_append {α : Type} (xs ys : List α) : splitExact xs.length (xs ++ ys) = some (xs, ys) := by
  induction xs with
  | nil => rfl
  | cons x xs ih => simp [splitExact, ih]

end Sys2Proof
end

