-- ==== Sys2Proof/Laws/PerInstr.lean ====
section
/-! SUPPORT. One lemma per command: the header of its encoding is legal, spells it, and asks for exactly its payload. -/

namespace Sys2Proof.Laws.EncodedHeader

/-- The header of a well-formed command's encoding has its reserved bits 0 (R95), spells its opcode
(R94), and asks for exactly the payload words that follow it (R103). -/
def Statement (i : Instr) : Prop :=
  i.wellFormed = true →
    i.arg.toNat < 2 ^ i.opcode.argBits ∧
    opcodeOf (header i.opcode i.arg) = some i.opcode ∧
    payloadWords (header i.opcode i.arg) = i.payload.length

theorem statement_of {i : Instr} (ha : i.wellFormed = true → i.arg.toNat < 2 ^ i.opcode.argBits)
    (hp : i.wellFormed = true → opcodeOf (header i.opcode i.arg) = some i.opcode →
      payloadWords (header i.opcode i.arg) = i.payload.length) : Statement i := fun hw =>
  have ho := opcodeOf_header _ _ (ha hw)
  ⟨ha hw, ho, hp hw ho⟩

theorem init (vint hint : Bool) : Statement (.init vint hint) :=
  statement_of (fun _ => by cases vint <;> cases hint <;> decide) fun _ ho => by
    simp only [payloadWords, ho]; rfl

theorem seekv (offset : BitVec 24) : Statement (.seekv offset) :=
  statement_of (fun _ => offset.isLt) fun _ ho => by simp only [payloadWords, ho]; rfl

theorem writev (bytes : List Byte) : Statement (.writev bytes) :=
  statement_of (fun _ => BitVec.isLt _) fun hw ho => by
    have hl : bytes.length < 2 ^ 24 := by simpa [Instr.wellFormed] using hw
    simp only [payloadWords, ho]
    simp [Instr.opcode, Instr.arg, Instr.payload, show bytes.length % 16777216 = bytes.length by omega]

theorem fillv (byte : Byte) (len : BitVec 24) : Statement (.fillv byte len) :=
  statement_of (fun _ => len.isLt) fun _ ho => by simp only [payloadWords, ho]; rfl

theorem seekc (offset : BitVec 24) : Statement (.seekc offset) :=
  statement_of (fun _ => offset.isLt) fun _ ho => by simp only [payloadWords, ho]; rfl

theorem writec (words : List Half) : Statement (.writec words) :=
  statement_of (fun _ => BitVec.isLt _) fun hw ho => by
    have hl : words.length < 2 ^ 24 := by simpa [Instr.wellFormed] using hw
    simp only [payloadWords, ho]
    simp [Instr.opcode, Instr.arg, Instr.payload, show words.length < 16777216 by omega]

theorem fillc (word : Half) (len : BitVec 24) : Statement (.fillc word len) :=
  statement_of (fun _ => len.isLt) fun _ ho => by simp only [payloadWords, ho]; rfl

theorem setpa (offset : BitVec 24) : Statement (.setpa offset) :=
  statement_of (fun _ => offset.isLt) fun _ ho => by simp only [payloadWords, ho]; rfl

theorem setpb (offset : BitVec 24) : Statement (.setpb offset) :=
  statement_of (fun _ => offset.isLt) fun _ ho => by simp only [payloadWords, ho]; rfl

theorem setspr (offset : BitVec 24) : Statement (.setspr offset) :=
  statement_of (fun _ => offset.isLt) fun _ ho => by simp only [payloadWords, ho]; rfl

theorem seths (offset : BitVec 24) : Statement (.seths offset) :=
  statement_of (fun _ => offset.isLt) fun _ ho => by simp only [payloadWords, ho]; rfl

theorem setpsz (width height : BitVec 8) : Statement (.setpsz width height) :=
  statement_of
    (fun _ => by
      have h : (((0 : BitVec 8) ++ height) ++ width).toNat < 2 ^ 16 := by
        rw [BitVec.toNat_append, toNat_zero_append]
        exact Nat.or_lt_two_pow (Nat.shiftLeft_lt (n := 8) height.isLt) (width.isLt.trans (by decide))
      exact h)
    fun _ ho => by simp only [payloadWords, ho]; rfl

theorem setbg (index : BitVec 8) : Statement (.setbg index) :=
  statement_of (fun _ => (toNat_zero_append 16 index).trans_lt index.isLt)
    fun _ ho => by simp only [payloadWords, ho]; rfl

theorem setvs (a b : Half) : Statement (.setvs a b) :=
  statement_of (fun _ => Nat.zero_lt_one) fun _ ho => by simp only [payloadWords, ho]; rfl

theorem sethint (line : Half) : Statement (.sethint line) :=
  statement_of (fun _ => (toNat_zero_append 8 line).trans_lt line.isLt)
    fun _ ho => by simp only [payloadWords, ho]; rfl

theorem render : Statement .render :=
  statement_of (fun _ => Nat.zero_lt_one) fun _ ho => by simp only [payloadWords, ho]; rfl

end Sys2Proof.Laws.EncodedHeader
end

