-- ==== Sys2Proof/Laws/Planes.lean ====
section
/-! SUPPORT. The runs of a plane, the sub-segments of a run, the visits of the sprite walk: one lemma a loop. -/

namespace Sys2Proof.Machine

/-! ## Runs -/

/-- A run is not longer than the scanlines that are left, and there are at most as many runs as
scanlines. -/
theorem runsFrom_length (hs : Nat → Half) (row : Nat → Nat) : ∀ (n y y0 v0 : Nat) (hs0 : Half),
    (runsFrom hs row n y y0 v0 hs0).length ≤ n + 1 := by
  intro n
  induction n with
  | zero => intro y y0 v0 hs0; simp [runsFrom]
  | succ n ih =>
    intro y y0 v0 hs0
    simp only [runsFrom]
    split
    · simpa using ih (y + 1) y (row y) (hs y)
    · exact (ih (y + 1) y0 v0 hs0).trans (by omega)

/-- What every run of the scanline loop is: it begins at the open run's first scanline or at a later
one, with that scanline's row and value, and ends on a scanline before the last. -/
theorem mem_runsFrom (hs : Nat → Half) (row : Nat → Nat) : ∀ (n y y0 v0 : Nat) (hs0 : Half), y0 < y →
    ∀ r ∈ runsFrom hs row n y y0 v0 hs0,
      r.y0 ≤ r.y1 ∧ r.y1 < y + n ∧
      ((r.y0 = y0 ∧ r.v0 = v0 ∧ r.hs = hs0 ∧ ∀ z, y ≤ z → z ≤ r.y1 → row z % 256 ≠ 0) ∨
       (y ≤ r.y0 ∧ r.v0 = row r.y0 ∧ r.hs = hs r.y0 ∧ ∀ z, r.y0 < z → z ≤ r.y1 → row z % 256 ≠ 0)) := by
  intro n
  induction n with
  | zero =>
    intro y y0 v0 hs0 hy r hr
    simp only [runsFrom, List.mem_singleton] at hr
    subst hr
    exact ⟨by dsimp only; omega, by dsimp only; omega, .inl ⟨rfl, rfl, rfl, fun z h1 h2 => by dsimp only at h2; omega⟩⟩
  | succ n ih =>
    intro y y0 v0 hs0 hy r hr
    simp only [runsFrom] at hr
    split at hr
    · rcases List.mem_cons.mp hr with rfl | hr
      · exact ⟨by dsimp only; omega, by dsimp only; omega,
          .inl ⟨rfl, rfl, rfl, fun z h1 h2 => by dsimp only at h2; omega⟩⟩
      · obtain ⟨h1, h2, h3⟩ := ih (y + 1) y (row y) (hs y) (by omega) r hr
        refine ⟨h1, by omega, .inr ?_⟩
        rcases h3 with ⟨e1, e2, e3, e4⟩ | ⟨e1, e2, e3, e4⟩
        · exact ⟨by omega, by rw [e2, e1], by rw [e3, e1], fun z h1 h2 => e4 z (by omega) h2⟩
        · exact ⟨by omega, e2, e3, e4⟩
    · next hc =>
      simp only [not_or] at hc
      obtain ⟨h1, h2, h3⟩ := ih (y + 1) y0 v0 hs0 (by omega) r hr
      refine ⟨h1, by omega, ?_⟩
      rcases h3 with ⟨e1, e2, e3, e4⟩ | ⟨e1, e2, e3, e4⟩
      · refine .inl ⟨e1, e2, e3, fun z h1 h2 => ?_⟩
        by_cases hz : z = y
        · subst hz; exact hc.2
        · exact e4 z (by omega) h2
      · exact .inr ⟨by omega, e2, e3, e4⟩

/-! ## Sub-segments -/

/-- What every sub-segment of the width loop is: non-empty, on the screen, inside one page, inside the
plane. -/
theorem mem_subSegments (width wp : Nat) (hwp : 0 < wp) : ∀ (fuel x u : Nat), u < wp →
    ∀ g ∈ subSegments width wp fuel x u,
      1 ≤ g.w ∧ x ≤ g.x ∧ g.x + g.w ≤ width ∧ g.u < wp ∧ g.u % 256 + g.w ≤ 256 := by
  intro fuel
  induction fuel with
  | zero => intro x u _ g hg; cases hg
  | succ fuel ih =>
    intro x u hu g hg
    simp only [subSegments] at hg
    split at hg
    · have := Nat.mod_lt u (show 0 < 256 by decide)
      rcases List.mem_cons.mp hg with rfl | hg
      · dsimp only
        omega
      · obtain ⟨h1, h2, h3, h4, h5⟩ := ih _ _ (Nat.mod_lt _ hwp) g hg
        exact ⟨h1, by omega, h3, h4, h5⟩
    · cases hg

/-- Stepping to the next page boundary: the next source column has phase 0, unless the screen ends. -/
theorem subSegments_length (width wp : Nat) (hwp : 256 ∣ wp) : ∀ (fuel x u : Nat), x < width →
    (subSegments width wp fuel x u).length ≤ 1 + ceilDiv (width - x - min (width - x) (256 - u % 256)) 256 := by
  intro fuel
  induction fuel with
  | zero => intro x u _; simp [subSegments]
  | succ fuel ih =>
    intro x u hx
    simp only [subSegments, if_pos hx, List.length_cons]
    have hu := Nat.mod_lt u (show 0 < 256 by decide)
    by_cases hnext : x + min (width - x) (256 - u % 256) < width
    · have hw : min (width - x) (256 - u % 256) = 256 - u % 256 := by omega
      have hphase : (u + min (width - x) (256 - u % 256)) % wp % 256 = 0 := by
        rw [Nat.mod_mod_of_dvd _ hwp, hw]
        omega
      have := ih _ ((u + min (width - x) (256 - u % 256)) % wp) hnext
      rw [hphase] at this
      refine (Nat.add_le_add_right this 1).trans ?_
      simp only [ceilDiv] at this ⊢
      omega
    · have hnil : ∀ f v, subSegments width wp f (x + min (width - x) (256 - u % 256)) v = [] := by
        intro f v
        cases f <;> simp [subSegments]
        omega
      simp [hnil]

/-- The source column of screen x = 0 lies in the plane. -/
theorem startColumn_lt (hs : Half) {wp : Nat} (h : 0 < wp) : startColumn hs wp < wp := by
  have := Int.emod_lt_of_pos (-(hs.toNat : Int)) (show (0 : Int) < wp by omega)
  have := Int.emod_nonneg (-(hs.toNat : Int)) (show (wp : Int) ≠ 0 by omega)
  simp only [startColumn]
  omega

/-! ## The sprite walk -/

/-- A sprite gives one action for each of its one to four columns. -/
@[simp] theorem spriteActions_length (bias : Nat) (e : SpriteEntry) (i : Nat) :
    (spriteActions bias e i).length = e.wf.toNat + 1 := by simp [spriteActions]

/-- Each visit gives one to four columns, and the walk raises at most one diagnostic, at its end. -/
theorem spriteWalk_shape (s : State) : ∀ (left i : Nat), ∃ ps ds, s.spriteWalk left i = ps ++ ds ∧
    (∀ a ∈ ps, ∃ c b, a = .prim (.sprcol c) b ∧ (b = 3 ∨ b = 5)) ∧ ps.length ≤ 4 * left ∧
    (ds = [] ∨ ∃ j, ds = [.diag .spriteChain j] ∨ ds = [.diag .spriteLink j]) := by
  intro left
  induction left with
  | zero => intro i; exact ⟨[], [], rfl, by simp, by simp, .inl rfl⟩
  | succ left ih =>
    intro i
    have hps : ∀ a ∈ spriteActions s.cfg.originBias (s.readSprite i) i,
        ∃ c b, a = .prim (.sprcol c) b ∧ (b = 3 ∨ b = 5) := by
      intro a ha
      simp only [spriteActions, List.mem_map] at ha
      obtain ⟨k, -, rfl⟩ := ha
      refine ⟨_, _, rfl, ?_⟩
      simp only [spriteBin]
      split <;> simp
    have hlen : (spriteActions s.cfg.originBias (s.readSprite i) i).length ≤ 4 := by
      have := (s.readSprite i).wf.isLt
      simp only [spriteActions_length]
      omega
    simp only [State.spriteWalk]
    split
    · exact ⟨_, [], rfl, hps, by omega, .inl rfl⟩
    · split
      · exact ⟨_, _, rfl, hps, by omega, .inr ⟨i, .inl rfl⟩⟩
      · split
        · exact ⟨_, _, rfl, hps, by omega, .inr ⟨_, .inr rfl⟩⟩
        · obtain ⟨ps, ds, e, h1, h2, h3⟩ := ih (s.readSprite i).link.toNat
          refine ⟨spriteActions s.cfg.originBias (s.readSprite i) i ++ ps, ds, by simp [e], ?_, ?_, h3⟩
          · intro a ha
            rcases List.mem_append.mp ha with ha | ha
            · exact hps a ha
            · exact h1 a ha
          · simp only [List.length_append]
            omega

end Sys2Proof.Machine
end

