-- ==== Sys2Proof/Laws/Regions.lean ====
section
/-! SUPPORT. The parameters, the legal plane sizes and the region map, as facts about numbers. -/

namespace Sys2Proof.Machine

/-! ## The parameters -/

/-- What the constraints of R4 say of the parameters. -/
structure ConfigFacts (c : Config) : Prop where
  vram : c.vramSize = 65536
  cram : c.cramWords = 64
  tiles : c.maxTiles = 4096
  width : 1 ≤ c.screenWidth ∧ c.screenWidth ≤ 1024
  height : 1 ≤ c.screenHeight ∧ c.screenHeight ≤ 256
  slots : 1 ≤ c.spriteSlots ∧ c.spriteSlots ≤ 128
  blocks : c.blockSize ∣ c.vramSize ∧ 0 < c.blockSize
  plane : powerOfTwo c.planeAlign = true
  sprite : powerOfTwo c.spriteAlign = true
  hscroll : powerOfTwo c.hscrollAlign = true
  even : 2 ∣ c.planeAlign ∧ 2 ∣ c.spriteAlign ∧ 2 ∣ c.hscrollAlign
  expand : c.expandLegal = true

theorem configFacts {c : Config} (h : c.legal = true) : ConfigFacts c := by
  simp only [Config.legal, evenPowerOfTwo, Bool.and_eq_true, decide_eq_true_eq, beq_iff_eq] at h
  obtain ⟨⟨⟨⟨⟨⟨⟨⟨⟨⟨⟨⟨⟨⟨⟨v, cr⟩, ti⟩, -⟩, h1⟩, h2⟩, h3⟩, h4⟩, h5⟩, h6⟩, -⟩, h8⟩, h9, e9⟩, h10, e10⟩, h11, e11⟩, ex⟩ := h
  exact ⟨v, cr, ti, ⟨h1, h2⟩, ⟨h3, h4⟩, ⟨h5, h6⟩, ⟨h8, Nat.pos_of_dvd_of_pos h8 (by rw [v]; decide)⟩, h9, h10, h11,
    ⟨Nat.dvd_of_mod_eq_zero e9, Nat.dvd_of_mod_eq_zero e10, Nat.dvd_of_mod_eq_zero e11⟩, ex⟩

/-- Every VRAM address lies in a block. -/
theorem block_lt {c : Config} (h : c.legal = true) {a : Nat} (ha : a < c.vramSize) : a / c.blockSize < c.numBlocks := by
  have hb := (configFacts h).blocks
  rw [Config.numBlocks, Nat.div_lt_iff_lt_mul hb.2, Nat.div_mul_cancel hb.1]
  exact ha

/-- The region bases of a well-formed state are even, so every structure address is (R63). -/
theorem State.Wf.bases_even {s : State} (h : s.Wf) :
    2 ∣ s.paBase.toNat ∧ 2 ∣ s.pbBase.toNat ∧ 2 ∣ s.sprBase.toNat ∧ 2 ∣ s.hsBase.toNat :=
  have e := (configFacts h.cfgLegal).even
  ⟨e.1.trans h.paAligned, e.1.trans h.pbAligned, e.2.1.trans h.sprAligned, e.2.2.trans h.hsAligned⟩

/-- The expanded channels have NATIVE_BITS bits (R257). -/
theorem expandOf_lt {c : Config} (h : c.legal = true) (v : BitVec 3) : expandOf c v < 2 ^ c.nativeBits := by
  have he := (configFacts h).expand
  simp only [Config.expandLegal, Bool.and_eq_true, beq_iff_eq, List.all_eq_true, List.mem_finRange, true_implies,
    decide_eq_true_eq, Fin.getElem_fin, Fin.val_castSucc, Fin.val_succ] at he
  obtain ⟨⟨-, h7⟩, hs⟩ := he
  have h0 : c.expand[0] < c.expand[1] := hs 0
  have h1 : c.expand[1] < c.expand[2] := hs 1
  have h2 : c.expand[2] < c.expand[3] := hs 2
  have h3 : c.expand[3] < c.expand[4] := hs 3
  have h4 : c.expand[4] < c.expand[5] := hs 4
  have h5 : c.expand[5] < c.expand[6] := hs 5
  have h6 : c.expand[6] < c.expand[7] := hs 6
  have all : ∀ (i : Nat) (hi : i < 8), c.expand[i] < 2 ^ c.nativeBits
    | 0, _ | 1, _ | 2, _ | 3, _ | 4, _ | 5, _ | 6, _ | 7, _ => by omega
  exact all v.toNat v.isLt

/-- What a conversion leaves fits NATIVE_BITS (R43, R256). -/
theorem convertPalette_fits {c : Config} (h : c.legal = true) (cram : Vector Half cramEntries) :
    (convertPalette c cram).toList.all (PalRecord.fits c.nativeBits) = true := by
  simp only [List.all_eq_true, convertPalette, Vector.toList_ofFn, List.mem_ofFn]
  rintro _ ⟨i, rfl⟩
  simp only [recordOf]
  split
  · rfl
  · simp [PalRecord.fits, expandOf_lt h]

/-- A cut record fits. -/
theorem PalRecord.fits_clip (bits : Nat) (r : PalRecord) : (r.clip bits).fits bits = true := by
  have := Nat.two_pow_pos bits
  cases r <;> simp [PalRecord.clip, PalRecord.fits, Nat.mod_lt _ this]

/-! ## Plane sizes -/

theorem legalPlaneSize_iff (pw ph : BitVec 8) : legalPlaneSize pw ph = true ↔
    (pw = 32 ∨ pw = 64 ∨ pw = 128) ∧ (ph = 32 ∨ ph = 64 ∨ ph = 128) ∧ pw.toNat * ph.toNat ≤ 4096 := by
  simp [legalPlaneSize, legalSide, or_assoc, and_assoc]

/-- What a legal plane size gives (R28). -/
structure SizeFacts (pw ph : BitVec 8) : Prop where
  width : 256 ∣ 8 * pw.toNat ∧ 0 < pw.toNat ∧ pw.toNat ≤ 128
  height : 256 ∣ 8 * ph.toNat ∧ 0 < ph.toNat ∧ ph.toNat ≤ 128
  tiles : pw.toNat * ph.toNat ≤ 4096
  bytes : 0 < nametableBytes pw ph ∧ nametableBytes pw ph ≤ 2 * 4096

theorem sizeFacts {pw ph : BitVec 8} (h : legalPlaneSize pw ph = true) : SizeFacts pw ph := by
  obtain ⟨h1, h2, h3⟩ := (legalPlaneSize_iff pw ph).mp h
  have hw : 256 ∣ 8 * pw.toNat ∧ 0 < pw.toNat ∧ pw.toNat ≤ 128 := by rcases h1 with h | h | h <;> subst h <;> decide
  have hh : 256 ∣ 8 * ph.toNat ∧ 0 < ph.toNat ∧ ph.toNat ≤ 128 := by rcases h2 with h | h | h <;> subst h <;> decide
  refine ⟨hw, hh, h3, Nat.mul_pos (Nat.mul_pos (by decide) hw.2.1) hh.2.1, ?_⟩
  simp only [nametableBytes, Nat.mul_assoc]
  omega

/-! ## Regions -/

@[simp] theorem Region.holds_iff (r : Region) (o : Nat) : r.holds o = true ↔ r.base ≤ o ∧ o < r.base + r.size := by
  simp [Region.holds]

@[simp] theorem Region.fits_iff (size : Nat) (r : Region) : r.fits size = true ↔ r.base + r.size ≤ size := by simp [Region.fits]

/-- The region map ends inside VRAM (R49, R70). -/
theorem State.regionsFit_iff (s : State) : s.regionsFit = true ↔
    legalPlaneSize s.pw s.ph = true ∧
    s.paBase.toNat + nametableBytes s.pw s.ph ≤ s.cfg.vramSize ∧ s.pbBase.toNat + nametableBytes s.pw s.ph ≤ s.cfg.vramSize ∧
    s.sprBase.toNat + spriteTableBytes s.cfg ≤ s.cfg.vramSize ∧ s.hsBase.toNat + scrollTableBytes s.cfg ≤ s.cfg.vramSize := by
  simp only [State.regionsFit, Bool.and_eq_true, Region.fits_iff, and_assoc]
  rfl

theorem State.Wf.legalSize {s : State} (h : s.Wf) : legalPlaneSize s.pw s.ph = true :=
  ((State.regionsFit_iff s).mp h.regions).1

/-- A masked operand whose region ends inside VRAM fits the 16-bit base register. -/
theorem base_toNat {c : Config} (hc : c.legal = true) {m size : Nat} (h : m + size ≤ c.vramSize) (hs : 0 < size) :
    (BitVec.ofNat 16 m).toNat = m := by
  rw [(configFacts hc).vram] at h
  simp only [BitVec.toNat_ofNat]
  omega

end Sys2Proof.Machine
end

