-- ==== Sys2Proof/Laws/Step.lean ====
section
/-! SUPPORT. Everything a meaning and a step can answer: the inversion lemmas, one per definition. -/

namespace Sys2Proof.Machine

/-! ## Rejecting -/

/-- A rejection that answers a next state has raised its diagnostic and done nothing else. -/
theorem reject_next {code : DiagCode} {info : Nat} {s t : State} (h : reject code info s = .next t) :
    s.policy = .validated ∧ t = s.raise code info := by
  unfold reject at h
  split at h
  · next hp => exact ⟨hp, by simpa using h.symm⟩
  · cases h

@[simp] theorem reject_validated {code : DiagCode} {info : Nat} {s : State} (h : s.policy = .validated) :
    reject code info s = .next (s.raise code info) := by simp [reject, h]

theorem reject_unchecked {code : DiagCode} {info : Nat} {s : State} (h : s.policy = .unchecked) :
    reject code info s = .refused (.uncheckedViolation code) := by simp [reject, h]

theorem reject_ne_fault {code : DiagCode} {info : Nat} {s : State} {r : Fault} : reject code info s ≠ .fault r := by
  unfold reject
  split <;> simp

theorem requireInit_inited {o : Opcode} {s : State} {k : State → Result} (h : s.inited = true) :
    requireInit o s k = k s := by simp [requireInit, h]

theorem requireInit_not {o : Opcode} {s : State} {k : State → Result} (h : s.inited = false) :
    requireInit o s k = reject .notInit o.code.toNat s := by simp [requireInit, h]

/-- What a command behind the initialization check answers. -/
theorem requireInit_cases (o : Opcode) (s : State) (k : State → Result) :
    (s.inited = true ∧ requireInit o s k = k s) ∨
    (s.inited = false ∧ requireInit o s k = reject .notInit o.code.toNat s) := by
  cases h : s.inited
  · exact .inr ⟨rfl, requireInit_not h⟩
  · exact .inl ⟨rfl, requireInit_inited h⟩

/-! ## The meanings

`Rejected s t`: the command raised one diagnostic and did nothing else. -/

/-- One diagnostic is the only change, under Validated. -/
def Rejected (s t : State) : Prop := s.policy = .validated ∧ ∃ code info, t = s.raise code info

theorem Rejected.of_reject {code : DiagCode} {info : Nat} {s t : State} (h : reject code info s = .next t) :
    Rejected s t :=
  ⟨(reject_next h).1, code, info, (reject_next h).2⟩

/-- Behind the initialization check: rejected, or what the body answers. -/
theorem requireInit_next {o : Opcode} {s t : State} {k : State → Result} (h : requireInit o s k = .next t) :
    Rejected s t ∨ (s.inited = true ∧ k s = .next t) := by
  rcases requireInit_cases o s k with ⟨hi, e⟩ | ⟨-, e⟩ <;> rw [e] at h
  · exact .inr ⟨hi, h⟩
  · exact .inl (.of_reject h)

theorem execInit_next {vint hint : Bool} {s t : State} (h : execInit vint hint s = .next t) :
    Rejected s t ∨ (s.inited = false ∧ t = { s with inited := true, vintEn := vint, hintEn := hint }) := by
  unfold execInit at h
  split at h
  · exact .inl (.of_reject h)
  · next hi => exact .inr ⟨by simpa using hi, by simpa using h.symm⟩

theorem execSeekv_next {offset : BitVec 24} {s t : State} (h : execSeekv offset s = .next t) :
    Rejected s t ∨ (s.inited = true ∧ offset.toNat < s.cfg.vramSize ∧
      t = { s with vcur := BitVec.ofNat 17 offset.toNat, vclass := s.classify offset.toNat }) := by
  rcases requireInit_next h with h | ⟨hi, h⟩
  · exact .inl h
  · split at h
    · exact .inl (.of_reject h)
    · exact .inr ⟨hi, by omega, by simpa using h.symm⟩

theorem execWritev_next {bytes : List Byte} {s t : State} (h : execWritev bytes s = .next t) :
    Rejected s t ∨ (s.inited = true ∧ s.vcur.toNat + bytes.length ≤ s.cfg.vramSize ∧ t = s.writeVram bytes) := by
  rcases requireInit_next h with h | ⟨hi, h⟩
  · exact .inl h
  · split at h
    · exact .inl (.of_reject h)
    · exact .inr ⟨hi, by omega, by simpa using h.symm⟩

theorem execFillv_next {byte : Byte} {len : BitVec 24} {s t : State} (h : execFillv byte len s = .next t) :
    Rejected s t ∨ (s.inited = true ∧ s.vcur.toNat + len.toNat ≤ s.cfg.vramSize ∧
      t = s.writeVram (List.replicate len.toNat byte)) := by
  rcases requireInit_next h with h | ⟨hi, h⟩
  · exact .inl h
  · split at h
    · exact .inl (.of_reject h)
    · exact .inr ⟨hi, by omega, by simpa using h.symm⟩

theorem execSeekc_next {offset : BitVec 24} {s t : State} (h : execSeekc offset s = .next t) :
    Rejected s t ∨ (s.inited = true ∧ offset.toNat < s.cfg.cramWords ∧ t = { s with ccur := BitVec.ofNat 7 offset.toNat }) := by
  rcases requireInit_next h with h | ⟨hi, h⟩
  · exact .inl h
  · split at h
    · exact .inl (.of_reject h)
    · exact .inr ⟨hi, by omega, by simpa using h.symm⟩

theorem execWritec_next {words : List Half} {s t : State} (h : execWritec words s = .next t) :
    Rejected s t ∨ (s.inited = true ∧ s.ccur.toNat + words.length ≤ s.cfg.cramWords ∧ t = s.writeColours words) := by
  rcases requireInit_next h with h | ⟨hi, h⟩
  · exact .inl h
  · split at h
    · exact .inl (.of_reject h)
    · exact .inr ⟨hi, by omega, by simpa using h.symm⟩

theorem execFillc_next {word : Half} {len : BitVec 24} {s t : State} (h : execFillc word len s = .next t) :
    Rejected s t ∨ (s.inited = true ∧ s.ccur.toNat + len.toNat ≤ s.cfg.cramWords ∧
      t = s.writeColours (List.replicate len.toNat word)) := by
  rcases requireInit_next h with h | ⟨hi, h⟩
  · exact .inl h
  · split at h
    · exact .inl (.of_reject h)
    · exact .inr ⟨hi, by omega, by simpa using h.symm⟩

/-- The common inversion of the four location setters. -/
theorem setLocation_next {o : Opcode} {align size : Nat} {offset : BitVec 24} {upd : BitVec 16 → State}
    {s t : State} (h : setLocation o align size offset upd s = .next t) :
    Rejected s t ∨ (s.inited = true ∧ (alignMask align offset).toNat + size ≤ s.cfg.vramSize ∧
      t = upd (BitVec.ofNat 16 (alignMask align offset).toNat)) := by
  rcases requireInit_next h with h | ⟨hi, h⟩
  · exact .inl h
  · simp only at h
    split at h
    · exact .inl (.of_reject h)
    · exact .inr ⟨hi, by omega, by simpa using h.symm⟩

theorem execSetpa_next {offset : BitVec 24} {s t : State} (h : execSetpa offset s = .next t) :
    Rejected s t ∨ (s.inited = true ∧
      (alignMask s.cfg.planeAlign offset).toNat + nametableBytes s.pw s.ph ≤ s.cfg.vramSize ∧
      t = { s with paBase := BitVec.ofNat 16 (alignMask s.cfg.planeAlign offset).toNat }) := setLocation_next h

theorem execSetpb_next {offset : BitVec 24} {s t : State} (h : execSetpb offset s = .next t) :
    Rejected s t ∨ (s.inited = true ∧
      (alignMask s.cfg.planeAlign offset).toNat + nametableBytes s.pw s.ph ≤ s.cfg.vramSize ∧
      t = { s with pbBase := BitVec.ofNat 16 (alignMask s.cfg.planeAlign offset).toNat }) := setLocation_next h

theorem execSetspr_next {offset : BitVec 24} {s t : State} (h : execSetspr offset s = .next t) :
    Rejected s t ∨ (s.inited = true ∧
      (alignMask s.cfg.spriteAlign offset).toNat + spriteTableBytes s.cfg ≤ s.cfg.vramSize ∧
      t = { s with sprBase := BitVec.ofNat 16 (alignMask s.cfg.spriteAlign offset).toNat }) := setLocation_next h

theorem execSeths_next {offset : BitVec 24} {s t : State} (h : execSeths offset s = .next t) :
    Rejected s t ∨ (s.inited = true ∧
      (alignMask s.cfg.hscrollAlign offset).toNat + scrollTableBytes s.cfg ≤ s.cfg.vramSize ∧
      t = { s with hsBase := BitVec.ofNat 16 (alignMask s.cfg.hscrollAlign offset).toNat }) := setLocation_next h

theorem execSetpsz_next {width height : BitVec 8} {s t : State} (h : execSetpsz width height s = .next t) :
    Rejected s t ∨ (s.inited = true ∧ legalPlaneSize width height = true ∧
      s.paBase.toNat + nametableBytes width height ≤ s.cfg.vramSize ∧
      s.pbBase.toNat + nametableBytes width height ≤ s.cfg.vramSize ∧ t = { s with pw := width, ph := height }) := by
  rcases requireInit_next h with h | ⟨hi, h⟩
  · exact .inl h
  · simp only at h
    split at h
    · exact .inl (.of_reject h)
    · next hl =>
      split at h
      · exact .inl (.of_reject h)
      · next hf => exact .inr ⟨hi, by simpa using hl, by omega, by omega, by simpa using h.symm⟩

theorem execSetbg_next {index : BitVec 8} {s t : State} (h : execSetbg index s = .next t) :
    Rejected s t ∨ (s.inited = true ∧ index.toNat < s.cfg.cramWords ∧ t = { s with bgcol := BitVec.ofNat 6 index.toNat }) := by
  rcases requireInit_next h with h | ⟨hi, h⟩
  · exact .inl h
  · split at h
    · exact .inl (.of_reject h)
    · exact .inr ⟨hi, by omega, by simpa using h.symm⟩

theorem execSetvs_next {a b : Half} {s t : State} (h : execSetvs a b s = .next t) :
    Rejected s t ∨ (s.inited = true ∧ t = { s with vsa := a, vsb := b }) := by
  rcases requireInit_next h with h | ⟨hi, h⟩
  · exact .inl h
  · exact .inr ⟨hi, by simpa using h.symm⟩

theorem execSethint_next {line : Half} {s t : State} (h : execSethint line s = .next t) :
    Rejected s t ∨ (s.inited = true ∧ t = { s with hintLine := line }) := by
  rcases requireInit_next h with h | ⟨hi, h⟩
  · exact .inl h
  · exact .inr ⟨hi, by simpa using h.symm⟩

/-- RENDER: rejected before INIT, or the Building step; under Unchecked only when it raises nothing. -/
theorem execRender_next {s t : State} (h : execRender s = .next t) :
    Rejected s t ∨ (s.inited = true ∧ s.regionsFit = true ∧
      (s.policy = .unchecked → firstDiag s.build.diags = none) ∧ t = s.buildingStep) := by
  rcases requireInit_next h with h | ⟨hi, h⟩
  · exact .inl h
  · split at h
    · next hr =>
      split at h
      · cases h
      · next hd => exact .inr ⟨hi, hr, fun _ => hd, by simpa using h.symm⟩
      · next hp => exact .inr ⟨hi, hr, fun hu => by simp [hp] at hu, by simpa using h.symm⟩
    · cases h

/-- What a command other than RENDER answers: a rejection or a next state. -/
theorem exec_rejects_or_goes_on (i : Instr) (s : State) (hi : i.opcode ≠ .render) :
    (∃ code info, exec i s = reject code info s) ∨ ∃ t, exec i s = .next t := by
  cases i <;> simp only [exec, execInit, execSeekv, execWritev, execFillv, execSeekc, execWritec, execFillc,
    execSetpa, execSetpb, execSetspr, execSeths, execSetpsz, execSetbg, execSetvs, execSethint, setLocation,
    requireInit]
  case render => exact absurd rfl hi
  all_goals
    repeat' split
    all_goals first
      | exact .inl ⟨_, _, rfl⟩
      | exact .inr ⟨_, rfl⟩

/-- Only RENDER faults, and only when a region leaves VRAM. -/
theorem exec_fault {i : Instr} {s : State} {r : Fault} (h : exec i s = .fault r) : s.regionsFit = false := by
  by_cases hi : i.opcode = .render
  · cases i <;> simp only [Instr.opcode, reduceCtorEq] at hi
    simp only [exec, execRender] at h
    rcases requireInit_cases .render s _ with ⟨-, e⟩ | ⟨-, e⟩ <;> rw [e] at h
    · split at h
      · split at h <;> cases h
      · simp_all
    · exact absurd h reject_ne_fault
  · rcases exec_rejects_or_goes_on i s hi with ⟨_, _, e⟩ | ⟨_, e⟩ <;> rw [e] at h
    · exact absurd h reject_ne_fault
    · cases h

/-- Under Validated a command answers a next state; RENDER needs its regions inside VRAM. -/
theorem exec_validated {s : State} (hp : s.policy = .validated) (hr : s.regionsFit = true) (i : Instr) :
    ∃ t, exec i s = .next t := by
  by_cases hi : i.opcode = .render
  · cases i <;> simp only [Instr.opcode, reduceCtorEq] at hi
    simp only [exec, execRender, requireInit]
    split
    · exact ⟨s.buildingStep, by simp [hp]⟩
    · exact ⟨_, reject_validated hp⟩
  · rcases exec_rejects_or_goes_on i s hi with ⟨_, _, e⟩ | ⟨t, e⟩
    · exact ⟨_, e.trans (reject_validated hp)⟩
    · exact ⟨t, e⟩

/-! ## The port -/

/-- What the open port answers to a word: it runs the command the word completes, keeps the word, or
reports an illegal header. -/
theorem acceptWord_cases (w : Word) (s : State) :
    (s.rx = none ∧ opcodeOf w = none ∧ acceptWord w s = .next (s.raise .illegalCmd w.toNat)) ∨
    (∃ o, s.rx = none ∧ opcodeOf w = some o ∧ payloadWords w = 0 ∧ acceptWord w s = exec (assemble o w []) s) ∨
    (∃ o, s.rx = none ∧ opcodeOf w = some o ∧ 0 < payloadWords w ∧
      acceptWord w s = .next { s with rx := some { header := w, got := [], left := payloadWords w } }) ∨
    (∃ p, s.rx = some p ∧ p.left ≤ 1 ∧ opcodeOf p.header = none ∧
      acceptWord w s = .next { s.raise .illegalCmd p.header.toNat with rx := none }) ∨
    (∃ p o, s.rx = some p ∧ p.left ≤ 1 ∧ opcodeOf p.header = some o ∧
      acceptWord w s = exec (assemble o p.header (p.got ++ [w])) { s with rx := none }) ∨
    (∃ p, s.rx = some p ∧ 1 < p.left ∧
      acceptWord w s = .next { s with rx := some { p with got := p.got ++ [w], left := p.left - 1 } }) := by
  unfold acceptWord
  cases hrx : s.rx with
  | none =>
    cases ho : opcodeOf w with
    | none => simp
    | some o =>
      cases hn : payloadWords w with
      | zero => simp
      | succ n => simp
  | some p =>
    by_cases hl : p.left ≤ 1
    · cases ho : opcodeOf p.header <;> simp [hl, ho]
    · simp [hl]
      omega

/-! ## Which input is next -/

theorem oldestEvent_some {l : List Input} {i : Input} {rest : List Input} (h : oldestEvent l = some (i, rest)) :
    i ∈ l ∧ i.isWord = false ∧ rest.filter Input.isWord = l.filter Input.isWord ∧ (∀ j ∈ rest, j ∈ l) := by
  induction l generalizing rest with
  | nil => cases h
  | cons a l ih =>
    simp only [oldestEvent] at h
    split at h
    · next ha =>
      cases hr : oldestEvent l with
      | none => simp [hr] at h
      | some p =>
        simp only [hr, Option.map_some, Option.some.injEq, Prod.mk.injEq] at h
        obtain ⟨rfl, rfl⟩ := h
        obtain ⟨h1, h2, h3, h4⟩ := ih hr
        refine ⟨.tail _ h1, h2, by simp [ha, h3], fun j hj => ?_⟩
        rcases List.mem_cons.mp hj with rfl | hj
        · exact .head _
        · exact .tail _ (h4 j hj)
    · next ha =>
      simp only [Option.some.injEq, Prod.mk.injEq] at h
      obtain ⟨rfl, rfl⟩ := h
      exact ⟨.head _, by simpa using ha, by simp [ha], fun j hj => .tail _ hj⟩

theorem oldestEvent_words {l : List Input} (h : ∀ i ∈ l, i.isWord = true) : oldestEvent l = none := by
  induction l with
  | nil => rfl
  | cons a l ih => simp [oldestEvent, h a (by simp), ih fun i hi => h i (by simp [hi])]

theorem nextInput_mem {s : State} {i : Input} {rest : List Input} (h : s.nextInput = some (i, rest)) :
    i ∈ s.inputs ∧ ∀ j ∈ rest, j ∈ s.inputs := by
  unfold State.nextInput at h
  split at h
  · split at h
    · cases h
    · next hl =>
      simp only [Option.some.injEq, Prod.mk.injEq] at h
      obtain ⟨rfl, rfl⟩ := h
      simp +contextual [hl]
  · exact ⟨(oldestEvent_some h).1, (oldestEvent_some h).2.2.2⟩
  · exact ⟨(oldestEvent_some h).1, (oldestEvent_some h).2.2.2⟩

/-- While a RENDER is in progress the next input is no word, and the words stay. -/
theorem nextInput_render {s : State} {i : Input} {rest : List Input} (hp : s.phase ≠ .building)
    (h : s.nextInput = some (i, rest)) :
    i.isWord = false ∧ rest.filter Input.isWord = s.inputs.filter Input.isWord := by
  unfold State.nextInput at h
  split at h
  · next hb => exact absurd hb hp
  · exact ⟨(oldestEvent_some h).2.1, (oldestEvent_some h).2.2.1⟩
  · exact ⟨(oldestEvent_some h).2.1, (oldestEvent_some h).2.2.1⟩

theorem nextInput_building {s : State} {i : Input} {rest : List Input} (hp : s.phase = .building)
    (hi : s.inputs = i :: rest) : s.nextInput = some (i, rest) := by simp [State.nextInput, hp, hi]

/-- The Flushed step is enabled exactly when RENDER waits for the GPU and the GPU is idle (R279). -/
theorem flushEnabled_iff {s : State} : s.flushEnabled = true ↔ s.phase = .flushed ∧ s.gpuBusy = false := by
  simp [State.flushEnabled]

/-! ## One step -/

/-- Everything a step can be. -/
theorem step_cases (s : State) :
    (s.flushEnabled = true ∧ (∀ i rest, s.nextInput = some (i, rest) → i.isReset = false) ∧ step s = flushedStep s) ∨
    (∃ i rest, s.nextInput = some (i, rest) ∧ (s.flushEnabled = true → i.isReset = true) ∧
      step s = takeInput i { s with inputs := rest }) ∨
    (s.nextInput = none ∧ s.flushEnabled = false ∧ step s = .next s) := by
  simp only [step, advance]
  cases hn : s.nextInput with
  | none => cases hf : s.flushEnabled <;> simp
  | some p =>
    obtain ⟨i, rest⟩ := p
    cases hf : s.flushEnabled <;> cases hi : i.isReset <;> simp [hi]

theorem step_flush {s : State} (hf : s.flushEnabled = true)
    (hn : ∀ i rest, s.nextInput = some (i, rest) → i.isReset = false) : step s = flushedStep s := by
  rcases step_cases s with ⟨-, -, e⟩ | ⟨i, rest, h, hr, -⟩ | ⟨-, h, -⟩
  · exact e
  · have := hn i rest h
    simp [hr hf] at this
  · simp [hf] at h

theorem step_input {s : State} {i : Input} {rest : List Input} (h : s.nextInput = some (i, rest))
    (hf : s.flushEnabled = true → i.isReset = true) : step s = takeInput i { s with inputs := rest } := by
  simp only [step, advance, h]
  rw [if_neg]
  intro hc
  simp only [Bool.and_eq_true] at hc
  simp [hf hc.1] at hc

theorem step_word {s : State} {w : Word} {rest : List Input} (hp : s.phase = .building)
    (hi : s.inputs = .word w :: rest) : step s = acceptWord w { s with inputs := rest } :=
  step_input (nextInput_building hp hi) (by simp [flushEnabled_iff, hp])

/-- A Flushed step that answers a next state. -/
theorem flushedStep_next {s t : State} (h : flushedStep s = .next t) :
    s.regionsFit = true ∧ t = { s.flush with phase := .presented } := by
  unfold flushedStep at h
  split at h
  · next hr => exact ⟨hr, by simpa using h.symm⟩
  · cases h

end Sys2Proof.Machine
end

