-- ==== Sys2Proof/Laws/Sweep.lean ====
section
/-! SUPPORT. The Flushed step: what each upload, each sweep and the whole step change, and that the shadows stay in canonical form. -/

namespace Sys2Proof.Machine

/-! ## Blocks -/

/-- TEX_RAW after the blocks of a list are copied to it. -/
def State.copiedBlocks (s : State) (m : Memory) (ks : List Nat) : Memory :=
  ks.foldl (fun m k => m.write (k * s.cfg.blockSize) (s.vram.readRange (k * s.cfg.blockSize) s.cfg.blockSize)) m

/-- Uploading a list of blocks changes TEX_RAW and the trace only (R280). -/
theorem State.foldl_uploadBlock (ks : List Nat) : ∀ s : State, ks.foldl State.uploadBlock s =
    { s with
      texRaw := s.copiedBlocks s.texRaw ks
      out := s.out ++ ks.map fun k => .blockUpload k (s.vram.readRange (k * s.cfg.blockSize) s.cfg.blockSize) } := by
  induction ks with
  | nil => intro s; simp [State.copiedBlocks]
  | cons k ks ih =>
    intro s
    rw [List.foldl_cons, ih]
    simp [State.uploadBlock, State.copiedBlocks, State.emit]

/-- A byte of TEX_RAW after the blocks of a list are copied. -/
theorem State.read_copiedBlocks (s : State) (hb : 0 < s.cfg.blockSize) (x : Nat) : ∀ (ks : List Nat) (m : Memory),
    (s.copiedBlocks m ks).read x = if x / s.cfg.blockSize ∈ ks then s.vram.read x else m.read x := by
  intro ks
  induction ks with
  | nil => intro m; rfl
  | cons k ks ih =>
    intro m
    have e : s.copiedBlocks m (k :: ks) =
        s.copiedBlocks (m.write (k * s.cfg.blockSize) (s.vram.readRange (k * s.cfg.blockSize) s.cfg.blockSize)) ks := rfl
    rw [e, ih]
    by_cases h : x / s.cfg.blockSize ∈ ks
    · simp [h]
    · have hk : x / s.cfg.blockSize = k ↔ k * s.cfg.blockSize ≤ x ∧ x - k * s.cfg.blockSize < s.cfg.blockSize := by
        rw [Nat.div_eq_iff hb]
        omega
      rw [if_neg h, Memory.read_write]
      by_cases hx : x / s.cfg.blockSize = k
      · have h2 := hk.mp hx
        rw [if_pos (by simp [hx]), dif_pos (by simpa using h2)]
        simp [Nat.add_sub_cancel' h2.1]
      · rw [if_neg (by simp [hx, h]), dif_neg]
        simpa [hk] using hx

theorem State.copiedBlocks_ok (s : State) : ∀ (ks : List Nat) (m : Memory), m.ok s.cfg.vramSize = true →
    (∀ k ∈ ks, k * s.cfg.blockSize + s.cfg.blockSize ≤ s.cfg.vramSize) → (s.copiedBlocks m ks).ok s.cfg.vramSize = true := by
  intro ks
  induction ks with
  | nil => intro m h _; exact h
  | cons k ks ih =>
    intro m h hk
    exact ih _ (Memory.ok_write _ _ h (by simpa using hk k (by simp))) fun j hj => hk j (by simp [hj])

/-! ## Tiles -/

/-- A cell written at tile position (tx, ty): its samples there, every other sample as before. -/
theorem read_writeCell (m : Memory) (tx ty : Nat) (samples : List Byte) (hl : samples.length = 64)
    (htx : 8 * tx + 8 ≤ texSide) (v c : Nat) (hc : c < texSide) :
    (writeCell m tx ty samples).read (texAddr v c) =
      if 8 * ty ≤ v ∧ v < 8 * ty + 8 ∧ 8 * tx ≤ c ∧ c < 8 * tx + 8 then
        samples.getD (8 * (v - 8 * ty) + (c - 8 * tx)) 0
      else m.read (texAddr v c) := by
  have row : ∀ (n : Nat), n ≤ 8 → ∀ m : Memory,
      (((List.range n).foldl
        (fun m j => m.write (texAddr (8 * ty + j) (8 * tx)) ((samples.drop (8 * j)).take 8)) m).read (texAddr v c)) =
      if 8 * ty ≤ v ∧ v < 8 * ty + n ∧ 8 * tx ≤ c ∧ c < 8 * tx + 8 then
        samples.getD (8 * (v - 8 * ty) + (c - 8 * tx)) 0
      else m.read (texAddr v c) := by
    intro n
    induction n with
    | zero =>
      intro _ m
      rw [if_neg (by omega)]
      rfl
    | succ n ih =>
      intro hn m
      rw [List.range_succ, List.foldl_append, List.foldl_cons, List.foldl_nil, Memory.read_write, ih (by omega)]
      have hlen : ((samples.drop (8 * n)).take 8).length = 8 := by simp [hl]; omega
      have hin : (texAddr (8 * ty + n) (8 * tx) ≤ texAddr v c ∧
          texAddr v c - texAddr (8 * ty + n) (8 * tx) < ((samples.drop (8 * n)).take 8).length) ↔
          v = 8 * ty + n ∧ 8 * tx ≤ c ∧ c < 8 * tx + 8 := by
        rw [hlen]
        simp only [texAddr, texSide] at *
        omega
      by_cases h : v = 8 * ty + n ∧ 8 * tx ≤ c ∧ c < 8 * tx + 8
      · rw [dif_pos (hin.mpr h), if_pos (by omega)]
        obtain ⟨rfl, h1, h2⟩ := h
        have e : texAddr (8 * ty + n) c - texAddr (8 * ty + n) (8 * tx) = c - 8 * tx := by
          simp only [texAddr]
          omega
        simp only [e, List.getElem_take, List.getElem_drop]
        rw [List.getD_eq_getElem _ _ (by omega)]
        congr 1
        omega
      · rw [dif_neg (mt hin.mp h)]
        by_cases h2 : 8 * ty ≤ v ∧ v < 8 * ty + n ∧ 8 * tx ≤ c ∧ c < 8 * tx + 8
        · rw [if_pos h2, if_pos (by omega)]
        · rw [if_neg h2, if_neg (by omega)]
  exact row 8 (by omega) m

theorem writeCell_ok {m : Memory} (tx ty : Nat) (samples : List Byte) (h : m.ok (texSide * texSide) = true)
    (htx : 8 * tx + 8 ≤ texSide) (hty : 8 * ty + 8 ≤ texSide) :
    (writeCell m tx ty samples).ok (texSide * texSide) = true := by
  have rows : ∀ (js : List Nat), (∀ j ∈ js, j < 8) → ∀ m : Memory, m.ok (texSide * texSide) = true →
      (js.foldl (fun m j => m.write (texAddr (8 * ty + j) (8 * tx)) ((samples.drop (8 * j)).take 8)) m).ok
        (texSide * texSide) = true := by
    intro js
    induction js with
    | nil => intro _ m h; exact h
    | cons j js ih =>
      intro hj m h
      refine ih (fun k hk => hj k (by simp [hk])) _ (Memory.ok_write _ _ h ?_)
      have := hj j (by simp)
      have : ((samples.drop (8 * j)).take 8).length ≤ 8 := by simp
      simp only [texAddr, texSide] at *
      omega
  exact rows _ (by simp) m h

@[simp] theorem decodeTile_length (m : Memory) (pat : BitVec 11) (hf vf : Bool) (pal : BitVec 2) :
    (decodeTile m pat hf vf pal).length = 64 := by simp [decodeTile]

@[simp] theorem blankCell_length : blankCell.length = 64 := by simp [blankCell]

theorem decodeTile_getElem (m : Memory) (pat : BitVec 11) (hf vf : Bool) (pal : BitVec 2) (i : Nat) (h : i < 64) :
    (decodeTile m pat hf vf pal)[i]? = some (decodedSample m pat hf vf pal (i / 8) (i % 8)) := by
  simp [decodeTile, h]

/-- The three TEX_PLANE layers together. -/
structure Layers where
  lo : Memory
  hi : Memory
  b  : Memory

/-- The layers of a state. -/
def State.layers (s : State) : Layers := { lo := s.texALo, hi := s.texAHi, b := s.texBLo }

/-- The three layers are in canonical form. -/
def Layers.ok (l : Layers) : Prop :=
  l.lo.ok (texSide * texSide) = true ∧ l.hi.ok (texSide * texSide) = true ∧ l.b.ok (texSide * texSide) = true

/-- What the upload of tile `t` of plane `p` does to the layers, from the VRAM, the plane's base and
its width (R208). -/
def Layers.upload (vram : Memory) (base pw : Nat) (p : Plane) (l : Layers) (t : Nat) : Layers :=
  let f := tileRef (vram.read16 (base + 2 * t))
  let samples := decodeTile vram f.pat f.hf f.vf f.pal
  match p with
  | .a =>
    { l with
      lo := writeCell l.lo (t % pw) (t / pw) (if f.pri then blankCell else samples)
      hi := writeCell l.hi (t % pw) (t / pw) (if f.pri then samples else blankCell) }
  | .b => { l with b := writeCell l.b (t % pw) (t / pw) samples }

/-- A state with other layers and a longer trace. -/
def State.withLayers (s : State) (l : Layers) (es : List OutEvent) : State :=
  { s with texALo := l.lo, texAHi := l.hi, texBLo := l.b, out := s.out ++ es }

theorem State.withLayers_nil (s : State) : s.withLayers s.layers [] = s := by
  simp [State.withLayers, State.layers]

theorem State.withLayers_withLayers (s : State) (l l' : Layers) (es es' : List OutEvent) :
    (s.withLayers l es).withLayers l' es' = s.withLayers l' (es ++ es') := by
  simp [State.withLayers]

/-- A tile of a legal plane size lies inside a layer. -/
theorem tile_inside {pw ph : BitVec 8} {t : Nat} (hl : legalPlaneSize pw ph = true) (ht : t < pw.toNat * ph.toNat) :
    8 * (t % pw.toNat) + 8 ≤ texSide ∧ 8 * (t / pw.toNat) + 8 ≤ texSide := by
  have hw := (sizeFacts hl).width
  have hh := (sizeFacts hl).height
  have h1 := Nat.mod_lt t hw.2.1
  have h2 : t / pw.toNat < ph.toNat := Nat.div_lt_of_lt_mul ht
  simp only [texSide]
  omega

theorem blankCell_getElem? (i : Nat) (h : i < 64) : blankCell[i]? = some 0 := by
  rw [blankCell, List.getElem?_replicate, if_pos h]

/-- A tile upload changes its plane's layers and the trace only (R208). -/
theorem State.uploadTile_shape (p : Plane) (t : Nat) (s : State) :
    s.uploadTile p t = s.withLayers (s.layers.upload s.vram (s.planeBase p).toNat s.pw.toNat p t)
      [tileUploadEvent s.vram (s.planeBase p).toNat p t] := by
  cases p <;> simp only [State.uploadTile, State.withLayers, Layers.upload, State.layers, State.emit, tileUploadEvent]

/-- A tile inside the plane keeps the layers in canonical form. -/
theorem Layers.upload_ok {l : Layers} (h : l.ok) (vram : Memory) (base : Nat) {pw ph : BitVec 8} (p : Plane) {t : Nat}
    (hl : legalPlaneSize pw ph = true) (ht : t < pw.toNat * ph.toNat) : (l.upload vram base pw.toNat p t).ok := by
  have hin := tile_inside hl ht
  obtain ⟨h1, h2, h3⟩ := h
  cases p <;> simp only [Layers.ok, Layers.upload]
  · refine ⟨writeCell_ok _ _ _ h1 ?_ ?_, writeCell_ok _ _ _ h2 ?_ ?_, h3⟩ <;> first | exact hin.1 | exact hin.2
  · refine ⟨h1, h2, writeCell_ok _ _ _ h3 ?_ ?_⟩ <;> first | exact hin.1 | exact hin.2

/-- The sweep of a list of tiles changes the layers and the trace only (R281). -/
theorem State.foldl_sweepTile (p : Plane) (ts : List Nat) : ∀ s : State,
    ts.foldl (State.sweepTile p) s = s.withLayers
      ((insideTiles s.pw s.ph ts).foldl (Layers.upload s.vram (s.planeBase p).toNat s.pw.toNat p) s.layers)
      ((insideTiles s.pw s.ph ts).map (tileUploadEvent s.vram (s.planeBase p).toNat p)) := by
  induction ts with
  | nil => intro s; exact s.withLayers_nil.symm
  | cons t ts ih =>
    intro s
    rw [List.foldl_cons]
    by_cases ht : t < s.pw.toNat * s.ph.toNat
    · have e : s.sweepTile p t = s.withLayers (s.layers.upload s.vram (s.planeBase p).toNat s.pw.toNat p t)
          [tileUploadEvent s.vram (s.planeBase p).toNat p t] := by
        simp only [State.sweepTile, if_pos ht, State.uploadTile_shape]
      have hi : insideTiles s.pw s.ph (t :: ts) = t :: insideTiles s.pw s.ph ts :=
        List.filter_cons_of_pos (by simpa using ht)
      have hb : ∀ l es, (s.withLayers l es).planeBase p = s.planeBase p := by
        intro l es
        cases p <;> rfl
      rw [e, ih, State.withLayers_withLayers, hb, hi]
      rfl
    · have e : s.sweepTile p t = s := by simp only [State.sweepTile, if_neg ht]
      have hi : insideTiles s.pw s.ph (t :: ts) = insideTiles s.pw s.ph ts :=
        List.filter_cons_of_neg (by simpa using ht)
      rw [e, ih, hi]

theorem Layers.foldl_upload_ok (vram : Memory) (base : Nat) {pw ph : BitVec 8} (p : Plane)
    (hl : legalPlaneSize pw ph = true) (ts : List Nat) : ∀ l : Layers, l.ok →
    ((insideTiles pw ph ts).foldl (Layers.upload vram base pw.toNat p) l).ok := by
  have all : ∀ (us : List Nat), (∀ t ∈ us, t < pw.toNat * ph.toNat) → ∀ l : Layers, l.ok →
      (us.foldl (Layers.upload vram base pw.toNat p) l).ok := by
    intro us
    induction us with
    | nil => intro _ l h; exact h
    | cons t us ih =>
      intro ht l h
      exact ih (fun u hu => ht u (by simp [hu])) _ (Layers.upload_ok h vram base p hl (ht t (by simp)))
  exact all _ fun t ht => by simpa [insideTiles] using (List.mem_filter.mp ht).2

/-! ## The whole Flushed step -/

/-- A sample lies in the cell of a tile exactly when its column is inside the plane and its own tile
number is that tile's. -/
theorem mem_cell {w : Nat} (hw : 0 < w) (t v c : Nat) :
    (8 * (t / w) ≤ v ∧ v < 8 * (t / w) + 8 ∧ 8 * (t % w) ≤ c ∧ c < 8 * (t % w) + 8) ↔
      c / 8 < w ∧ v / 8 * w + c / 8 = t := by
  constructor
  · rintro ⟨h1, h2, h3, h4⟩
    have e1 : v / 8 = t / w := by omega
    have e2 : c / 8 = t % w := by omega
    rw [e1, e2]
    exact ⟨Nat.mod_lt _ hw, by rw [Nat.mul_comm]; exact Nat.div_add_mod t _⟩
  · rintro ⟨h1, h2⟩
    have e2 : t % w = c / 8 := by rw [← h2, Nat.add_comm, Nat.add_mul_mod_self_right, Nat.mod_eq_of_lt h1]
    have e1 : t / w = v / 8 := by
      rw [← h2, Nat.add_comm, Nat.add_mul_div_right _ _ hw, Nat.div_eq_of_lt h1, Nat.zero_add]
    omega

/-- What the sweep of a list of tiles leaves in a sample of the layers (R208, R281): the decode of the
tile whose cell it lies in when that tile is in the list, else what was there. -/
theorem Layers.foldl_upload_read (vram : Memory) (base : Nat) {pw ph : BitVec 8} (p : Plane)
    (hl : legalPlaneSize pw ph = true) (v c : Nat) (hc : c < texSide) (us : List Nat)
    (ht : ∀ t ∈ us, t < pw.toNat * ph.toNat) : ∀ l : Layers,
    let tile := v / 8 * pw.toNat + c / 8
    let f := tileRef (vram.read16 (base + 2 * tile))
    let sample := (decodeTile vram f.pat f.hf f.vf f.pal).getD (8 * (v % 8) + c % 8) 0
    let hit := c / 8 < pw.toNat ∧ tile ∈ us
    let r := us.foldl (Layers.upload vram base pw.toNat p) l
    (r.lo.read (texAddr v c) = if p = .a ∧ hit then (if f.pri then 0 else sample) else l.lo.read (texAddr v c)) ∧
    (r.hi.read (texAddr v c) = if p = .a ∧ hit then (if f.pri then sample else 0) else l.hi.read (texAddr v c)) ∧
    (r.b.read (texAddr v c) = if p = .b ∧ hit then sample else l.b.read (texAddr v c)) := by
  induction us with
  | nil => intro l; simp
  | cons t us ih =>
    intro l
    have hin := tile_inside hl (ht t (by simp))
    have hw := (sizeFacts hl).width.2.1
    have cell := mem_cell hw t v c
    have off : c / 8 < pw.toNat → v / 8 * pw.toNat + c / 8 = t →
        8 * (v - 8 * (t / pw.toNat)) + (c - 8 * (t % pw.toNat)) = 8 * (v % 8) + c % 8 := by
      intro h1 h2
      have := cell.mpr ⟨h1, h2⟩
      omega
    have blank : blankCell.getD (8 * (v % 8) + c % 8) 0 = (0 : Byte) := by
      rw [List.getD_eq_getElem?_getD, blankCell_getElem? _ (by omega)]
      rfl
    obtain ⟨h1, h2, h3⟩ := ih (fun u hu => ht u (by simp [hu])) (Layers.upload vram base pw.toNat p l t)
    simp only [List.foldl_cons, List.mem_cons]
    have step : ∀ (m : Memory) (samples : List Byte), samples.length = 64 →
        (writeCell m (t % pw.toNat) (t / pw.toNat) samples).read (texAddr v c) =
          if c / 8 < pw.toNat ∧ v / 8 * pw.toNat + c / 8 = t then samples.getD (8 * (v % 8) + c % 8) 0
          else m.read (texAddr v c) := by
      intro m samples hs
      rw [read_writeCell _ _ _ _ hs hin.1 _ _ hc]
      by_cases h : c / 8 < pw.toNat ∧ v / 8 * pw.toNat + c / 8 = t
      · rw [if_pos (cell.mpr h), if_pos h, off h.1 h.2]
      · rw [if_neg (mt cell.mp h), if_neg h]
    by_cases hcw : c / 8 < pw.toNat
    · by_cases hu : v / 8 * pw.toNat + c / 8 ∈ us
      · cases p <;> simp only [hcw, hu, and_self, false_and, or_true, if_true, if_false, reduceCtorEq] at h1 h2 h3 ⊢
        · exact ⟨h1, h2, h3.trans (by simp [Layers.upload])⟩
        · exact ⟨h1.trans (by simp [Layers.upload]), h2.trans (by simp [Layers.upload]), h3⟩
      · by_cases htt : v / 8 * pw.toNat + c / 8 = t
        · subst htt
          cases p <;> simp only [Layers.upload, hcw, hu, and_true, and_false, if_false, reduceCtorEq, or_false, if_true] at h1 h2 h3 ⊢
          · rw [h1, h2, h3, step _ _ (by split <;> simp), step _ _ (by split <;> simp)]
            simp only [hcw, and_self, if_true]
            refine ⟨?_, ?_⟩ <;> split <;> simp only [blank, and_self]
          · rw [h1, h2, h3, step _ _ (by simp)]
            simp only [hcw, and_self, if_true]
        · cases p <;> simp only [Layers.upload, hu, htt, and_false, if_false, or_false] at h1 h2 h3 ⊢
          · rw [h1, h2, h3, step _ _ (by split <;> simp), step _ _ (by split <;> simp)]
            simp [htt]
          · rw [h1, h2, h3, step _ _ (by simp)]
            simp [htt]
    · cases p <;> simp only [Layers.upload, hcw, false_and, and_false, if_false] at h1 h2 h3 ⊢
      · rw [h1, h2, h3, step _ _ (by split <;> simp), step _ _ (by split <;> simp)]
        simp [hcw]
      · rw [h1, h2, h3, step _ _ (by simp)]
        simp [hcw]

/-- What a state is after its palette and its blocks are uploaded. -/
theorem State.sweepBlocks_uploadPalette (s : State) : s.uploadPalette.sweepBlocks =
    { s with
      palOut := s.palStage
      dirtyBlk := []
      texRaw := s.copiedBlocks s.texRaw s.dirtyBlk
      out := s.out ++ .palUpload s.palStage :: s.dirtyBlk.map fun k =>
        .blockUpload k (s.vram.readRange (k * s.cfg.blockSize) s.cfg.blockSize) } := by
  rw [State.sweepBlocks, State.foldl_uploadBlock]
  simp [State.uploadPalette, State.emit, State.copiedBlocks]

/-- The layers after the Flushed step. -/
def State.flushedLayers (s : State) : Layers :=
  (insideTiles s.pw s.ph s.dirtyTileB).foldl (Layers.upload s.vram s.pbBase.toNat s.pw.toNat .b)
    ((insideTiles s.pw s.ph s.dirtyTileA).foldl (Layers.upload s.vram s.paBase.toNat s.pw.toNat .a) s.layers)

/-- Everything the Flushed step does (R278, R280, R281, R290): the shadows, the flags, the trace; nothing
else. -/
theorem State.flush_shape (s : State) :
    s.flush = { s with
      palOut := s.palStage
      dirtyBlk := []
      dirtyTileA := []
      dirtyTileB := []
      texRaw := s.copiedBlocks s.texRaw s.dirtyBlk
      texALo := s.flushedLayers.lo
      texAHi := s.flushedLayers.hi
      texBLo := s.flushedLayers.b
      out := s.out ++ s.flushEvents s.palStage } := by
  rw [State.flush, State.sweepBlocks_uploadPalette]
  simp only [State.sweepTiles, State.foldl_sweepTile, State.withLayers, State.setDirtyTile, State.dirtyTile]
  simp [State.flushedLayers, State.flushEvents, State.blockEvent, State.layers, State.planeBase]

theorem State.flushedLayers_ok {s : State} (h : s.layers.ok) (hl : legalPlaneSize s.pw s.ph = true) :
    s.flushedLayers.ok :=
  Layers.foldl_upload_ok _ _ _ hl _ _ (Layers.foldl_upload_ok _ _ _ hl _ _ h)

/-- No event of the Flushed step is a diagnostic or a VINT. -/
theorem State.flushEvents_kind {s : State} {pal : Vector PalRecord cramEntries} {e : OutEvent} (h : e ∈ s.flushEvents pal) :
    e ≠ .vint ∧ ∀ code info, e ≠ .diag code info := by
  simp only [State.flushEvents, List.mem_append, List.mem_singleton, List.mem_map] at h
  rcases h with ((rfl | ⟨_, _, rfl⟩) | ⟨_, _, rfl⟩) | ⟨_, _, rfl⟩ <;> simp [State.blockEvent, tileUploadEvent]

/-- The shadows stay in canonical form. -/
theorem State.copiedBlocks_ok_of_wf {s : State} (h : s.Wf) :
    (s.copiedBlocks s.texRaw s.dirtyBlk).ok s.cfg.vramSize = true := by
  refine State.copiedBlocks_ok s _ _ h.texRawOk fun k hk => ?_
  have hb := h.blkOk
  simp only [FlagSet.wf, Bool.and_eq_true, List.all_eq_true, Config.numBlocks] at hb
  have h1 : (k + 1) * s.cfg.blockSize ≤ s.cfg.vramSize / s.cfg.blockSize * s.cfg.blockSize :=
    Nat.mul_le_mul_right _ (of_decide_eq_true (hb.2 k hk))
  have h2 := Nat.div_mul_le_self s.cfg.vramSize s.cfg.blockSize
  rw [Nat.add_mul, Nat.one_mul] at h1
  omega

end Sys2Proof.Machine
end

