-- ==== Sys2Proof/Machine/Assembler.lean ====
section
/-! DEFINITION. The textual form of commands and events (30_encoding.md R116). -/

namespace Sys2Proof.Machine

/-- The value of a digit in base 10 or 16. -/
def digitOf (base : Nat) (ch : Char) : Option Nat :=
  let n := ch.toNat
  let v := if 48 ≤ n ∧ n ≤ 57 then n - 48 else if 97 ≤ n ∧ n ≤ 102 then n - 87 else if 65 ≤ n ∧ n ≤ 70 then n - 55 else 16
  if v < base then some v else none

/-- A non-empty run of digits, most significant first, after the value `acc`. -/
def digitsFrom (base : Nat) : (acc : Nat) → List Char → Option Nat
  | acc, [] => some acc
  | acc, ch :: rest =>
    match digitOf base ch with
    | some d => digitsFrom base (acc * base + d) rest
    | none => none

/-- A number: decimal, or hexadecimal after `0x` (R116). -/
def numberOf (cs : List Char) : Option Nat :=
  match cs with
  | [] => none
  | ['0', 'x'] => none
  | '0' :: 'x' :: ds => digitsFrom 16 0 ds
  | ds => digitsFrom 10 0 ds

/-- A text cut at each comma. -/
def cutCommas : List Char → List (List Char)
  | [] => [[]]
  | ch :: rest =>
    if ch = ',' then [] :: cutCommas rest
    else match cutCommas rest with
      | [] => [[ch]]
      | first :: more => (ch :: first) :: more

/-- The text before the first `(` and the text between it and a closing `)` at the very end. -/
def cutCall : List Char → Option (List Char × List Char)
  | [] => none
  | '(' :: rest =>
    match rest.reverse with
    | ')' :: inner => some ([], inner.reverse)
    | _ => none
  | ch :: rest => (cutCall rest).map fun p => (ch :: p.1, p.2)

/-- The command a name stands for: the document's operation name, or the mnemonic of R92 as its
synonym (R116). -/
def opcodeNamed (name : String) : Option Opcode :=
  if name = "Init" ∨ name = "INIT" then some .init
  else if name = "SeekVRAM" ∨ name = "SEEKV" then some .seekv
  else if name = "WriteVRAM" ∨ name = "WRITEV" then some .writev
  else if name = "FillVRAM" ∨ name = "FILLV" then some .fillv
  else if name = "SeekCRAM" ∨ name = "SEEKC" then some .seekc
  else if name = "WriteCRAM" ∨ name = "WRITEC" then some .writec
  else if name = "FillCRAM" ∨ name = "FILLC" then some .fillc
  else if name = "SetPlaneALocation" ∨ name = "SETPA" then some .setpa
  else if name = "SetPlaneBLocation" ∨ name = "SETPB" then some .setpb
  else if name = "SetSpriteLocation" ∨ name = "SETSPR" then some .setspr
  else if name = "SetHScrollLocation" ∨ name = "SETHS" then some .seths
  else if name = "SetPlaneSize" ∨ name = "SETPSZ" then some .setpsz
  else if name = "SetBackgroundColour" ∨ name = "SETBG" then some .setbg
  else if name = "SetVScroll" ∨ name = "SETVS" then some .setvs
  else if name = "SetHIntPosition" ∨ name = "SETHINT" then some .sethint
  else if name = "Render" ∨ name = "RENDER" then some .render
  else none

/-- A number as a field of `w` bits; none when it does not fit. -/
def fieldOf (w n : Nat) : Option (BitVec w) := if n < 2 ^ w then some (BitVec.ofNat w n) else none

/-- A command from its opcode and the numbers of its call, in the order of R116. -/
def commandOf (o : Opcode) (args : List Nat) : Option Instr :=
  match o, args with
  | .init, [v, h] => if v < 2 ∧ h < 2 then some (.init (v == 1) (h == 1)) else none
  | .seekv, [x] => (fieldOf 24 x).map .seekv
  | .writev, bs => if bs.length < 2 ^ 24 then (bs.mapM (fieldOf 8)).map .writev else none
  | .fillv, [b, n] => match fieldOf 8 b, fieldOf 24 n with
    | some b, some n => some (.fillv b n)
    | _, _ => none
  | .seekc, [x] => (fieldOf 24 x).map .seekc
  | .writec, ws => if ws.length < 2 ^ 24 then (ws.mapM (fieldOf 16)).map .writec else none
  | .fillc, [w, n] => match fieldOf 16 w, fieldOf 24 n with
    | some w, some n => some (.fillc w n)
    | _, _ => none
  | .setpa, [x] => (fieldOf 24 x).map .setpa
  | .setpb, [x] => (fieldOf 24 x).map .setpb
  | .setspr, [x] => (fieldOf 24 x).map .setspr
  | .seths, [x] => (fieldOf 24 x).map .seths
  | .setpsz, [w, h] => match fieldOf 8 w, fieldOf 8 h with
    | some w, some h => some (.setpsz w h)
    | _, _ => none
  | .setbg, [x] => (fieldOf 8 x).map .setbg
  | .setvs, [a, b] => match fieldOf 16 a, fieldOf 16 b with
    | some a, some b => some (.setvs a b)
    | _, _ => none
  | .sethint, [x] => (fieldOf 16 x).map .sethint
  | .render, [] => some .render
  | _, _ => none

/-- A command line without its spaces. -/
def commandText (cs : List Char) : Option Instr :=
  match cutCall cs with
  | none => none
  | some (name, inner) =>
    match opcodeNamed (String.ofList name) with
    | none => none
    | some o =>
      match inner with
      | [] => commandOf o []
      | _ => ((cutCommas inner).mapM numberOf).bind (commandOf o)

/-- One line of a program (R116): a command, as the words the host sends, or an event. -/
def assembleLine (line : String) : Option (List Input) :=
  let cs := line.toList.filter fun ch => ch ≠ ' '
  if cs = "@GPU_DONE".toList then some [.gpuDone]
  else if cs = "@VBLANK".toList then some [.vblank]
  else (commandText cs).map fun i => (encode i).map .word

/-- A program: a flat list of lines (R116). -/
def assembleProgram (lines : List String) : Option (List Input) := (lines.mapM assembleLine).map List.flatten

end Sys2Proof.Machine
end

