-- ==== Sys2Proof/Tests/Slice0.lean ====
section
/-! SUPPORT. Tests, their results taken from spec/95_test_vectors.md, and a witness for every statement that has hypotheses. -/

namespace Sys2Proof.Tests

open Sys2Proof Sys2Proof.Machine

/-! ## Helpers -/

/-- A store of zero bytes. -/
def zeros : Memory := { base := .fill 0, cells := [] }

/-- The "booted defaults" of 95_test_vectors.md: INIT(0, 0), the map there, every memory zero. -/
def booted : State :=
  { State.powerOn {} .validated 0 [] with
    inited := true
    paBase := 0xC000
    pbBase := 0xE000
    sprBase := 0xF800
    hsBase := 0xFC00
    vram := zeros
    texRaw := zeros
    texALo := zeros
    texAHi := zeros
    texBLo := zeros
    cram := Vector.replicate cramEntries 0
    palStage := Vector.replicate cramEntries .transparent
    palOut := Vector.replicate cramEntries .transparent }

/-- `booted` before INIT. -/
def fresh : State := { booted with inited := false }

/-- `booted` with the strap Unchecked. -/
def loose : State := { booted with policy := .unchecked }

/-- `booted` with a cursor in VRAM and its class. -/
def at_ (vcur : Nat) (c : VClass) : State := { booted with vcur := BitVec.ofNat 17 vcur, vclass := c }

/-- `booted` with the CRAM cursor at `n`. -/
def cramAt (n : Nat) : State := { booted with ccur := BitVec.ofNat 7 n }

/-- A next state with the property `p`. -/
def nextWith (r : Result) (p : State → Bool) : Bool :=
  match r with
  | .next t => p t
  | .fault _ => false
  | .refused _ => false

/-- A rejection: the one event is this diagnostic. -/
def rejects (r : Result) (code : DiagCode) (info : Nat) : Bool :=
  nextWith r fun t => decide (t.out = [diagEvent code info])

/-! ## Well-formedness -/

theorem test_wf_writev_count : (Instr.writev (List.replicate (2 ^ 24) 0)).wellFormed = false := by
  simp only [Instr.wellFormed, List.length_replicate, Nat.lt_irrefl, decide_false]

theorem test_wf_writec_count : (Instr.writec (List.replicate (2 ^ 24) 0)).wellFormed = false := by
  simp only [Instr.wellFormed, List.length_replicate, Nat.lt_irrefl, decide_false]

/-! ## Decoding, part T2 -/

theorem test_decode_init : decode [0x01000001] = .command (.init true false) [] := by decide
theorem test_decode_init_both : decode [0x01000003] = .command (.init true true) [] := by decide
theorem test_decode_seekv : decode [0x1000C010] = .command (.seekv 0xC010) [] := by decide
theorem test_decode_writev : decode [0x11000003, 0x00563412] = .command (.writev [0x12, 0x34, 0x56]) [] := by decide
theorem test_decode_writev_two_words :
    decode [0x11000005, 0x04030201, 0x00000005] = .command (.writev [1, 2, 3, 4, 5]) [] := by decide
theorem test_decode_fillv : decode [0x120001F0, 0x000000FF] = .command (.fillv 0xFF 496) [] := by decide
theorem test_decode_fillv_ignored_bits : decode [0x12000001, 0xABCDEF55] = .command (.fillv 0x55 1) [] := by decide
theorem test_decode_seekc : decode [0x20000005] = .command (.seekc 5) [] := by decide
theorem test_decode_writec : decode [0x21000001, 0xFFFF0EEE] = .command (.writec [0x0EEE]) [] := by decide
theorem test_decode_fillc : decode [0x22000040, 0x00000000] = .command (.fillc 0 64) [] := by decide
theorem test_decode_setpa : decode [0x3000C123] = .command (.setpa 0xC123) [] := by decide
theorem test_decode_setpb : decode [0x3100E000] = .command (.setpb 0xE000) [] := by decide
theorem test_decode_setspr : decode [0x3200F800] = .command (.setspr 0xF800) [] := by decide
theorem test_decode_seths : decode [0x3300FC00] = .command (.seths 0xFC00) [] := by decide
theorem test_decode_setpsz : decode [0x34002040] = .command (.setpsz 64 32) [] := by decide
theorem test_decode_setbg : decode [0x35000005] = .command (.setbg 5) [] := by decide
theorem test_decode_setvs : decode [0x36000000, 0x01000008] = .command (.setvs 8 0x0100) [] := by decide
theorem test_decode_sethint : decode [0x370000DF] = .command (.sethint 0x00DF) [] := by decide
theorem test_decode_render : decode [0x40000000] = .command .render [] := by decide

theorem test_decode_illegal_words :
    ([0x00000000, 0xFF000000, 0x02000000, 0x13000000, 0x38000000, 0x41000000, 0x01000004, 0x34012040, 0x35000100,
      0x36000001, 0x37010000, 0x40000001].all fun w => decide (decode [w] = .illegal w [])) = true := by decide

theorem test_payload_words :
    ([0x11000009, 0x11000008, 0x21000003, 0x12FFFFFF, 0x11FFFFFF].map payloadWords) = [3, 2, 3, 1, 4194304] := by decide

theorem test_decode_table_word : decodeTableWord 64 0x0100000836000000 = some (.setvs 8 0x0100) := by decide

theorem test_fetch_word_runs : nextWith (step (State.reset.withFetchWord 32 0x01000001)) (fun t => t.inited && t.vintEn && !t.hintEn) = true := by
  decide

/-! ## VRAM, part T3 -/

theorem test_classify :
    ([0x0000, 0xBFFF, 0xC000, 0xCFFF, 0xD000, 0xE000, 0xEFFF, 0xF000, 0xF800, 0xFA7F, 0xFA80, 0xFC00, 0xFF7F, 0xFF80].map
      booted.classify) =
    [.none, .none, .planeA, .planeA, .none, .planeB, .planeB, .none, .other, .other, .none, .other, .other, .none] := by
  decide

theorem test_seekv : nextWith (exec (.seekv 0xFFFF) booted) (fun t => t.vcur == 0xFFFF && decide (t.vclass = .none)) = true := by
  decide
theorem test_seekv_past_end : rejects (exec (.seekv 0x10000) booted) .vramSeek 0x10000 = true := by decide

theorem test_writev_two_blocks : nextWith (exec (.writev [1, 2]) (at_ 0x07FF .none)) (fun t =>
    decide (t.dirtyBlk = [0, 1] ∧ t.vcur = 0x0801 ∧ t.vram.cells = [(0x07FF, 1), (0x0800, 2)] ∧ t.dirtyTileA = [])) = true := by
  decide
theorem test_writev_row_end : nextWith (exec (.writev [1, 2, 3, 4, 5, 6, 7, 8]) (at_ 0xC07C .planeA)) (fun t =>
    decide (t.dirtyTileA = [62, 63, 64, 65] ∧ t.vcur = 0xC084 ∧ t.dirtyBlk = [] ∧ t.dirtyTileB = [])) = true := by decide
theorem test_writev_past_end : rejects (exec (.writev [1, 2, 3]) (at_ 0xFFFE .none)) .vramWrite 0xFFFE = true := by decide
theorem test_writev_out_of_plane : nextWith (exec (.writev [1, 2, 3, 4, 5, 6]) (at_ 0xCFFE .planeA)) (fun t =>
    decide (t.dirtyTileA = [2047] ∧ t.vcur = 0xD004)) = true := by decide

theorem test_fillv : nextWith (exec (.fillv 0 3) { at_ 0xF80E .other with vram := { zeros with cells := [(0xF80F, 9), (0xF811, 7)] } })
    (fun t => decide (t.vram.cells = [(0xF811, 7)] ∧ t.vcur = 0xF811 ∧ t.dirtyBlk = [])) = true := by decide
theorem test_fillv_at_end : rejects (exec (.fillv 0 1) (at_ 0x10000 .none)) .vramFill 0x10000 = true := by decide

/-! ## CRAM, part T5 -/

theorem test_seekc : nextWith (exec (.seekc 63) booted) (fun t => t.ccur == 63) = true := by decide
theorem test_seekc_past_end : rejects (exec (.seekc 64) booted) .cramSeek 64 = true := by decide
theorem test_writec : nextWith (exec (.writec [0x0002, 0xFFFF]) (cramAt 15))
    (fun t => t.cram[15] == 0x0002 && t.cram[16] == 0xFFFF && t.cram[17] == 0 && t.ccur == 17) = true := by decide
theorem test_writec_past_end : rejects (exec (.writec [1, 2]) (cramAt 63)) .cramWrite 63 = true := by decide
theorem test_fillc : nextWith (exec (.fillc 0x0EEE 2) (cramAt 62))
    (fun t => t.cram[61] == 0 && t.cram[62] == 0x0EEE && t.cram[63] == 0x0EEE && t.ccur == 64) = true := by decide
theorem test_fillc_past_end : rejects (exec (.fillc 0 2) (cramAt 63)) .cramFill 63 = true := by decide

/-! ## Configuration, part T6 -/

theorem test_init : nextWith (exec (.init true false) fresh) (fun t => t.inited && t.vintEn && !t.hintEn) = true := by decide
theorem test_init_twice : rejects (exec (.init false true) booted) .alreadyInit 1 = true := by decide
theorem test_setpa : nextWith (exec (.setpa 0xFFFF) booted) (fun t => t.paBase == 0xE000 && t.pbBase == 0xE000) = true := by
  decide
theorem test_setpa_range : rejects (exec (.setpa 0x10000) booted) .regionRange 0x10000 = true := by decide
theorem test_setpb : nextWith (exec (.setpb 0x1FFF) booted) (fun t => t.pbBase == 0 && t.paBase == 0xC000) = true := by decide
theorem test_setspr : nextWith (exec (.setspr 0xFFFF) booted) (fun t => t.sprBase == 0xFC00) = true := by decide
theorem test_setspr_range : rejects (exec (.setspr 0x1FFFF) booted) .regionRange 0x1FC00 = true := by decide
theorem test_seths : nextWith (exec (.seths 0xFFFF) booted) (fun t => t.hsBase == 0xFC00) = true := by decide
theorem test_setpsz : nextWith (exec (.setpsz 128 32) booted) (fun t => t.pw == 128 && t.ph == 32) = true := by decide
theorem test_setpsz_illegal : rejects (exec (.setpsz 64 128) booted) .planeSize 0x8040 = true := by decide
theorem test_setbg : nextWith (exec (.setbg 63) booted) (fun t => t.bgcol == 63) = true := by decide
theorem test_setbg_range : rejects (exec (.setbg 64) booted) .bgColour 64 = true := by decide
theorem test_setvs : nextWith (exec (.setvs 0xFFFF 0x8000) booted) (fun t => t.vsa == 0xFFFF && t.vsb == 0x8000) = true := by
  decide
theorem test_sethint : nextWith (exec (.sethint 0xFFFF) booted) (fun t => t.hintLine == 0xFFFF) = true := by decide
theorem test_not_init : rejects (exec (.setbg 1) fresh) .notInit 0x35 = true := by decide

/-! ## The tile decoder, part T4 -/

/-- Pattern 2 of part T4 at 0x40. -/
def patternTwo : Memory :=
  zeros.write 0x40
    [0x1B, 0x40, 0x65, 0x8A, 0xAF, 0xD4, 0xF9, 0x1E, 0x43, 0x68, 0x8D, 0xB2, 0xD7, 0xFC, 0x21, 0x46,
     0x6B, 0x90, 0xB5, 0xDA, 0xFF, 0x24, 0x49, 0x6E, 0x93, 0xB8, 0xDD, 0x02, 0x27, 0x4C, 0x71, 0x96]

theorem test_decode_tile : (decodeTile patternTwo 2 false false 1).take 16 =
    [0x11, 0x1B, 0x14, 0x10, 0x16, 0x15, 0x18, 0x1A, 0x1A, 0x1F, 0x1D, 0x14, 0x1F, 0x19, 0x11, 0x1E] := by decide
theorem test_decode_tile_flipped : (decodeTile patternTwo 2 true true 1).take 16 =
    [0x16, 0x19, 0x11, 0x17, 0x1C, 0x14, 0x17, 0x12, 0x12, 0x10, 0x1D, 0x1D, 0x18, 0x1B, 0x13, 0x19] := by decide

theorem test_entry : tileRef 0x8801 = { pat := 1, hf := true, vf := false, pal := 0, pri := true } := by decide

/-! ## Runs, part T7, and sprites, part T8 -/

theorem test_sub_segments : subSegments 320 512 320 0 (startColumn 56 512) =
    [{ x := 0, w := 56, u := 456 }, { x := 56, w := 256, u := 0 }, { x := 312, w := 8, u := 256 }] := by decide
theorem test_sub_segments_negative_scroll : subSegments 320 1024 320 0 (startColumn 0xFF00 1024) =
    [{ x := 0, w := 256, u := 256 }, { x := 256, w := 64, u := 512 }] := by decide
theorem test_runs : runsFrom (fun y => if y < 100 then 0 else 0xFFF8) (fun y => (y + 200) % 256) 223 1 0 200 0 =
    [{ y0 := 0, y1 := 55, v0 := 200, hs := 0 }, { y0 := 56, y1 := 99, v0 := 0, hs := 0 },
     { y0 := 100, y1 := 223, v0 := 44, hs := 0xFFF8 }] := by decide

theorem test_sprite_ones : spriteActions 128 (spriteEntry 0xFFFF 0xFFFF 0xFFFF 0xFFFF) 0 =
    [.prim (.sprcol { x := 383, y := 895, ht := 4, tile := 11, pal := 3, hf := true, vf := true, slot := 0 }) 5,
     .prim (.sprcol { x := 391, y := 895, ht := 4, tile := 7, pal := 3, hf := true, vf := true, slot := 0 }) 5,
     .prim (.sprcol { x := 399, y := 895, ht := 4, tile := 3, pal := 3, hf := true, vf := true, slot := 0 }) 5,
     .prim (.sprcol { x := 407, y := 895, ht := 4, tile := 2047, pal := 3, hf := true, vf := true, slot := 0 }) 5] := by
  decide

/-- `booted` whose sprite entry 0 links to entry 1, and entry 1 to itself (part T8). -/
def looped : State := { booted with vram := zeros.write 0xF800 [0, 0x80, 0, 1, 0, 0, 0, 0x80, 0, 0x80, 0, 1, 0, 0, 0, 0x88] }

theorem test_sprite_loop : looped.spriteWalk 2 0 =
    [.prim (.sprcol { x := 0, y := 0, ht := 1, tile := 0, pal := 0, hf := false, vf := false, slot := 0 }) 3,
     .prim (.sprcol { x := 8, y := 0, ht := 1, tile := 0, pal := 0, hf := false, vf := false, slot := 1 }) 3,
     .diag .spriteChain 1] := by decide

/-! ## Colours, part T9 -/

theorem test_record : recordOf {} 18 0x0248 = .opaqueRgb 18 9 4 := by decide
theorem test_record_ignored_bits : packedRecord (recordOf {} 9 0xF111) = 0x8000 := by decide

/-! ## RENDER, part T10 -/

/-- A frame one scanline high, with one sprite slot: part T10's eight primitives on a small machine. -/
def small (cap : Nat) : State := { booted with cfg := { screenHeight := 1, spriteSlots := 1, primCapacity := cap } }

theorem test_render : nextWith (exec .render (small 8)) (fun t =>
    decide (t.phase = .flushed ∧ t.out = [] ∧ t.slot1.count = 8 ∧ t.slot1.bins.toList.map List.length = [1, 2, 2, 1, 2, 0])) = true := by
  decide
theorem test_render_overflow : nextWith (exec .render (small 2)) (fun t =>
    decide (t.out = [2, 4, 1, 1, 3, 0].map fun b => diagEvent .primOverflow b)) = true := by decide

theorem test_render_not_init : rejects (exec .render fresh) .notInit 0x40 = true := by decide

theorem test_unchecked_refuses : exec (.seekv 0x10000) loose = .refused (.uncheckedViolation .vramSeek) := by rfl

theorem test_present : nextWith (step { booted with phase := .presented, vintEn := true, inputs := [.vblank] }) (fun t =>
    decide (t.out = [.install .one .fb1 .fb0, .submitOt .one [], .flip .one, .vint] ∧ t.front = .one ∧ t.gpuBusy = true)) = true := by
  decide

theorem test_flush : nextWith (step { small 8 with phase := .flushed, dirtyTileA := [0, 3000] }) (fun t =>
    decide (t.out.length = 2 ∧ t.dirtyTileA = [] ∧ t.phase = .presented)) = true := by decide

/-! ## The textual form, R116 -/

theorem test_assemble : assembleLine "SetPlaneSize(64, 32)" = some [.word 0x34002040] := by decide
theorem test_assemble_event : assembleLine "@VBLANK" = some [.vblank] := by decide

/-! ## Witnesses: states and operands that meet the hypotheses of each statement -/

/-- The booted machine is well formed. -/
theorem witness_booted_wf : booted.Wf where
  cfgLegal := by decide
  vramOk := by decide
  texRawOk := by decide
  texALoOk := by decide
  texAHiOk := by decide
  texBLoOk := by decide
  vcurRange := by decide
  ccurRange := by decide
  paAligned := by decide
  pbAligned := by decide
  sprAligned := by decide
  hsAligned := by decide
  regions := by decide
  blkOk := by decide
  tileAOk := by decide
  tileBOk := by decide
  palStageOk := by decide
  palOutOk := by decide
  slot0Ok := by decide
  slot1Ok := by decide
  dispFront := by decide
  drawFront := by decide
  rxOk := fun _ h => by cases h
  renderInited := fun h => absurd rfl h
  presentedIdle := fun h => by cases h

/-- The booted machine waiting for the GPU, with flags set and `i` presented. -/
def waiting (busy : Bool) (i : List Input) : State :=
  { booted with phase := .flushed, gpuBusy := busy, dirtyBlk := [0, 31], dirtyTileA := [0, 4095], inputs := i }

theorem witness_waiting_wf : (waiting false []).Wf where
  cfgLegal := by decide
  vramOk := by decide
  texRawOk := by decide
  texALoOk := by decide
  texAHiOk := by decide
  texBLoOk := by decide
  vcurRange := by decide
  ccurRange := by decide
  paAligned := by decide
  pbAligned := by decide
  sprAligned := by decide
  hsAligned := by decide
  regions := by decide
  blkOk := by decide
  tileAOk := by decide
  tileBOk := by decide
  palStageOk := by decide
  palOutOk := by decide
  slot0Ok := by decide
  slot1Ok := by decide
  dispFront := by decide
  drawFront := by decide
  rxOk := fun _ h => by cases h
  renderInited := fun _ => ⟨rfl, rfl⟩
  presentedIdle := fun h => by cases h

/-- The booted machine with inputs presented. -/
def offered (i : List Input) : State := { booted with inputs := i }

theorem witness_DecodeOfEncodeIsTheCommand :
    (Instr.writev [0x12, 0x34, 0x56]).wellFormed = true ∧
    (Instr.writev (List.replicate (2 ^ 24 - 1) 0)).wellFormed = true := by
  refine ⟨by decide, ?_⟩
  simp only [Instr.wellFormed, List.length_replicate, decide_eq_true_eq]
  omega

theorem witness_IllegalWordIsConsumedAlone :
    (offered [.word 0x40000001]).headerNext 0x40000001 [] ∧
    ∀ o, (0x40000001 : Word) &&& tableMask o ≠ tableMatch o :=
  ⟨⟨rfl, rfl, rfl⟩, fun o => by cases o <;> decide⟩

theorem witness_IncompleteCommandHasNoEffect :
    ((offered [.word 0x36000000]).headerNext 0x36000000 [] ∧ 0 < payloadWords 0x36000000) ∧
    ∃ p, p = Partial.mk 0x11000005 [] 2 ∧ ({ offered [.word 7] with rx := some p } : State).phase = .building ∧ 1 < p.left :=
  ⟨⟨⟨rfl, rfl, rfl⟩, by decide⟩, _, rfl, rfl, by decide⟩

theorem witness_StepRunsTheDecodedCommand :
    decode (wordsWith 0x40000000 none) = .command .render [] ∧
    (Partial.mk 0x11000005 [0x04030201] 1).ok = true ∧
    decode (wordsWith 0x00000005 (some (Partial.mk 0x11000005 [0x04030201] 1))) = .command (.writev [1, 2, 3, 4, 5]) [] := by
  decide

theorem witness_CommandWordsRunTheCommand :
    (Instr.setvs 8 0x0100).wellFormed = true ∧
    (offered [.word 0x36000000, .word 0x01000008, .vblank]).inputs =
      (encode (.setvs 8 0x0100)).map Input.word ++ [.vblank] := by decide

theorem witness_PortStallsDuringRender :
    (waiting true [.word 0x40000000, .gpuDone]).phase ≠ .building ∧ (waiting true [.word 0x40000000, .gpuDone]).noReset ∧
    ∃ t, step (waiting true [.word 0x40000000, .gpuDone]) = .next t :=
  ⟨by decide, fun strap h => by simp [waiting] at h, _, rfl⟩

theorem witness_InputEventsHaveTheirEffect :
    ((waiting true [.word 1, .gpuDone]).nextInput = some (.gpuDone, [.word 1]) ∧
      (waiting true [.word 1, .gpuDone]).flushEnabled = false) ∧
    ((offered [.vblank]).nextInput = some (.vblank, []) ∧ (offered [.vblank]).phase ≠ .presented) ∧
    ({ offered [.vblank] with phase := .presented } : State).nextInput = some (.vblank, []) ∧
    ((waiting true [.gpuDoneAndVblank]).nextInput = some (.gpuDoneAndVblank, []) ∧
      (waiting true [.gpuDoneAndVblank]).phase = .flushed ∧ (waiting true [.gpuDoneAndVblank]).gpuBusy = true) ∧
    ({ offered [.gpuDoneAndVblank] with phase := .presented } : State).nextInput = some (.gpuDoneAndVblank, []) ∧
    ((offered [.gpuDoneAndVblank]).nextInput = some (.gpuDoneAndVblank, []) ∧
      (offered [.gpuDoneAndVblank]).phase = .building) := by decide

theorem witness_WaitingRetainsAllState :
    (waiting true [.word 0x40000000]).phase = .flushed ∧ (waiting true [.word 0x40000000]).gpuBusy = true ∧
    ({ offered [.word 0] with phase := .presented } : State).phase = .presented ∧
    (∀ i ∈ [Input.word 0x40000000], i.isWord = true) ∧
    (waiting true [.word 0x40000000, .vblank]).nextInput = some (.vblank, [.word 0x40000000]) ∧
    ({ offered [.word 0, .gpuDone] with phase := .presented } : State).nextInput = some (.gpuDone, [.word 0]) := by decide

theorem witness_ResetInputResets :
    (waiting false [.word 1, .reset .unchecked]).nextInput = some (.reset .unchecked, [.word 1]) ∧
    (offered [.reset .validated, .word 1]).nextInput = some (.reset .validated, [.word 1]) := by decide

theorem witness_CommandsBeforeInitAreRejected :
    (Instr.render).opcode ≠ .init ∧ fresh.inited = false ∧ fresh.policy = .validated := by decide

theorem witness_UncheckedRefusesExactlyTheViolations :
    (nextWith (exec (.seekv 0x10000) { loose with policy := .validated }) fun t => decide (t.diagStream ≠ loose.diagStream)) = true ∧
    (nextWith (exec (.seekv 0xFFFF) { loose with policy := .validated }) fun t => decide (t.diagStream = loose.diagStream)) = true ∧
    ({ loose with inputs := [.word 0] } : State).headerNext 0 [] ∧ opcodeOf 0 = none :=
  ⟨by decide, by decide, ⟨rfl, rfl, rfl⟩, by decide⟩

theorem witness_RejectedCommandsChangeOnlyTheTrace :
    (Instr.setbg 64).opcode ≠ .render ∧ nextWith (exec (.setbg 64) booted) (fun t => decide (t.out ≠ booted.out)) = true := by
  decide

theorem witness_InitIsAcceptedOnce : fresh.inited = false ∧ booted.inited = true ∧ booted.policy = .validated := by decide

theorem witness_AlignMaskRoundsDown : powerOfTwo 0x2000 = true ∧ powerOfTwo 1 = true := by decide

/-- `booted` with planes of 128 x 32 tiles: nametables of 8192 bytes. -/
def wide : State := { booted with pw := 128 }

/-- Each side of each range check, the plane check at its boundary. -/
theorem witness_LocationSettersMaskThenCheck :
    wide.inited = true ∧ wide.policy = .validated ∧
    (alignMask wide.cfg.planeAlign 0xFFFF).toNat + 2 * wide.pw.toNat * wide.ph.toNat = wide.cfg.vramSize ∧
    wide.cfg.vramSize < (alignMask wide.cfg.planeAlign 0x10000).toNat + 2 * wide.pw.toNat * wide.ph.toNat ∧
    (alignMask wide.cfg.spriteAlign 0xFFFF).toNat + 8 * wide.cfg.spriteSlots ≤ wide.cfg.vramSize ∧
    wide.cfg.vramSize < (alignMask wide.cfg.spriteAlign 0x10000).toNat + 8 * wide.cfg.spriteSlots ∧
    (alignMask wide.cfg.hscrollAlign 0xFFFF).toNat + 4 * wide.cfg.screenHeight ≤ wide.cfg.vramSize ∧
    wide.cfg.vramSize < (alignMask wide.cfg.hscrollAlign 0x10000).toNat + 4 * wide.cfg.screenHeight := by decide

/-- A size that fits, one that is illegal, and a legal one whose planes would not fit. -/
theorem witness_SetpszChecksSizeThenRange :
    ((128 : BitVec 8).toNat * (32 : BitVec 8).toNat ≤ 4096 ∧ booted.pbBase.toNat + 2 * 128 * 32 = booted.cfg.vramSize) ∧
    ¬(128 : BitVec 8).toNat * (64 : BitVec 8).toNat ≤ 4096 ∧
    ¬({ booted with pbBase := 0xF000 } : State).pbBase.toNat + 2 * 128 * 32 ≤ booted.cfg.vramSize := by decide

theorem witness_SetbgSetvsSethintStoreTheirOperands :
    fresh.inited = false ∧ fresh.policy = .validated ∧ booted.inited = true ∧ booted.policy = .validated ∧ (63 : BitVec 8).toNat < booted.cfg.cramWords ∧ booted.cfg.cramWords ≤ (64 : BitVec 8).toNat := by decide

theorem witness_OnlyTheNamedCommandsWrite : nextWith (exec (.setbg 1) booted) (fun _ => true) = true := by decide

/-- One address for each class, at the boundaries of part T3. -/
theorem witness_ClassifyTakesTheFirstRegion :
    (booted.paBase.toNat ≤ 0xCFFF ∧ 0xCFFF < booted.paBase.toNat + 2 * 64 * 32) ∧
    (booted.pbBase.toNat ≤ 0xE000 ∧ 0xE000 < booted.pbBase.toNat + 2 * 64 * 32) ∧
    (booted.sprBase.toNat ≤ 0xFA7F ∧ 0xFA7F < booted.sprBase.toNat + 8 * 80) ∧
    (booted.hsBase.toNat ≤ 0xFF7F ∧ 0xFF7F < booted.hsBase.toNat + 4 * 224) ∧
    ¬0xFF80 < booted.hsBase.toNat + 4 * 224 := by decide

theorem witness_SeekvMovesAndClassifies :
    booted.inited = true ∧ booted.policy = .validated ∧ (0xFFFF : BitVec 24).toNat < booted.cfg.vramSize ∧
    booted.cfg.vramSize ≤ (0x10000 : BitVec 24).toNat := by decide

theorem witness_WritevStoresItsBytes :
    fresh.inited = false ∧ fresh.policy = .validated ∧ (at_ 0xFFFE .none).inited = true ∧ (at_ 0xFFFE .none).policy = .validated ∧
    (at_ 0xFFFE .none).vcur.toNat + [(1 : Byte), 2].length = (at_ 0xFFFE .none).cfg.vramSize ∧
    (at_ 0xFFFE .none).cfg.vramSize < (at_ 0xFFFE .none).vcur.toNat + [(1 : Byte), 2, 3].length := by decide

theorem witness_FillvIsWritevOfCopies :
    fresh.inited = false ∧ fresh.policy = .validated ∧ (at_ 0xFFFF .none).inited = true ∧ (at_ 0xFFFF .none).policy = .validated ∧
    (at_ 0xFFFF .none).vcur.toNat + (1 : BitVec 24).toNat = (at_ 0xFFFF .none).cfg.vramSize ∧
    (at_ 0xFFFF .none).cfg.vramSize < (at_ 0xFFFF .none).vcur.toNat + (2 : BitVec 24).toNat := by decide

theorem witness_NoneClassMarksExactlyTheWrittenBlocks : 0x07FF < 0x0801 ∧ booted.vclass = .none := by decide

theorem witness_PlaneClassMarksExactlyTheWrittenTiles :
    0xCFFE < 0xD004 ∧ (at_ 0xCFFE .planeA).vclass = classOf .a ∧ (at_ 0xE002 .planeB).vclass = classOf .b := by decide

theorem witness_OtherAndEmptyWritesMarkNothing :
    (at_ 0xF800 .other).inited = true ∧ (at_ 0xF800 .other).vclass = .other ∧
    (at_ 0xF800 .other).vcur.toNat + [(1 : Byte)].length ≤ (at_ 0xF800 .other).cfg.vramSize ∧
    (at_ 0x10000 .none).vcur.toNat + ([] : List Byte).length = (at_ 0xF800 .other).cfg.vramSize := by decide

theorem witness_DebugReadReturnsTheWrittenBytes :
    (at_ 0x1234 .none).inited = true ∧ (at_ 0x1234 .none).phase = .building ∧
    (at_ 0x1234 .none).vcur.toNat + [(0xDE : Byte), 0xAD, 0xBE, 0xEF].length ≤ (at_ 0x1234 .none).cfg.vramSize ∧
    (booted.phase = .building ∧ 0xFFFF + 1 ≤ booted.cfg.vramSize ∧ booted.cfg.vramSize < 0xFFFF + 2) ∧
    (waiting false []).phase ≠ .building := by decide

theorem witness_SeekcMovesTheCursor :
    booted.inited = true ∧ booted.policy = .validated ∧ (63 : BitVec 24).toNat < booted.cfg.cramWords ∧ booted.cfg.cramWords ≤ (64 : BitVec 24).toNat := by decide

theorem witness_WritecStoresItsWords :
    fresh.inited = false ∧ fresh.policy = .validated ∧ (cramAt 63).inited = true ∧ (cramAt 63).policy = .validated ∧ (cramAt 63).ccur.toNat + [(1 : Half)].length = (cramAt 63).cfg.cramWords ∧
    (cramAt 63).cfg.cramWords < (cramAt 63).ccur.toNat + [(1 : Half), 2].length := by decide

theorem witness_FillcIsWritecOfCopies :
    fresh.inited = false ∧ fresh.policy = .validated ∧ (cramAt 0).inited = true ∧ (cramAt 0).policy = .validated ∧ (cramAt 0).ccur.toNat + (64 : BitVec 24).toNat = (cramAt 0).cfg.cramWords ∧
    (cramAt 0).cfg.cramWords < (cramAt 0).ccur.toNat + (65 : BitVec 24).toNat := by decide

theorem witness_FlippedDecodesAreReflections : 0 < 8 ∧ 7 < 8 := by decide

theorem witness_DecodeWalksTheSourceBytes : (0 < 8 ∧ 0 < 4) ∧ (7 < 8 ∧ 3 < 4) := by decide

theorem witness_UploadTileWritesItsCell : booted.Wf ∧ 2047 < booted.pw.toNat * booted.ph.toNat :=
  ⟨witness_booted_wf, by decide⟩

theorem witness_RunsCoverEveryScanline : 1 ≤ booted.cfg.screenHeight ∧ 1 ≤ (small 8).cfg.screenHeight := by decide

theorem witness_RunCount : 1 ≤ booted.cfg.screenHeight ∧ 1 ≤ (small 8).cfg.screenHeight := by decide

theorem witness_FlushShowsTheScrolledColumn : 256 ∣ 512 ∧ 0 < 512 ∧ 319 < 320 := by decide

theorem witness_SegmentsStayInOnePage : booted.Wf ∧ ∃ g b, BuildAction.prim (.seg g) b ∈ booted.planeActions := by
  refine ⟨witness_booted_wf, ?_⟩
  have h : (booted.planeActions.any fun a => match a with
      | .prim (.seg _) _ => true
      | .prim (.sprcol _) _ => false
      | .prim (.fill _) _ => false
      | .diag _ _ => false) = true := by decide +kernel
  obtain ⟨a, ha, hp⟩ := List.any_eq_true.mp h
  match a, hp with
  | .prim (.seg g) b, _ => exact ⟨g, b, ha⟩

/-- `looped` with a table of two entries: the walk stops after two visits. -/
def loopedTwo : State := { looped with cfg := { spriteSlots := 2 } }

/-- `booted` whose sprite entry 0 links to entry 1, and entry 1 to entry 100 (part T8). -/
def astray : State := { booted with vram := zeros.write 0xF800 [0, 0x80, 0, 1, 0, 0, 0, 0x80, 0, 0x80, 0, 0x64, 0, 0, 0, 0x88] }

/-- A chain that ends on link 0, a loop, and a link outside the table. -/
theorem witness_SpriteWalkFollowsTheChain :
    (booted.linked [0] ∧ [0].length ≤ booted.cfg.spriteSlots ∧ (booted.readSprite 0).link.toNat = 0) ∧
    (loopedTwo.linked [0, 1] ∧ [0, 1].length = loopedTwo.cfg.spriteSlots ∧ (loopedTwo.readSprite 1).link.toNat ≠ 0) ∧
    (astray.linked [0, 1] ∧ [0, 1].length < astray.cfg.spriteSlots ∧ (astray.readSprite 1).link.toNat ≠ 0 ∧
      astray.cfg.spriteSlots ≤ (astray.readSprite 1).link.toNat) := by
  refine ⟨⟨trivial, by decide, by decide⟩, ⟨⟨by decide, by decide, by decide, trivial⟩, by decide, by decide⟩,
    ⟨⟨by decide, by decide, by decide, trivial⟩, by decide, by decide, by decide⟩⟩

theorem witness_SpriteColumnsLeftToRight : 0 ≤ (booted.readSprite 0).wf.toNat := by decide

theorem witness_PaletteConversion : (({} : Config).legal = true ∧ (6 : BitVec 3) < 7) ∧ 31 < 32 ∧
    16 < cramEntries ∧ 16 % 16 = 0 ∧ 63 < cramEntries ∧ 63 % 16 ≠ 0 := by decide

theorem witness_RenderBuildsTheBackSlot : booted.inited = true ∧ booted.policy = .validated ∧ booted.regionsFit = true := by
  decide

/-- A build that fits, and one that drops primitives, the fill among them. -/
theorem witness_BinsHoldWhatWasEmitted :
    (primsOf (small 8).buildActions).length ≤ (small 8).cfg.primCapacity ∧
    (small 2).cfg.primCapacity < (primsOf (small 2).buildActions).length := by decide

theorem witness_BackgroundFillIsDrawnFirst : diagEvent .primOverflow 0 ∉ (small 8).build.diags := by decide

theorem witness_DefaultFrameNeverOverflows : booted.Wf ∧ booted.cfg = {} := ⟨witness_booted_wf, rfl⟩

theorem witness_FlushUploadsExactlyTheFlagged :
    (waiting false []).Wf ∧ (waiting false []).flushEnabled = true ∧
    ∀ i rest, (waiting false []).nextInput = some (i, rest) → i.isReset = false :=
  ⟨witness_waiting_wf, by decide, fun _ _ h => by cases h⟩

theorem witness_FlushCopiesTheFlaggedBlocks :
    (waiting false []).Wf ∧ (waiting false []).flushEnabled = true ∧
    (∀ i rest, (waiting false []).nextInput = some (i, rest) → i.isReset = false) ∧
    (∃ t, step (waiting false []) = .next t) ∧ 0xFFFF < (waiting false []).cfg.vramSize ∧ 1023 < texSide :=
  ⟨witness_waiting_wf, by decide, fun _ _ h => (by cases h), ⟨_, rfl⟩, by decide, by decide⟩

theorem witness_PresentInstallsSubmitsAndFlips :
    ({ offered [.vblank] with phase := .presented } : State).phase = .presented ∧
    ({ offered [.vblank] with phase := .presented } : State).nextInput = some (.vblank, []) ∧
    ({ offered [.vblank] with phase := .presented, front := .one } : State).phase = .presented ∧
    ({ offered [.vblank] with phase := .presented, front := .one } : State).nextInput = some (.vblank, []) := by decide

/-- An odd alignment is no legal one (R63). -/
theorem test_alignments_even :
    ({ planeAlign := 1 } : Config).legal = false ∧ ({ spriteAlign := 1 } : Config).legal = false ∧
    ({ hscrollAlign := 1 } : Config).legal = false ∧ ({ hscrollAlign := 2 } : Config).legal = true := by decide

/-- Inputs are no part of the invariant. -/
theorem offered_wf (i : List Input) : (offered i).Wf := { witness_booted_wf with }

theorem witness_RenderCompletesWithOneVblank :
    (offered [.word 0x40000000, .vblank]).Wf ∧ (offered [.word 0x40000000, .vblank]).inited = true ∧
    (offered [.word 0x40000000, .vblank]).policy = .validated ∧ (offered [.word 0x40000000, .vblank]).gpuBusy = false ∧
    (offered [.word 0x40000000, .vblank]).headerNext 0x40000000 [.vblank] :=
  ⟨offered_wf _, rfl, rfl, rfl, rfl, rfl, rfl⟩

theorem witness_ResetIsWellFormed : ({} : Config).legal = true := by decide

theorem witness_StepKeepsWellFormed : (offered [.word 0x35000005]).Wf ∧ ∃ t, step (offered [.word 0x35000005]) = .next t :=
  ⟨offered_wf _, _, rfl⟩

theorem witness_WellFormedMachineGoesOn : booted.Wf ∧ booted.policy = .validated := ⟨witness_booted_wf, rfl⟩

theorem witness_StrapAndInitedAreLasting : (offered [.word 0x35000005]).noReset ∧ (offered [.word 0x35000005]).inited = true ∧
    ∃ t, step (offered [.word 0x35000005]) = .next t :=
  ⟨fun strap h => by simp [offered] at h, rfl, _, rfl⟩

theorem witness_OutIsNeverRead : (offered [.word 0x35000040, .vblank]).noReset ∧
    ∃ t, step (offered [.word 0x35000040, .vblank]) = .next t :=
  ⟨fun strap h => by simp [offered] at h, _, rfl⟩

theorem witness_HintIsReadByNothing : fresh.inited = false ∧ booted.inited = true := by decide

theorem witness_OneVintPerFrame : ({ offered [.vblank] with phase := .presented, vintEn := true } : State).noReset ∧
    ∃ t, step { offered [.vblank] with phase := .presented, vintEn := true } = .next t :=
  ⟨fun strap h => by simp [offered] at h, _, rfl⟩

theorem witness_NoUploadWhileTheGpuIsBusy : (waiting true []).noReset ∧ (waiting true []).gpuBusy = true ∧
    ∃ t, step (waiting true []) = .next t :=
  ⟨fun strap h => by simp [waiting] at h, rfl, _, rfl⟩

end Sys2Proof.Tests
end

section
/-! SUPPORT. The colour word: three 3-bit channels at bits 1, 5 and 9 (30_encoding.md R112, R113). -/

namespace Sys2Proof.Machine

/-! ## A channel in a colour word -/

/-- A channel placed at bit `k` is read back from bit `k`. -/
theorem extract_placed_same (k : Nat) (hk : k ≤ 13) (c : BitVec 3) :
    (c.setWidth 16 <<< k).extractLsb' k 3 = c := by
  ext i hi
  have hin : k + i < 16 := by omega
  simp [hi, hin]

/-- A channel placed at bit `j` leaves a field it does not overlap zero. -/
theorem extract_placed_disjoint (j k : Nat) (hjk : j + 3 ≤ k ∨ k + 3 ≤ j) (c : BitVec 3) :
    (c.setWidth 16 <<< j).extractLsb' k 3 = 0 := by
  ext i hi
  rcases hjk with above | below
  · have hout : 3 ≤ k + i - j := by omega
    simp [BitVec.getLsbD_of_ge c _ hout]
  · have hlow : k + i < j := by omega
    simp [hlow]

/-- The bits of the channel at bit `k`. -/
def channelMask (k : Nat) : Half := (BitVec.allOnes 3).setWidth 16 <<< k

/-- A channel placed where it was read from is the word under that channel's mask. -/
theorem placed_extract_eq_and_channelMask (k : Nat) (word : Half) :
    (word.extractLsb' k 3).setWidth 16 <<< k = word &&& channelMask k := by
  ext i hi
  by_cases hik : i < k
  · simp [channelMask, hik]
  · have hback : k + (i - k) = i := by omega
    simp [channelMask, hik, hback, hi, Bool.and_comm, -BitVec.reduceAllOnes]

/-- R113: the ignored bits are those outside `0x0EEE`. -/
theorem channelMasks_eq : channelMask 1 ||| channelMask 5 ||| channelMask 9 = 0x0EEE := by decide

/-! ## Packing and unpacking -/

@[simp] theorem redOf_packColour (r g b : BitVec 3) : redOf (packColour r g b) = r := by
  simp [redOf, packColour, BitVec.extractLsb'_or, extract_placed_same, extract_placed_disjoint]

@[simp] theorem greenOf_packColour (r g b : BitVec 3) : greenOf (packColour r g b) = g := by
  simp [greenOf, packColour, BitVec.extractLsb'_or, extract_placed_same, extract_placed_disjoint]

@[simp] theorem blueOf_packColour (r g b : BitVec 3) : blueOf (packColour r g b) = b := by
  simp [blueOf, packColour, BitVec.extractLsb'_or, extract_placed_same, extract_placed_disjoint]

theorem unpackColour_packColour (r g b : BitVec 3) : unpackColour (packColour r g b) = (r, g, b) := by
  simp [unpackColour]

theorem packColour_channels (word : Half) :
    packColour (redOf word) (greenOf word) (blueOf word) = word &&& 0x0EEE :=
  calc packColour (redOf word) (greenOf word) (blueOf word)
      = word &&& channelMask 1 ||| word &&& channelMask 5 ||| word &&& channelMask 9 := by
        simp only [packColour, redOf, greenOf, blueOf, placed_extract_eq_and_channelMask]
    _ = word &&& (channelMask 1 ||| channelMask 5 ||| channelMask 9) := by
        simp only [BitVec.and_or_distrib_left]
    _ = word &&& 0x0EEE := by rw [channelMasks_eq]

/-- Settles O33: each channel's field is read back where it was placed, and the three fields' masks
make 0x0EEE. -/
theorem colourPackingRoundTrip : Obligations.ColourPackingRoundTrip :=
  ⟨fun _ _ _ => rfl, fun _ => rfl, unpackColour_packColour, packColour_channels⟩

end Sys2Proof.Machine
end

section
/-! SUPPORT. VRAM access: the store that WRITEV and FILLV share, the class of an address, the blocks a
write marks (40_vram_access.md). -/

namespace Sys2Proof.Machine

/-! ## The store WRITEV and FILLV share -/

/-- The common form of WRITEV and FILLV (R140, R141): check INIT, check the range, store `bytes`. The
opcode and the diagnostic code are all that tells the two commands apart. -/
def storeVram (o : Opcode) (code : DiagCode) (bytes : List Byte) (s : State) : Result :=
  requireInit o s fun s =>
    if s.cfg.vramSize < s.vcur.toNat + bytes.length then reject code s.vcur.toNat s
    else .next (s.writeVram bytes)

theorem exec_writev (bytes : List Byte) (s : State) :
    exec (.writev bytes) s = storeVram .writev .vramWrite bytes s := rfl

theorem exec_fillv (byte : Byte) (len : BitVec 24) (s : State) :
    exec (.fillv byte len) s = storeVram .fillv .vramFill (List.replicate len.toNat byte) s := by
  simp only [exec, execFillv, storeVram, List.length_replicate]

section
variable {o : Opcode} {code : DiagCode} {bytes : List Byte} {s : State}

theorem storeVram_before_init (hinit : s.inited = false) (hpolicy : s.policy = .validated) :
    storeVram o code bytes s = .next (s.raise .notInit o.code.toNat) :=
  (requireInit_not hinit).trans (reject_validated hpolicy)

theorem storeVram_inside (hinit : s.inited = true) (hfits : s.vcur.toNat + bytes.length ≤ s.cfg.vramSize) :
    storeVram o code bytes s = .next (s.writeVram bytes) :=
  (requireInit_inited hinit).trans (if_neg (Nat.not_lt.mpr hfits))

theorem storeVram_past_end (hinit : s.inited = true) (hpast : s.cfg.vramSize < s.vcur.toNat + bytes.length)
    (hpolicy : s.policy = .validated) :
    storeVram o code bytes s = .next (s.raise code s.vcur.toNat) :=
  (requireInit_inited hinit).trans ((if_pos hpast).trans (reject_validated hpolicy))

end

/-! ## What an accepted store leaves -/

theorem State.writeVram_vram (bytes : List Byte) (s : State) :
    (s.writeVram bytes).vram = s.vram.write s.vcur.toNat bytes :=
  congrArg State.vram (s.writeVram_shape bytes)

/-- `State.writeVram_shape` with the new memory named through the state it belongs to. -/
theorem State.writeVram_frame (bytes : List Byte) (s : State) :
    s.writeVram bytes = { s with
      vram := (s.writeVram bytes).vram
      vcur := BitVec.ofNat 17 (s.vcur.toNat + bytes.length)
      dirtyBlk := (s.markDirty s.vcur.toNat (s.vcur.toNat + bytes.length)).dirtyBlk
      dirtyTileA := (s.markDirty s.vcur.toNat (s.vcur.toNat + bytes.length)).dirtyTileA
      dirtyTileB := (s.markDirty s.vcur.toNat (s.vcur.toNat + bytes.length)).dirtyTileB } := by
  rw [State.writeVram_vram]
  exact s.writeVram_shape bytes

theorem State.writeVram_read_inside (bytes : List Byte) (s : State) (i : Nat) (h : i < bytes.length) :
    (s.writeVram bytes).vram.read (s.vcur.toNat + i) = bytes[i] := by
  rw [State.writeVram_vram, Memory.read_write_inside]

theorem State.writeVram_read_outside (bytes : List Byte) (s : State) (a : Nat)
    (h : a < s.vcur.toNat ∨ s.vcur.toNat + bytes.length ≤ a) :
    (s.writeVram bytes).vram.read a = s.vram.read a := by
  rw [State.writeVram_vram, Memory.read_write_outside _ _ _ _ h]

/-- Settles O24: the three answers of the shared store, the accepted one read through its frame. -/
theorem writevStoresItsBytes : Obligations.WritevStoresItsBytes := by
  intro bytes s
  refine ⟨storeVram_before_init, fun hinit hfits => ?_, storeVram_past_end⟩
  exact ⟨s.writeVram bytes, storeVram_inside hinit hfits, s.writeVram_read_inside bytes,
    s.writeVram_read_outside bytes, s.writeVram_frame bytes⟩

/-- Settles O25: both commands are the shared store of the same bytes. -/
theorem fillvIsWritevOfCopies : Obligations.FillvIsWritevOfCopies := by
  intro byte len s
  have length_copies : (List.replicate len.toNat byte).length = len.toNat := List.length_replicate
  rw [exec_fillv, exec_writev]
  generalize List.replicate len.toNat byte = copies at length_copies ⊢
  rw [← length_copies]
  exact ⟨storeVram_before_init,
    fun hinit hfits => ⟨_, storeVram_inside hinit hfits, storeVram_inside hinit hfits⟩, storeVram_past_end⟩

/-! ## The class of an address -/

/-- Settles O22: each test of the chain is membership in its region, and the cases follow its order. -/
theorem classifyTakesTheFirstRegion : Obligations.ClassifyTakesTheFirstRegion := by
  intro s o n inA inB inTables
  have holdsA : (s.planeRegion .a).holds o = true ↔ inA := Region.holds_iff _ o
  have holdsB : (s.planeRegion .b).holds o = true ↔ inB := Region.holds_iff _ o
  have holdsTables : s.spriteRegion.holds o = true ∨ s.scrollRegion.holds o = true ↔ inTables :=
    or_congr (Region.holds_iff _ o) (Region.holds_iff _ o)
  rw [← holdsA, ← holdsB, ← holdsTables, State.classify]
  refine ⟨fun a => if_pos a, fun a b => ?_, fun a b tables => ?_, fun a b tables => ?_⟩
  · rw [if_neg a, if_pos b]
  · rw [if_neg a, if_neg b]
    split
    · rfl
    · next sprite => rw [if_pos (tables.resolve_left sprite)]
  · obtain ⟨sprite, scroll⟩ := not_or.mp tables
    rw [if_neg a, if_neg b, if_neg sprite, if_neg scroll]

/-! ## The blocks a write marks -/

/-- The blocks from that of the first address of `[a, b)` to that of the last are those that hold an
address of it: block `k` holds `a` itself, or its own first address is in the range. -/
theorem between_blocks_iff_holds_address {a b : Nat} (hab : a < b) (size k : Nat) :
    a / size ≤ k ∧ k ≤ (b - 1) / size ↔ ∃ x, a ≤ x ∧ x < b ∧ x / size = k := by
  constructor
  · rintro ⟨hlo, hhi⟩
    rcases hlo.eq_or_lt with first | later
    · exact ⟨a, Nat.le_refl a, hab, first⟩
    · have hsize : 0 < size := by
        rcases Nat.eq_zero_or_pos size with rfl | pos
        · simp only [Nat.div_zero] at later hhi
          omega
        · exact pos
      have after_a : a < k * size := (Nat.div_lt_iff_lt_mul hsize).mp later
      have before_b : k * size ≤ b - 1 := (Nat.le_div_iff_mul_le hsize).mp hhi
      exact ⟨k * size, after_a.le, by omega, Nat.mul_div_cancel k hsize⟩
  · rintro ⟨x, hax, hxb, rfl⟩
    exact ⟨Nat.div_le_div_right hax, Nat.div_le_div_right (by omega)⟩

theorem State.markDirty_none {s : State} {a b : Nat} (hab : a ≠ b) (hclass : s.vclass = .none) :
    s.markDirty a b = s.markBlocks a b := by
  rw [State.markDirty, if_neg hab, hclass]

/-- Settles O26: the marked blocks run from that of the first written byte to that of the last. -/
theorem noneClassMarksExactlyTheWrittenBlocks : Obligations.NoneClassMarksExactlyTheWrittenBlocks := by
  intro s a b hab hclass
  rw [State.markDirty_none hab.ne hclass]
  refine ⟨fun k => ?_, rfl, rfl⟩
  rw [← between_blocks_iff_holds_address hab]
  exact FlagSet.mem_mark _ _ _ k

end Sys2Proof.Machine
end

section
/-! SUPPORT. CRAM access: the store that WRITEC and FILLC share, and what an accepted one leaves in each
entry (41_cram_access.md). -/

namespace Sys2Proof.Machine

/-! ## What an accepted store leaves -/

theorem State.writeColours_cram_inside (words : List Half) (s : State) (i : Nat) (hi : i < words.length)
    (hc : s.ccur.toNat + i < cramEntries) : (s.writeColours words).cram[s.ccur.toNat + i] = words[i] := by
  simp [State.writeColours, writeCram_getElem, hi]

theorem State.writeColours_cram_outside (words : List Half) (s : State) (j : Nat) (hj : j < cramEntries)
    (h : j < s.ccur.toNat ∨ s.ccur.toNat + words.length ≤ j) : (s.writeColours words).cram[j] = s.cram[j] := by
  have notStored : ¬ (s.ccur.toNat ≤ j ∧ j - s.ccur.toNat < words.length) := by omega
  simp only [State.writeColours, writeCram_getElem, dif_neg notStored]

theorem State.writeColours_frame (words : List Half) (s : State) :
    s.writeColours words = { s with
      cram := (s.writeColours words).cram
      ccur := BitVec.ofNat 7 (s.ccur.toNat + words.length) } := rfl

/-! ## The store WRITEC and FILLC share -/

/-- The common form of WRITEC and FILLC (R162, R163), as `storeVram` is that of WRITEV and FILLV. -/
def storeCram (o : Opcode) (code : DiagCode) (words : List Half) (s : State) : Result :=
  requireInit o s fun s =>
    if s.cfg.cramWords < s.ccur.toNat + words.length then reject code s.ccur.toNat s
    else .next (s.writeColours words)

theorem exec_writec (words : List Half) (s : State) :
    exec (.writec words) s = storeCram .writec .cramWrite words s := rfl

theorem exec_fillc (word : Half) (len : BitVec 24) (s : State) :
    exec (.fillc word len) s = storeCram .fillc .cramFill (List.replicate len.toNat word) s := by
  simp only [exec, execFillc, storeCram, List.length_replicate]

section
variable {o : Opcode} {code : DiagCode} {words : List Half} {s : State}

theorem storeCram_before_init (hinit : s.inited = false) (hpolicy : s.policy = .validated) :
    storeCram o code words s = .next (s.raise .notInit o.code.toNat) :=
  (requireInit_not hinit).trans (reject_validated hpolicy)

theorem storeCram_inside (hinit : s.inited = true) (hfits : s.ccur.toNat + words.length ≤ s.cfg.cramWords) :
    storeCram o code words s = .next (s.writeColours words) :=
  (requireInit_inited hinit).trans (if_neg (Nat.not_lt.mpr hfits))

theorem storeCram_past_end (hinit : s.inited = true) (hpast : s.cfg.cramWords < s.ccur.toNat + words.length)
    (hpolicy : s.policy = .validated) :
    storeCram o code words s = .next (s.raise code s.ccur.toNat) :=
  (requireInit_inited hinit).trans ((if_pos hpast).trans (reject_validated hpolicy))

end

/-- Settles O31: the three answers of the shared store, the accepted one read through its entries and
its frame. -/
theorem writecStoresItsWords : Obligations.WritecStoresItsWords := by
  intro words s
  rw [exec_writec]
  refine ⟨storeCram_before_init, fun hinit hfits => ?_, storeCram_past_end⟩
  exact ⟨s.writeColours words, storeCram_inside hinit hfits, s.writeColours_cram_inside words,
    s.writeColours_cram_outside words, s.writeColours_frame words⟩

/-- Settles O32: both commands are the shared store of the same words, so a range that fits the one fits
the other. -/
theorem fillcIsWritecOfCopies : Obligations.FillcIsWritecOfCopies := by
  intro word len s
  have length_copies : (List.replicate len.toNat word).length = len.toNat := List.length_replicate
  rw [exec_fillc, exec_writec]
  generalize List.replicate len.toNat word = copies at length_copies ⊢
  rw [← length_copies]
  refine ⟨storeCram_before_init, fun hinit hfits => ?_, storeCram_past_end⟩
  exact ⟨_, storeCram_inside hinit hfits, storeCram_inside hinit hfits⟩

end Sys2Proof.Machine
end

section
/-! SUPPORT. SETBG, SETVS and SETHINT: what each answers before and after INIT (42_config.md R185 to R187). -/

namespace Sys2Proof.Machine

/-- What every guarded command answers before INIT, whatever it would do after it (R304). -/
theorem requireInit_before_init {o : Opcode} {s : State} {k : State → Result} (hinit : s.inited = false)
    (hpolicy : s.policy = .validated) : requireInit o s k = .next (s.raise .notInit o.code.toNat) :=
  (requireInit_not hinit).trans (reject_validated hpolicy)

/-! ## SETBG -/

section
variable {index : BitVec 8} {s : State}

theorem execSetbg_before_init (hinit : s.inited = false) (hpolicy : s.policy = .validated) :
    execSetbg index s = .next (s.raise .notInit (Opcode.code .setbg).toNat) :=
  requireInit_before_init hinit hpolicy

theorem execSetbg_inside (hinit : s.inited = true) (hinside : index.toNat < s.cfg.cramWords) :
    execSetbg index s = .next { s with bgcol := index.setWidth 6 } := by
  rw [execSetbg, requireInit_inited hinit, if_neg (Nat.not_le.mpr hinside), BitVec.ofNat_toNat]

theorem execSetbg_past_end (hinit : s.inited = true) (hpast : s.cfg.cramWords ≤ index.toNat)
    (hpolicy : s.policy = .validated) : execSetbg index s = .next (s.raise .bgColour index.toNat) := by
  rw [execSetbg, requireInit_inited hinit, if_pos hpast, reject_validated hpolicy]

end

/-! ## SETVS -/

section
variable {a b : Half} {s : State}

theorem execSetvs_before_init (hinit : s.inited = false) (hpolicy : s.policy = .validated) :
    execSetvs a b s = .next (s.raise .notInit (Opcode.code .setvs).toNat) :=
  requireInit_before_init hinit hpolicy

theorem execSetvs_inited (hinit : s.inited = true) : execSetvs a b s = .next { s with vsa := a, vsb := b } :=
  requireInit_inited hinit

end

/-! ## SETHINT -/

section
variable {line : Half} {s : State}

theorem execSethint_before_init (hinit : s.inited = false) (hpolicy : s.policy = .validated) :
    execSethint line s = .next (s.raise .notInit (Opcode.code .sethint).toNat) :=
  requireInit_before_init hinit hpolicy

theorem execSethint_inited (hinit : s.inited = true) : execSethint line s = .next { s with hintLine := line } :=
  requireInit_inited hinit

end

/-- Settles O20: the INIT guard answers all three before INIT; after it only SETBG has a check of its own. -/
theorem setbgSetvsSethintStoreTheirOperands : Obligations.SetbgSetvsSethintStoreTheirOperands := by
  refine ⟨fun s hinit hpolicy => ?_, fun s hinit => ?_⟩
  · exact ⟨fun _ => execSetbg_before_init hinit hpolicy, fun _ _ => execSetvs_before_init hinit hpolicy,
      fun _ => execSethint_before_init hinit hpolicy⟩
  · exact ⟨fun _ => execSetbg_inside hinit, fun _ => execSetbg_past_end hinit,
      fun _ _ => execSetvs_inited hinit, fun _ => execSethint_inited hinit⟩

end Sys2Proof.Machine
end

section
/-! SUPPORT. HINT_EN and HINT_LINE: no meaning and no step reads them (60_exceptions.md R314). -/

namespace Sys2Proof.Machine

/-! ## What the named updates and readings do with another HINT_EN and HINT_LINE -/

section
variable (en : Bool) (line : Half) (s : State)

@[simp] theorem State.withHint_policy : (s.withHint en line).policy = s.policy := rfl
@[simp] theorem State.withHint_phase : (s.withHint en line).phase = s.phase := rfl
@[simp] theorem State.withHint_rx : (s.withHint en line).rx = s.rx := rfl
@[simp] theorem State.withHint_withHint (en' : Bool) (line' : Half) :
    (s.withHint en line).withHint en' line' = s.withHint en' line' := rfl

theorem State.writeVram_withHint (bytes : List Byte) :
    (s.withHint en line).writeVram bytes = (s.writeVram bytes).withHint en line := by
  have same_marks : SameMarks s (s.withHint en line) := ⟨rfl, rfl, rfl, rfl, rfl, rfl, rfl, rfl, rfl⟩
  obtain ⟨hblk, htileA, htileB⟩ :=
    State.markDirty_congr same_marks s.vcur.toNat (s.vcur.toNat + bytes.length)
  rw [State.writeVram_shape, State.writeVram_shape, ← hblk, ← htileA, ← htileB]
  rfl

theorem State.spriteWalk_withHint (left i : Nat) :
    (s.withHint en line).spriteWalk left i = s.spriteWalk left i := by
  induction left generalizing i with
  | zero => rfl
  | succ left ih =>
    rw [State.spriteWalk, State.spriteWalk, ih]
    rfl

theorem State.build_withHint : (s.withHint en line).build = s.build := by
  have walk : (s.withHint en line).spriteWalkActions = s.spriteWalkActions := s.spriteWalk_withHint en line _ _
  rw [State.build, State.build, State.buildActions, State.buildActions, walk]
  rfl

theorem State.buildingStep_withHint : (s.withHint en line).buildingStep = s.buildingStep.withHint en line := by
  rw [State.buildingStep_shape, State.buildingStep_shape, State.build_withHint]
  rfl

theorem State.flush_withHint : (s.withHint en line).flush = s.flush.withHint en line := by
  rw [State.flush_shape, State.flush_shape]
  rfl

theorem State.vblank_withHint : (s.withHint en line).vblank = s.vblank.withHint en line := by
  rw [State.vblank, State.vblank, State.withHint_phase]
  cases s.phase <;> rfl

end

/-! ## Meanings that do not read the two registers -/

/-- From states that differ only in HINT_EN and HINT_LINE the meaning answers outcomes that differ only
there. -/
def HintBlind (m : State → Result) : Prop :=
  ∀ (s : State) (en : Bool) (line : Half),
    mapNext (State.withHint false 0) (m (s.withHint en line)) = mapNext (State.withHint false 0) (m s)

/-! One rule for each way a meaning is put together. That a condition, an operand or an update does not
depend on the two registers is seen by unfolding it, unless a lemma is given. -/

/-- An update that overwrites the two registers, or leaves them as they are. -/
theorem HintBlind.next {upd : State → State}
    (hupd : ∀ s en line, (upd (s.withHint en line)).withHint false 0 = (upd s).withHint false 0 := by
      intros; rfl) :
    HintBlind fun s => .next (upd s) :=
  fun s en line => congrArg Host.Outcome.next (hupd s en line)

/-- An update that carries the two registers along. -/
theorem HintBlind.next_of_carries {upd : State → State}
    (hupd : ∀ s en line, upd (s.withHint en line) = (upd s).withHint en line) :
    HintBlind fun s => .next (upd s) :=
  next fun s en line => by rw [hupd, State.withHint_withHint]

theorem HintBlind.reject {code : DiagCode} {info : State → Nat}
    (hinfo : ∀ s en line, info (s.withHint en line) = info s := by intros; rfl) :
    HintBlind fun s => reject code (info s) s := fun s en line => by
  have hkeep := s.withHint_policy en line
  cases hp : s.policy with
  | validated =>
    simp only [reject_validated hp, reject_validated (hkeep.trans hp), hinfo]
    rfl
  | unchecked => simp only [reject_unchecked hp, reject_unchecked (hkeep.trans hp)]

theorem HintBlind.ite {p : State → Prop} [DecidablePred p] {m n : State → Result}
    (hm : HintBlind m) (hn : HintBlind n) (hp : ∀ s en line, p (s.withHint en line) ↔ p s := by intros; rfl) :
    HintBlind fun s => if p s then m s else n s := fun s en line => by
  by_cases h : p s
  · simpa only [if_pos h, if_pos ((hp s en line).mpr h)] using hm s en line
  · simpa only [if_neg h, if_neg (mt (hp s en line).mp h)] using hn s en line

theorem HintBlind.requireInit {o : Opcode} {k : State → State → Result} (hk : HintBlind fun s => k s s) :
    HintBlind fun s => requireInit o s (k s) :=
  ite hk reject

/-- A location setter whose alignment, size and update do not depend on the two registers. -/
theorem HintBlind.setLocation {o : Opcode} {align size : State → Nat} {offset : BitVec 24}
    {upd : State → BitVec 16 → State}
    (halign : ∀ s en line, align (s.withHint en line) = align s := by intros; rfl)
    (hsize : ∀ s en line, size (s.withHint en line) = size s := by intros; rfl)
    (hupd : ∀ s en line m, upd (s.withHint en line) m = (upd s m).withHint en line := by intros; rfl) :
    HintBlind fun s => setLocation o (align s) (size s) offset (upd s) s :=
  requireInit <| ite (reject fun s en line => by rw [halign])
    (next_of_carries fun s en line => by rw [halign, hupd])
    (fun s en line => by rw [halign, hsize]; rfl)

/-! ## The commands -/

theorem execInit_hintBlind (vint hint : Bool) : HintBlind (execInit vint hint) :=
  .ite .reject .next

theorem execSeekv_hintBlind (offset : BitVec 24) : HintBlind (execSeekv offset) :=
  .requireInit <| .ite .reject .next

theorem execWritev_hintBlind (bytes : List Byte) : HintBlind (execWritev bytes) :=
  .requireInit <| .ite .reject (.next_of_carries fun s en line => s.writeVram_withHint en line bytes)

theorem execFillv_hintBlind (byte : Byte) (len : BitVec 24) : HintBlind (execFillv byte len) :=
  .requireInit <| .ite .reject (.next_of_carries fun s en line => s.writeVram_withHint en line _)

theorem execSeekc_hintBlind (offset : BitVec 24) : HintBlind (execSeekc offset) :=
  .requireInit <| .ite .reject .next

theorem execWritec_hintBlind (words : List Half) : HintBlind (execWritec words) :=
  .requireInit <| .ite .reject .next

theorem execFillc_hintBlind (word : Half) (len : BitVec 24) : HintBlind (execFillc word len) :=
  .requireInit <| .ite .reject .next

theorem execSetpa_hintBlind (offset : BitVec 24) : HintBlind (execSetpa offset) :=
  .setLocation

theorem execSetpb_hintBlind (offset : BitVec 24) : HintBlind (execSetpb offset) :=
  .setLocation

theorem execSetspr_hintBlind (offset : BitVec 24) : HintBlind (execSetspr offset) :=
  .setLocation

theorem execSeths_hintBlind (offset : BitVec 24) : HintBlind (execSeths offset) :=
  .setLocation

theorem execSetpsz_hintBlind (width height : BitVec 8) : HintBlind (execSetpsz width height) :=
  .requireInit <| .ite .reject <|
    .ite .reject .next

theorem execSetbg_hintBlind (index : BitVec 8) : HintBlind (execSetbg index) :=
  .requireInit <| .ite .reject .next

theorem execSetvs_hintBlind (a b : Half) : HintBlind (execSetvs a b) :=
  .requireInit <| .next

theorem execSethint_hintBlind (line : Half) : HintBlind (execSethint line) :=
  .requireInit <| .next

theorem execRender_hintBlind : HintBlind execRender := by
  refine .requireInit <| .ite (fun s en line => ?_) (fun _ _ _ => rfl)
  simp only [State.withHint_policy, State.build_withHint, State.buildingStep_withHint]
  split <;> rfl

theorem exec_hintBlind (i : Instr) : HintBlind (exec i) := by
  cases i with
  | init vint hint => exact execInit_hintBlind vint hint
  | seekv offset => exact execSeekv_hintBlind offset
  | writev bytes => exact execWritev_hintBlind bytes
  | fillv byte len => exact execFillv_hintBlind byte len
  | seekc offset => exact execSeekc_hintBlind offset
  | writec words => exact execWritec_hintBlind words
  | fillc word len => exact execFillc_hintBlind word len
  | setpa offset => exact execSetpa_hintBlind offset
  | setpb offset => exact execSetpb_hintBlind offset
  | setspr offset => exact execSetspr_hintBlind offset
  | seths offset => exact execSeths_hintBlind offset
  | setpsz width height => exact execSetpsz_hintBlind width height
  | setbg index => exact execSetbg_hintBlind index
  | setvs a b => exact execSetvs_hintBlind a b
  | sethint line => exact execSethint_hintBlind line
  | render => exact execRender_hintBlind

/-! ## The port, the inputs and the step -/

theorem acceptWord_hintBlind (w : Word) : HintBlind (acceptWord w) := fun s en line => by
  rw [acceptWord, acceptWord, State.withHint_rx]
  cases s.rx with
  | none =>
    cases opcodeOf w with
    | none => rfl
    | some o =>
      cases payloadWords w with
      | zero => exact exec_hintBlind _ s en line
      | succ n => rfl
  | some p =>
    by_cases hlast : p.left ≤ 1
    · simp only [if_pos hlast]
      cases opcodeOf p.header with
      | none => rfl
      | some o => exact exec_hintBlind _ { s with rx := none } en line
    · simp only [if_neg hlast]
      rfl

theorem takeInput_hintBlind (i : Input) : HintBlind (takeInput i) := by
  cases i with
  | word w => exact acceptWord_hintBlind w
  | gpuDone => exact .next
  | vblank => exact .next_of_carries fun s en line => s.vblank_withHint en line
  | gpuDoneAndVblank => exact .next_of_carries fun s en line => s.gpuDone.vblank_withHint en line
  | reset strap => exact .next

theorem flushedStep_hintBlind : HintBlind flushedStep :=
  .ite (.next_of_carries fun s en line => by rw [State.flush_withHint]; rfl)
    (fun _ _ _ => rfl)

/-- No input to take and no Flushed step enabled: the state is retained (R326). -/
theorem step_idle {s : State} (hnext : s.nextInput = none) (hidle : s.flushEnabled = false) : step s = .next s := by
  simp [step, advance, hnext, hidle]

/-- The step makes the same choice of what to do, since nothing it reads for that is one of the two
registers, and each choice is blind to them. -/
theorem step_hintBlind : HintBlind step := fun s en line => by
  rcases step_cases s with ⟨henabled, hnext, hstep⟩ | ⟨i, rest, hnext, henabled, hstep⟩ | ⟨hnext, henabled, hstep⟩
  · rw [hstep, step_flush (s := s.withHint en line) henabled hnext]
    exact flushedStep_hintBlind s en line
  · rw [hstep, step_input (s := s.withHint en line) hnext henabled]
    exact takeInput_hintBlind i { s with inputs := rest } en line
  · rw [hstep, step_idle (s := s.withHint en line) hnext henabled]
    rfl

/-- INIT is accepted once (R176). -/
theorem execInit_not_inited {vint hint : Bool} {s : State} (hinit : s.inited = false) :
    execInit vint hint s = .next { s with inited := true, vintEn := vint, hintEn := hint } := by
  simp [execInit, hinit]

/-- Settles O58: INIT and SETHINT record their operands, and the step is blind to both registers. -/
theorem hintIsReadByNothing : Obligations.HintIsReadByNothing :=
  ⟨fun _ _ _ hinit => ⟨_, execInit_not_inited hinit, rfl⟩,
    fun _ _ hinit => ⟨_, execSethint_inited hinit, rfl⟩, step_hintBlind⟩

end Sys2Proof.Machine
end

section
/-! SUPPORT. The command port's encoding: what a header spells, and that decoding undoes encoding
(30_encoding.md Part A, R90 to R104). -/

namespace Sys2Proof

/-! ## The fields of a header -/

/-- A field of a header that lies inside its arg is that field of the arg (R91). -/
theorem extractLsb'_header (o : Opcode) (arg : BitVec 24) {start len : Nat} (h : start + len ≤ 24) :
    (header o arg).extractLsb' start len = arg.extractLsb' start len :=
  BitVec.extractLsb'_append_eq_of_add_le h

/-- A word is its op field above its arg field (R91). -/
theorem opField_append_argField (w : Word) : opField w ++ argField w = w :=
  BitVec.extractLsb'_append_extractLsb'

/-! ## Decoding an encoding -/

/-- The operands placed by the encoder are those the decoder reads (R92, R96 to R100). -/
theorem assemble_encoded (i : Instr) (hi : i.wellFormed = true) :
    assemble i.opcode (header i.opcode i.arg) i.payload = i := by
  cases i with
  | init vint hint => cases vint <;> cases hint <;> decide
  | seekv offset => exact congrArg Instr.seekv (argField_header _ _)
  | writev bytes =>
    have hlen : bytes.length < 2 ^ 24 := by simpa [Instr.wellFormed] using hi
    have count : (argField (header .writev (.ofNat 24 bytes.length))).toNat = bytes.length := by
      rw [argField_header, BitVec.toNat_ofNat, Nat.mod_eq_of_lt hlen]
    obtain ⟨pad, hpad⟩ := unpack_pack bytes
    refine congrArg Instr.writev ?_
    rw [Instr.payload, Instr.arg, Instr.opcode, hpad, count, List.take_left]
  | fillv byte len => exact congrArg₂ Instr.fillv BitVec.extractLsb'_append_eq_right (argField_header _ _)
  | seekc offset => exact congrArg Instr.seekc (argField_header _ _)
  | writec words =>
    have low : ∀ h : Half, lowHalf ((0 : BitVec 16) ++ h) = h := fun _ => BitVec.extractLsb'_append_eq_right
    refine congrArg Instr.writec ?_
    rw [Instr.payload, List.map_map]
    exact (List.map_congr_left fun h _ => low h).trans (List.map_id words)
  | fillc word len => exact congrArg₂ Instr.fillc BitVec.extractLsb'_append_eq_right (argField_header _ _)
  | setpa offset => exact congrArg Instr.setpa (argField_header _ _)
  | setpb offset => exact congrArg Instr.setpb (argField_header _ _)
  | setspr offset => exact congrArg Instr.setspr (argField_header _ _)
  | seths offset => exact congrArg Instr.seths (argField_header _ _)
  | setpsz width height =>
    have low : (header .setpsz ((0 : BitVec 8) ++ height ++ width)).extractLsb' 0 8 = width :=
      (extractLsb'_header _ _ (by decide)).trans BitVec.extractLsb'_append_eq_right
    have high : (header .setpsz ((0 : BitVec 8) ++ height ++ width)).extractLsb' 8 8 = height :=
      (extractLsb'_header _ _ (by decide)).trans <|
        (BitVec.extractLsb'_append_eq_of_le (by decide)).trans BitVec.extractLsb'_append_eq_right
    exact congrArg₂ Instr.setpsz low high
  | setbg index =>
    exact congrArg Instr.setbg ((extractLsb'_header _ _ (by decide)).trans BitVec.extractLsb'_append_eq_right)
  | setvs a b =>
    exact congrArg₂ Instr.setvs BitVec.extractLsb'_append_eq_right BitVec.extractLsb'_append_eq_left
  | sethint line =>
    exact congrArg Instr.sethint ((extractLsb'_header _ _ (by decide)).trans BitVec.extractLsb'_append_eq_right)
  | render => rfl

/-- The per-command facts about an encoding's header, for every command. -/
theorem encodedHeader (i : Instr) : Laws.EncodedHeader.Statement i := by
  cases i with
  | init vint hint => exact Laws.EncodedHeader.init vint hint
  | seekv offset => exact Laws.EncodedHeader.seekv offset
  | writev bytes => exact Laws.EncodedHeader.writev bytes
  | fillv byte len => exact Laws.EncodedHeader.fillv byte len
  | seekc offset => exact Laws.EncodedHeader.seekc offset
  | writec words => exact Laws.EncodedHeader.writec words
  | fillc word len => exact Laws.EncodedHeader.fillc word len
  | setpa offset => exact Laws.EncodedHeader.setpa offset
  | setpb offset => exact Laws.EncodedHeader.setpb offset
  | setspr offset => exact Laws.EncodedHeader.setspr offset
  | seths offset => exact Laws.EncodedHeader.seths offset
  | setpsz width height => exact Laws.EncodedHeader.setpsz width height
  | setbg index => exact Laws.EncodedHeader.setbg index
  | setvs a b => exact Laws.EncodedHeader.setvs a b
  | sethint line => exact Laws.EncodedHeader.sethint line
  | render => exact Laws.EncodedHeader.render

/-- A legal header followed by all of its payload is its command (R90, R103). -/
theorem decode_whole {o : Opcode} {w : Word} {p : List Word} (ho : opcodeOf w = some o)
    (hp : payloadWords w = p.length) (rest : List Word) :
    decode (w :: (p ++ rest)) = .command (assemble o w p) rest := by
  simp [decode, ho, hp, splitExact_append]

/-- Settles O1: the header asks for exactly the payload encoded, and the operands are read where they
were placed. -/
theorem decodeOfEncodeIsTheCommand : Obligations.DecodeOfEncodeIsTheCommand := by
  intro i rest hi
  obtain ⟨-, spells, asks⟩ := encodedHeader i hi
  rw [encode, List.cons_append, decode_whole spells asks, assemble_encoded i hi]

/-! ## The match and mask table -/

/-- What it is to be a header of an opcode: its op value, and the reserved bits 0 (R92, R95). -/
theorem opcodeOf_eq_some_iff (w : Word) (o : Opcode) :
    opcodeOf w = some o ↔ opField w = o.code ∧ (argField w).toNat < 2 ^ o.argBits := by
  constructor
  · intro h
    obtain ⟨hw, hbits⟩ := header_of_opcodeOf h
    exact ⟨by rw [hw, opField_header], hbits⟩
  · rintro ⟨hop, hbits⟩
    rw [← opField_append_argField w, hop]
    exact opcodeOf_header o (argField w) hbits

/-- The bits from `k` on are 0 exactly when the number is below `2 ^ k`. -/
theorem and_highMask_eq_zero_iff {n : Nat} (x : BitVec n) (k : Nat) :
    x &&& (BitVec.allOnes n <<< k) = 0 ↔ x.toNat < 2 ^ k := by
  constructor
  · intro h
    refine Nat.lt_pow_two_of_testBit _ fun i hki => ?_
    rw [BitVec.testBit_toNat]
    by_cases hi : i < n
    · have bit : (x &&& (BitVec.allOnes n <<< k)).getLsbD i = false := by simp [h]
      rw [BitVec.getLsbD_and, BitVec.getLsbD_shiftLeft] at bit
      simpa [hi, Nat.not_lt.mpr hki, show i - k < n by omega] using bit
    · exact BitVec.getLsbD_of_ge x i (Nat.le_of_not_lt hi)
  · intro h
    ext i hi
    by_cases hki : i < k
    · simp [hki]
    · have zero : x.getLsbD i = false := by
        rw [← BitVec.testBit_toNat]
        exact Nat.testBit_lt_two_pow (h.trans_le (Nat.pow_le_pow_right (by decide) (Nat.le_of_not_lt hki)))
      rw [BitVec.getElem_and, ← BitVec.getLsbD_eq_getElem hi, zero]
      simp

theorem append_eq_append_iff {m n : Nat} {a c : BitVec m} {b d : BitVec n} : a ++ b = c ++ d ↔ a = c ∧ b = d := by
  refine ⟨fun h => ⟨?_, ?_⟩, fun ⟨ha, hb⟩ => by rw [ha, hb]⟩
  · exact BitVec.extractLsb'_append_eq_left.symm.trans ((congrArg _ h).trans BitVec.extractLsb'_append_eq_left)
  · exact BitVec.extractLsb'_append_eq_right.symm.trans ((congrArg _ h).trans BitVec.extractLsb'_append_eq_right)

end Sys2Proof

namespace Sys2Proof.Machine

/-- R94's mask: all of op, and the arg bits that must be 0. -/
theorem tableMask_eq (o : Opcode) :
    tableMask o = BitVec.allOnes 8 ++ (BitVec.allOnes 24 <<< o.argBits : BitVec 24) := by cases o <;> decide

/-- R94's match: the op value above an arg of 0. -/
theorem tableMatch_eq (o : Opcode) : tableMatch o = o.code ++ (0 : BitVec 24) := by cases o <;> decide

/-- Settles O3: a match compares op with the op value, and the reserved arg bits with 0. -/
theorem headerSpellsCommandIffItMatches : Obligations.HeaderSpellsCommandIffItMatches := by
  intro w o
  have masked : w &&& tableMask o = opField w ++ (argField w &&& (BitVec.allOnes 24 <<< o.argBits)) :=
    calc w &&& tableMask o
        = (opField w ++ argField w) &&& (BitVec.allOnes 8 ++ (BitVec.allOnes 24 <<< o.argBits)) := by
          rw [opField_append_argField, tableMask_eq]
      _ = opField w ++ (argField w &&& (BitVec.allOnes 24 <<< o.argBits)) := by
          rw [BitVec.and_append, BitVec.and_allOnes]
  rw [opcodeOf_eq_some_iff, masked, tableMatch_eq, append_eq_append_iff, and_highMask_eq_zero_iff]

/-- Settles O2, by running the decoder on the words. -/
theorem spelledWordsDecode : Obligations.SpelledWordsDecode := by
  unfold Obligations.SpelledWordsDecode
  decide

end Sys2Proof.Machine
end

section
/-! SUPPORT. The command port: a header alone, a header that waits for its payload, and the words of a whole
command (30_encoding.md R90, R101, R103). -/

namespace Sys2Proof

/-- `splitExact` answers exactly when there are `n` elements to take (R103). -/
theorem splitExact_eq_some_iff {α : Type} {n : Nat} {xs p r : List α} :
    splitExact n xs = some (p, r) ↔ xs = p ++ r ∧ p.length = n := by
  constructor
  · intro h
    induction n generalizing xs p with
    | zero =>
      obtain ⟨rfl, rfl⟩ : [] = p ∧ xs = r := by simpa [splitExact] using h
      exact ⟨rfl, rfl⟩
    | succ n ih =>
      cases xs with
      | nil => cases h
      | cons x xs =>
        simp only [splitExact, Option.map_eq_some_iff, Prod.mk.injEq] at h
        obtain ⟨⟨q, r'⟩, hq, rfl, rfl⟩ := h
        obtain ⟨rfl, rfl⟩ := ih hq
        exact ⟨rfl, rfl⟩
  · rintro ⟨rfl, rfl⟩
    exact splitExact_append p r

/-- A stream that is exactly one command is a legal header and the payload it asks for. -/
theorem decode_eq_command_iff {w : Word} {ws : List Word} {i : Instr} :
    decode (w :: ws) = .command i [] ↔
      ∃ o, opcodeOf w = some o ∧ ws.length = payloadWords w ∧ i = assemble o w ws := by
  cases ho : opcodeOf w with
  | none => simp [decode, ho]
  | some o =>
    cases hs : splitExact (payloadWords w) ws with
    | none =>
      have short : ws.length ≠ payloadWords w := fun hlen => by
        simp [splitExact_eq_some_iff.mpr ⟨(List.append_nil ws).symm, hlen⟩] at hs
      simp [decode, ho, hs, short]
    | some pr =>
      obtain ⟨p, r⟩ := pr
      obtain ⟨rfl, hp⟩ := splitExact_eq_some_iff.mp hs
      cases r with
      | nil =>
        simp only [decode, ho, hs]
        simp [hp, eq_comm]
      | cons x r =>
        have long : (p ++ x :: r).length ≠ payloadWords w := by simp [← hp]
        simp only [decode, ho, hs, Option.some.injEq, exists_eq_left', long, false_and, iff_false]
        simp

end Sys2Proof

namespace Sys2Proof.Machine

/-! ## What a step of the open port does with the next word -/

/-- Only a legal header asks for payload (R103). -/
theorem exists_opcodeOf {w : Word} (h : 0 < payloadWords w) : ∃ o, opcodeOf w = some o := by
  cases ho : opcodeOf w with
  | none => simp [payloadWords, ho] at h
  | some o => exact ⟨o, rfl⟩

section
variable {s : State} {w : Word} {rest : List Input} {o : Opcode} {p : Partial}
  (hphase : s.phase = .building) (hinputs : s.inputs = .word w :: rest)
include hphase hinputs

/-- The event of an illegal word carries the word itself (R101). -/
theorem step_illegal (hrx : s.rx = none) (ho : opcodeOf w = none) :
    step s = .next { s with inputs := rest, out := s.out ++ [.diag .illegalCmd w] } := by
  rw [step_word hphase hinputs]
  simp [acceptWord, hrx, ho, State.raise, State.emit, diagEvent]

/-- A header that asks for no payload is a whole command. -/
theorem step_alone (hrx : s.rx = none) (ho : opcodeOf w = some o) (hn : payloadWords w = 0) :
    step s = exec (assemble o w []) { s with inputs := rest } := by
  rw [step_word hphase hinputs]
  simp [acceptWord, hrx, ho, hn]

theorem step_header (hrx : s.rx = none) (ho : opcodeOf w = some o) (hn : 0 < payloadWords w) :
    step s = .next { s with inputs := rest, rx := some { header := w, got := [], left := payloadWords w } } := by
  obtain ⟨n, hn⟩ := Nat.exists_eq_succ_of_ne_zero hn.ne'
  rw [step_word hphase hinputs]
  simp [acceptWord, hrx, ho, hn]

theorem step_more (hrx : s.rx = some p) (hleft : 1 < p.left) :
    step s = .next { s with
      inputs := rest, rx := some { header := p.header, got := p.got ++ [w], left := p.left - 1 } } := by
  rw [step_word hphase hinputs]
  simp [acceptWord, hrx, Nat.not_le.mpr hleft]

theorem step_last (hrx : s.rx = some p) (hleft : p.left ≤ 1) (ho : opcodeOf p.header = some o) :
    step s = exec (assemble o p.header (p.got ++ [w])) { s with rx := none, inputs := rest } := by
  rw [step_word hphase hinputs]
  simp [acceptWord, hrx, ho, hleft]

end

/-- Where nothing is received there is nothing to forget. -/
theorem State.forget_rx {s : State} (hrx : s.rx = none) (rest : List Input) :
    ({ s with rx := none, inputs := rest } : State) = { s with inputs := rest } := by
  rw [← hrx]

/-- Settles O4: no row matched, so the word is illegal and the port reports it alone. -/
theorem illegalWordIsConsumedAlone : Obligations.IllegalWordIsConsumedAlone := by
  rintro s w rest ⟨hphase, hrx, hinputs⟩ hmatch
  have illegal : opcodeOf w = none := Option.eq_none_iff_forall_ne_some.mpr fun o h =>
    hmatch o ((headerSpellsCommandIffItMatches w o).mp h)
  exact step_illegal hphase hinputs hrx illegal

/-- Settles O5: the port keeps a header that asks for payload, and every payload word before the last. -/
theorem incompleteCommandHasNoEffect : Obligations.IncompleteCommandHasNoEffect := by
  refine ⟨?_, fun s p w rest hphase hrx hinputs hleft => step_more hphase hinputs hrx hleft⟩
  rintro s w rest ⟨hphase, hrx, hinputs⟩ hpayload
  obtain ⟨o, ho⟩ := exists_opcodeOf hpayload
  exact step_header hphase hinputs hrx ho hpayload

/-- Settles O6: the words complete a command exactly when the port takes this one as its last. -/
theorem stepRunsTheDecodedCommand : Obligations.StepRunsTheDecodedCommand := by
  intro s w rest i hphase hinputs hok hdecode
  obtain hrx | ⟨p, hrx⟩ := s.rx.eq_none_or_eq_some
  · rw [hrx, wordsWith, decode_eq_command_iff] at hdecode
    obtain ⟨o, ho, hnone, rfl⟩ := hdecode
    rw [State.forget_rx hrx, step_alone hphase hinputs hrx ho hnone.symm]
  · rw [hrx, wordsWith, decode_eq_command_iff] at hdecode
    obtain ⟨o, ho, hlen, rfl⟩ := hdecode
    obtain ⟨-, hcount⟩ : _ ∧ p.got.length + p.left = payloadWords p.header := by
      simpa [Partial.ok] using hok p hrx
    have hleft : p.left ≤ 1 := by
      simp only [List.length_append, List.length_singleton] at hlen
      omega
    exact step_last hphase hinputs hrx hleft ho

/-! ## The words of a whole command -/

/-- One step, then `k` more. -/
theorem run_succ_of_step {M : Host.Core} {s t : M.State} (h : M.step s = .next t) (k : Nat) :
    M.run (k + 1) s = M.run k t := by
  rw [Host.Core.run, h]

theorem run_one {M : Host.Core} (s : M.State) : M.run 1 s = M.step s := by
  rw [Host.Core.run]
  cases M.step s <;> rfl

/-- The payload words still to come complete the command, in as many steps as there are (R90, R103). -/
theorem run_payload {o : Opcode} {h : Word} (ho : opcodeOf h = some o) (w : Word) (ws : List Word) :
    ∀ (s : State) (got : List Word) (rest : List Input), s.phase = .building →
      s.rx = some { header := h, got := got, left := (w :: ws).length } →
      s.inputs = (w :: ws).map Input.word ++ rest →
      core.run (w :: ws).length s = exec (assemble o h (got ++ w :: ws)) { s with rx := none, inputs := rest } := by
  induction ws generalizing w with
  | nil =>
    intro s got rest hphase hrx hinputs
    exact (run_one (M := core) s).trans (step_last hphase hinputs hrx (Nat.le_refl 1) ho)
  | cons w' ws ih =>
    intro s got rest hphase hrx hinputs
    have hstep := step_more hphase hinputs hrx (Nat.succ_lt_succ (Nat.succ_pos _))
    refine (run_succ_of_step (M := core) hstep _).trans ?_
    refine (ih w' _ (got ++ [w]) rest ?_ ?_ ?_).trans ?_
    · exact hphase
    · rfl
    · rfl
    · rw [List.append_assoc, List.singleton_append]

/-- Settles O7: the header is taken first, then its payload, and what they assemble to is the command. -/
theorem commandWordsRunTheCommand : Obligations.CommandWordsRunTheCommand := by
  intro i s rest hi hphase hrx hinputs
  obtain ⟨-, spells, asks⟩ := encodedHeader i hi
  have hassemble := assemble_encoded i hi
  rw [encode] at hinputs ⊢
  generalize header i.opcode i.arg = h at *
  cases hp : i.payload with
  | nil =>
    rw [hp] at hassemble asks hinputs
    have hstep := step_alone hphase hinputs hrx spells asks
    rw [hassemble] at hstep
    exact (run_one (M := core) s).trans hstep
  | cons w ws =>
    rw [hp] at hassemble asks hinputs
    have hstep := step_header hphase hinputs hrx spells (asks ▸ Nat.succ_pos _)
    refine (run_succ_of_step (M := core) hstep _).trans ?_
    refine (run_payload spells w ws _ [] rest ?_ ?_ ?_).trans ?_
    · exact hphase
    · rw [asks]
    · rfl
    · rw [List.nil_append, hassemble, State.forget_rx hrx]

end Sys2Proof.Machine
end

section
/-! SUPPORT. What a command checks and what it does: one violation or one effect a command, and the statements
about single commands that follow (42_config.md, 60_exceptions.md). -/

namespace Sys2Proof.Machine

/-! ## The checks and the effect of a command -/

/-- What a command other than INIT checks once INIT has been taken: its first violation, as the diagnostic
and its info. -/
def checkOf (s : State) : Instr → Option (DiagCode × Nat)
  | .seekv offset => if s.cfg.vramSize ≤ offset.toNat then some (.vramSeek, offset.toNat) else none
  | .writev bytes =>
    if s.cfg.vramSize < s.vcur.toNat + bytes.length then some (.vramWrite, s.vcur.toNat) else none
  | .fillv _ len => if s.cfg.vramSize < s.vcur.toNat + len.toNat then some (.vramFill, s.vcur.toNat) else none
  | .seekc offset => if s.cfg.cramWords ≤ offset.toNat then some (.cramSeek, offset.toNat) else none
  | .writec words =>
    if s.cfg.cramWords < s.ccur.toNat + words.length then some (.cramWrite, s.ccur.toNat) else none
  | .fillc _ len => if s.cfg.cramWords < s.ccur.toNat + len.toNat then some (.cramFill, s.ccur.toNat) else none
  | .setpa offset => locationCheck s.cfg.planeAlign (nametableBytes s.pw s.ph) offset
  | .setpb offset => locationCheck s.cfg.planeAlign (nametableBytes s.pw s.ph) offset
  | .setspr offset => locationCheck s.cfg.spriteAlign (spriteTableBytes s.cfg) offset
  | .seths offset => locationCheck s.cfg.hscrollAlign (scrollTableBytes s.cfg) offset
  | .setpsz width height =>
    if !legalPlaneSize width height then some (.planeSize, (height ++ width).toNat)
    else if s.cfg.vramSize < s.paBase.toNat + nametableBytes width height ∨
        s.cfg.vramSize < s.pbBase.toNat + nametableBytes width height then
      some (.regionRange, nametableBytes width height)
    else none
  | .setbg index => if s.cfg.cramWords ≤ index.toNat then some (.bgColour, index.toNat) else none
  | .init _ _ => none
  | .setvs _ _ => none
  | .sethint _ => none
  | .render => none
where
  /-- The check of the four location setters, on the masked operand (R179). -/
  locationCheck (align size : Nat) (offset : BitVec 24) : Option (DiagCode × Nat) :=
    if s.cfg.vramSize < (alignMask align offset).toNat + size then some (.regionRange, (alignMask align offset).toNat)
    else none

/-- The violation a command commits: INIT a second time, any other before INIT, or the command's own check. -/
def violationOf (i : Instr) (s : State) : Option (DiagCode × Nat) :=
  if i.opcode = .init then (if s.inited then some (.alreadyInit, 0x01) else none)
  else if s.inited then checkOf s i else some (.notInit, i.opcode.code.toNat)

/-- What an accepted command does. RENDER's effect is its Building step. -/
def effectOf (i : Instr) (s : State) : State :=
  match i with
  | .init vint hint => { s with inited := true, vintEn := vint, hintEn := hint }
  | .seekv offset => { s with vcur := BitVec.ofNat 17 offset.toNat, vclass := s.classify offset.toNat }
  | .writev bytes => s.writeVram bytes
  | .fillv byte len => s.writeVram (List.replicate len.toNat byte)
  | .seekc offset => { s with ccur := BitVec.ofNat 7 offset.toNat }
  | .writec words => s.writeColours words
  | .fillc word len => s.writeColours (List.replicate len.toNat word)
  | .setpa offset => { s with paBase := BitVec.ofNat 16 (alignMask s.cfg.planeAlign offset).toNat }
  | .setpb offset => { s with pbBase := BitVec.ofNat 16 (alignMask s.cfg.planeAlign offset).toNat }
  | .setspr offset => { s with sprBase := BitVec.ofNat 16 (alignMask s.cfg.spriteAlign offset).toNat }
  | .seths offset => { s with hsBase := BitVec.ofNat 16 (alignMask s.cfg.hscrollAlign offset).toNat }
  | .setpsz width height => { s with pw := width, ph := height }
  | .setbg index => { s with bgcol := BitVec.ofNat 6 index.toNat }
  | .setvs a b => { s with vsa := a, vsb := b }
  | .sethint line => { s with hintLine := line }
  | .render => s.buildingStep

theorem violationOf_init (vint hint : Bool) (s : State) :
    violationOf (.init vint hint) s = if s.inited then some (.alreadyInit, 0x01) else none := rfl

theorem violationOf_before_init {i : Instr} {s : State} (hi : i.opcode ≠ .init) (hinit : s.inited = false) :
    violationOf i s = some (.notInit, i.opcode.code.toNat) := by
  simp [violationOf, hi, hinit]

theorem violationOf_inited {i : Instr} {s : State} (hi : i.opcode ≠ .init) (hinit : s.inited = true) :
    violationOf i s = checkOf s i := by
  simp [violationOf, hi, hinit]

/-- Only INIT is accepted before INIT. -/
theorem inited_of_accepted {i : Instr} {s : State} (hi : i.opcode ≠ .init) (h : violationOf i s = none) :
    s.inited = true := by
  cases hinit : s.inited with
  | true => rfl
  | false => simp [violationOf_before_init hi hinit] at h

/-- A check followed by a rejection or an effect, as the commands are written. -/
theorem ite_reject_eq {p : Prop} [Decidable p] {code : DiagCode} {info : Nat} {s t : State} :
    (if p then reject code info s else .next t) =
      ((if p then some (code, info) else none).elim (.next t) fun v => reject v.1 v.2 s : Result) := by
  split <;> rfl

/-- Every command but INIT begins with the initialization check (R304). -/
theorem exec_before_init {i : Instr} {s : State} (hi : i.opcode ≠ .init) (hinit : s.inited = false) :
    exec i s = reject .notInit i.opcode.code.toNat s := by
  cases i with
  | init vint hint => exact absurd rfl hi
  | _ =>
    simp only [exec, execSeekv, execWritev, execFillv, execSeekc, execWritec, execFillc, execSetpa, execSetpb,
      execSetspr, execSeths, setLocation, execSetpsz, execSetbg, execSetvs, execSethint, execRender,
      requireInit_not hinit]
    rfl

/-- After INIT every command but INIT and RENDER is its own check, then its effect. -/
theorem exec_inited {i : Instr} {s : State} (hi : i.opcode ≠ .init) (hr : i.opcode ≠ .render)
    (hinit : s.inited = true) :
    exec i s = (checkOf s i).elim (.next (effectOf i s)) fun v => reject v.1 v.2 s := by
  cases i with
  | init vint hint => exact absurd rfl hi
  | render => exact absurd rfl hr
  | setvs a b => exact execSetvs_inited hinit
  | sethint line => exact execSethint_inited hinit
  | setpsz width height =>
    simp only [exec, execSetpsz, requireInit_inited hinit, checkOf]
    split
    · rfl
    · exact ite_reject_eq
  | _ =>
    simp only [exec, execSeekv, execWritev, execFillv, execSeekc, execWritec, execFillc, execSetpa, execSetpb,
      execSetspr, execSeths, setLocation, execSetbg, requireInit_inited hinit]
    exact ite_reject_eq

/-- A command other than RENDER rejects its violation, or does its effect. -/
theorem exec_eq {i : Instr} (hr : i.opcode ≠ .render) (s : State) :
    exec i s = (violationOf i s).elim (.next (effectOf i s)) fun v => reject v.1 v.2 s := by
  by_cases hi : i.opcode = .init
  · cases i with
    | init vint hint => exact ite_reject_eq
    | _ => simp [Instr.opcode] at hi
  · cases hinit : s.inited with
    | false => rw [exec_before_init hi hinit, violationOf_before_init hi hinit, Option.elim_some]
    | true => rw [exec_inited hi hr hinit, violationOf_inited hi hinit]

theorem exec_of_accepted {i : Instr} {s : State} (hi : i.opcode ≠ .render) (h : violationOf i s = none) :
    exec i s = .next (effectOf i s) := by
  rw [exec_eq hi, h]
  rfl

theorem exec_of_violation {i : Instr} {s : State} {code : DiagCode} {info : Nat}
    (h : violationOf i s = some (code, info)) : exec i s = reject code info s := by
  by_cases hr : i.opcode = .render
  · have hi : i.opcode ≠ .init := by simp [hr]
    cases hinit : s.inited with
    | false =>
      obtain ⟨rfl, rfl⟩ : .notInit = code ∧ i.opcode.code.toNat = info := by
        simpa [violationOf_before_init hi hinit] using h
      exact exec_before_init hi hinit
    | true =>
      rw [violationOf_inited hi hinit] at h
      cases i with
      | render => simp [checkOf] at h
      | _ => simp [Instr.opcode] at hr
  · rw [exec_eq hr, h]
    rfl

/-- RENDER after INIT: with its regions inside VRAM it is the Building step, unless it would raise a diagnostic
under Unchecked (R302). -/
theorem execRender_eq_next_iff {s t : State} (hinit : s.inited = true) :
    execRender s = .next t ↔
      s.regionsFit = true ∧ (s.policy = .unchecked → firstDiag s.build.diags = none) ∧ t = s.buildingStep := by
  rw [execRender, requireInit_inited hinit]
  cases s.regionsFit <;> cases s.policy <;> cases firstDiag s.build.diags <;> simp [eq_comm]

theorem execRender_refused {s : State} {code : DiagCode} (hinit : s.inited = true) (fits : s.regionsFit = true)
    (hpolicy : s.policy = .unchecked) (raises : firstDiag s.build.diags = some code) :
    execRender s = .refused (.uncheckedViolation code) := by
  rw [execRender, requireInit_inited hinit, if_pos fits, hpolicy, raises]

/-- What any command that answers a next state has done: raised one diagnostic, or its effect. -/
theorem exec_next {i : Instr} {s t : State} (h : exec i s = .next t) :
    Rejected s t ∨ (violationOf i s = none ∧ t = effectOf i s) := by
  by_cases hi : i.opcode = .render
  · cases i with
    | render =>
      exact (execRender_next h).imp_right fun ⟨hinit, _, _, ht⟩ =>
        ⟨violationOf_inited (by simp [Instr.opcode]) hinit, ht⟩
    | _ => simp [Instr.opcode] at hi
  · rw [exec_eq hi] at h
    cases hv : violationOf i s with
    | none =>
      rw [hv] at h
      exact .inr ⟨rfl, (Host.Outcome.next.inj h).symm⟩
    | some v =>
      rw [hv] at h
      exact .inl (.of_reject h)

/-! ## The write access of each command -/

@[simp] theorem effectOf_out {i : Instr} (hi : i.opcode ≠ .render) (s : State) : (effectOf i s).out = s.out := by
  cases i with
  | render => exact absurd rfl hi
  | writev bytes => rw [effectOf, State.writeVram_shape]
  | fillv byte len => rw [effectOf, State.writeVram_shape]
  | _ => rfl

/-- Settles O15: a command that adds to OUT has not done its effect, so it was rejected. -/
theorem rejectedCommandsChangeOnlyTheTrace : Obligations.RejectedCommandsChangeOnlyTheTrace := by
  intro i s t hi hexec hout
  rcases exec_next hexec with ⟨-, code, info, rfl⟩ | ⟨-, rfl⟩
  · exact ⟨code, BitVec.ofNat 32 info, rfl⟩
  · exact absurd (effectOf_out hi s) hout

/-- Settles O21: a rejection writes OUT only, and each effect writes its own registers and stores. -/
theorem onlyTheNamedCommandsWrite : Obligations.OnlyTheNamedCommandsWrite := by
  intro i s t hexec
  rcases exec_next hexec with ⟨-, code, info, rfl⟩ | ⟨-, rfl⟩
  · simp
  · cases i with
    | writev bytes => rw [effectOf, State.writeVram_shape]; simp [Instr.opcode]
    | fillv byte len => rw [effectOf, State.writeVram_shape]; simp [Instr.opcode]
    | render => rw [effectOf, State.buildingStep_shape]; simp [Instr.opcode]
    | writec words => simp [effectOf, State.writeColours, Instr.opcode]
    | fillc word len => simp [effectOf, State.writeColours, Instr.opcode]
    | _ => simp [effectOf, Instr.opcode]

/-! ## Before INIT, and INIT -/

/-- A diagnostic whose info is a bit string, zero-extended (R300). -/
theorem raise_toNat (code : DiagCode) {n : Nat} (x : BitVec n) (s : State) :
    s.raise code x.toNat = { s with out := s.out ++ [.diag code (x.setWidth 32)] } := by
  simp [State.raise, State.emit, diagEvent, BitVec.ofNat_toNat]

/-- Settles O13: the initialization check answers. -/
theorem commandsBeforeInitAreRejected : Obligations.CommandsBeforeInitAreRejected := by
  intro i s hi hinit hpolicy
  rw [exec_before_init hi hinit, reject_validated hpolicy, raise_toNat]

/-- Settles O16: INIT's one check is INITED. -/
theorem initIsAcceptedOnce : Obligations.InitIsAcceptedOnce := by
  intro vint hint s
  refine ⟨execInit_not_inited, fun hinit hpolicy => ?_⟩
  have again : violationOf (.init vint hint) s = some (.alreadyInit, 0x01) := by simp [violationOf_init, hinit]
  rw [exec_of_violation again, reject_validated hpolicy]
  rfl

/-! ## The commands with a check of their own -/

/-- After INIT a command that passes its check does its effect. -/
theorem exec_passes (i : Instr) {s : State} (hinit : s.inited = true) (h : checkOf s i = none)
    (hi : i.opcode ≠ .init := by simp [Instr.opcode]) (hr : i.opcode ≠ .render := by simp [Instr.opcode]) :
    exec i s = .next (effectOf i s) := by
  rw [exec_inited hi hr hinit, h]
  rfl

/-- After INIT, under Validated, a command that fails its check raises that violation. -/
theorem exec_fails (i : Instr) {s : State} {code : DiagCode} {info : Nat} (hinit : s.inited = true)
    (hpolicy : s.policy = .validated) (h : checkOf s i = some (code, info))
    (hi : i.opcode ≠ .init := by simp [Instr.opcode]) (hr : i.opcode ≠ .render := by simp [Instr.opcode]) :
    exec i s = .next (s.raise code info) := by
  rw [exec_inited hi hr hinit, h]
  exact reject_validated hpolicy

/-- Settles O23: the one check is that the offset is below VRAM_SIZE. -/
theorem seekvMovesAndClassifies : Obligations.SeekvMovesAndClassifies := by
  intro offset s hinit
  rw [← BitVec.ofNat_toNat]
  exact ⟨fun inside => exec_passes (.seekv offset) hinit (if_neg (Nat.not_le.mpr inside)),
    fun past hpolicy => exec_fails (.seekv offset) hinit hpolicy (if_pos past)⟩

/-- Settles O30: the one check is that the entry is below CRAM_WORDS. -/
theorem seekcMovesTheCursor : Obligations.SeekcMovesTheCursor := by
  intro offset s hinit
  rw [← BitVec.ofNat_toNat]
  exact ⟨fun inside => exec_passes (.seekc offset) hinit (if_neg (Nat.not_le.mpr inside)),
    fun past hpolicy => exec_fails (.seekc offset) hinit hpolicy (if_pos past)⟩

/-! ## The location setters and SETPSZ -/

/-- The mask of an alignment `2 ^ k` drops the low `k` bits. -/
theorem alignMask_two_pow (k : Nat) (offset : BitVec 24) : alignMask (2 ^ k) offset = (offset >>> k) <<< k := by
  ext i hi
  have maskBit : (BitVec.ofNat 24 (2 ^ k - 1))[i] = decide (i < k) := by
    rw [← BitVec.getLsbD_eq_getElem, BitVec.getLsbD_ofNat, Nat.testBit_two_pow_sub_one]
    simp [hi]
  rw [alignMask, BitVec.getElem_and, BitVec.getElem_not, maskBit, BitVec.getElem_shiftLeft]
  by_cases hik : i < k
  · simp [hik]
  · simp [hik, show k + (i - k) = i by omega, BitVec.getLsbD_eq_getElem hi]

/-- Settles O17: dropping the low bits is rounding down. -/
theorem alignMaskRoundsDown : Obligations.AlignMaskRoundsDown := by
  intro align offset hpow
  obtain ⟨k, rfl⟩ : ∃ k, align = 2 ^ k := ⟨align.log2, (beq_iff_eq.mp hpow).symm⟩
  have back : offset.toNat / 2 ^ k * 2 ^ k = offset.toNat - offset.toNat % 2 ^ k := by
    rw [Nat.mul_comm]
    exact Nat.mul_div_self_eq_mod_sub_self
  have small : offset.toNat / 2 ^ k * 2 ^ k < 2 ^ 24 := (Nat.div_mul_le_self _ _).trans_lt offset.isLt
  rw [alignMask_two_pow, BitVec.toNat_shiftLeft, BitVec.toNat_ushiftRight, Nat.shiftRight_eq_div_pow,
    Nat.shiftLeft_eq, Nat.mod_eq_of_lt small, back]

/-- Settles O18: the four setters share the check of the masked operand. -/
theorem locationSettersMaskThenCheck : Obligations.LocationSettersMaskThenCheck := by
  intro offset s hinit n mp ms mh
  refine ⟨fun fits => ⟨?_, ?_⟩, fun fits => ?_, fun fits => ?_, fun hpolicy =>
    ⟨fun past => ⟨?_, ?_⟩, fun past => ?_, fun past => ?_⟩⟩
  · exact exec_passes (.setpa offset) hinit (if_neg (Nat.not_lt.mpr fits))
  · exact exec_passes (.setpb offset) hinit (if_neg (Nat.not_lt.mpr fits))
  · exact exec_passes (.setspr offset) hinit (if_neg (Nat.not_lt.mpr fits))
  · exact exec_passes (.seths offset) hinit (if_neg (Nat.not_lt.mpr fits))
  · exact exec_fails (.setpa offset) hinit hpolicy (if_pos past)
  · exact exec_fails (.setpb offset) hinit hpolicy (if_pos past)
  · exact exec_fails (.setspr offset) hinit hpolicy (if_pos past)
  · exact exec_fails (.seths offset) hinit hpolicy (if_pos past)

/-- The arg value of SETPSZ (R184). -/
theorem toNat_height_append_width (width height : BitVec 8) :
    (height ++ width).toNat = 256 * height.toNat + width.toNat := by
  rw [BitVec.toNat_append, Nat.shiftLeft_eq, Nat.mul_comm, ← Nat.two_pow_add_eq_or_of_lt width.isLt]

/-- Settles O19: the three answers follow the order of the two checks. -/
theorem setpszChecksSizeThenRange : Obligations.SetpszChecksSizeThenRange := by
  intro width height s hinit legal n fits
  have hlegal : legalPlaneSize width height = true ↔ legal := legalPlaneSize_iff width height
  have hpast : s.cfg.vramSize < s.paBase.toNat + n ∨ s.cfg.vramSize < s.pbBase.toNat + n ↔ ¬fits := by
    simp only [fits, not_and_or, Nat.not_le]
  rw [← hlegal, ← toNat_height_append_width]
  refine ⟨fun isLegal fit => ?_, fun hpolicy illegal => ?_, fun hpolicy isLegal past => ?_⟩
  · refine exec_passes (.setpsz width height) hinit ?_
    rw [checkOf, isLegal]
    exact if_neg (not_not.mpr fit ∘ hpast.mp)
  · exact exec_fails (.setpsz width height) hinit hpolicy (if_pos (by simpa using illegal))
  · refine exec_fails (.setpsz width height) hinit hpolicy ?_
    rw [checkOf, isLegal]
    exact if_pos (hpast.mpr past)

end Sys2Proof.Machine
end

section
/-! SUPPORT. The input events, the two waits, the Presented step and reset (60_exceptions.md R311 to R316,
R326, R340; 47_frame_driver.md R283 to R286). -/

namespace Sys2Proof.Machine

/-! ## VBLANK -/

theorem State.vblank_presented {s : State} (h : s.phase = .presented) : s.vblank = s.present := by
  rw [State.vblank, h]

theorem State.vblank_ignored {s : State} (h : s.phase ≠ .presented) : s.vblank = s := by
  unfold State.vblank
  cases hp : s.phase with
  | presented => exact absurd hp h
  | building => rfl
  | flushed => rfl

/-- The Flushed step is not enabled outside the GPU wait. -/
theorem flushEnabled_of_phase {s : State} (h : s.phase ≠ .flushed) : s.flushEnabled = false :=
  Bool.eq_false_iff.mpr fun enabled => h (flushEnabled_iff.mp enabled).1

theorem flushEnabled_of_busy {s : State} (h : s.gpuBusy = true) : s.flushEnabled = false :=
  Bool.eq_false_iff.mpr fun enabled => Bool.noConfusion ((flushEnabled_iff.mp enabled).2.symm.trans h)

/-! ## One step that takes an event -/

section
variable {s : State} {rest : List Input}

theorem step_gpuDone (next : s.nextInput = some (.gpuDone, rest)) (disabled : s.flushEnabled = false) :
    step s = .next { s with inputs := rest, gpuBusy := false } :=
  step_input next (by simp [disabled])

theorem step_vblank_lost (next : s.nextInput = some (.vblank, rest)) (disabled : s.flushEnabled = false)
    (hphase : s.phase ≠ .presented) : step s = .next { s with inputs := rest } :=
  (step_input next (by simp [disabled])).trans (congrArg Host.Outcome.next (State.vblank_ignored hphase))

theorem step_vblank_present (next : s.nextInput = some (.vblank, rest)) (hphase : s.phase = .presented) :
    step s = .next ({ s with inputs := rest } : State).present :=
  (step_input next (by simp [flushEnabled_of_phase, hphase])).trans
    (congrArg Host.Outcome.next (State.vblank_presented hphase))

/-- Of the two at the same instant GPU_DONE is first, and the VBLANK is lost outside its wait (R316). -/
theorem step_both_lost (next : s.nextInput = some (.gpuDoneAndVblank, rest)) (disabled : s.flushEnabled = false)
    (hphase : s.phase ≠ .presented) : step s = .next { s with inputs := rest, gpuBusy := false } :=
  (step_input next (by simp [disabled])).trans (congrArg Host.Outcome.next (State.vblank_ignored hphase))

/-- The Presented step makes the GPU busy, whatever GPU_DONE did before it (R316). -/
theorem step_both_present (next : s.nextInput = some (.gpuDoneAndVblank, rest)) (hphase : s.phase = .presented) :
    step s = .next ({ s with inputs := rest } : State).present :=
  (step_input next (by simp [flushEnabled_of_phase, hphase])).trans
    (congrArg Host.Outcome.next (State.vblank_presented hphase))

theorem step_reset {strap : Policy} (next : s.nextInput = some (.reset strap, rest)) :
    step s = .next (State.powerOn s.cfg strap (s.resets + 1) rest) :=
  step_input next fun _ => rfl

end

/-- Settles O9: the events one by one. -/
theorem inputEventsHaveTheirEffect : Obligations.InputEventsHaveTheirEffect := by
  refine ⟨fun s rest => step_gpuDone, fun s rest => step_vblank_lost, fun s rest => step_vblank_present,
    fun s rest next => ⟨fun hphase busy => ?_, step_both_present next, fun hphase => ?_⟩⟩
  · exact step_both_lost next (flushEnabled_of_busy busy) (by simp [hphase])
  · exact step_both_lost next (flushEnabled_of_phase (by simp [hphase])) (by simp [hphase])

/-- Settles O11: reset goes before everything else. -/
theorem resetInputResets : Obligations.ResetInputResets := fun _ _ _ next => step_reset next

/-! ## The waits -/

/-- Settles O10: at either wait the Flushed step is not enabled, so with words only there is nothing to do,
and an event that is not awaited changes at most GPU_BUSY. -/
theorem waitingRetainsAllState : Obligations.WaitingRetainsAllState := by
  intro s waiting
  have disabled : s.flushEnabled = false := by
    rcases waiting with ⟨-, busy⟩ | presented
    · exact flushEnabled_of_busy busy
    · exact flushEnabled_of_phase (by simp [presented])
  have rendering : s.phase ≠ .building := by
    rcases waiting with ⟨flushed, -⟩ | presented <;> simp [*]
  refine ⟨fun onlyWords => ?_, fun i rest next notReset awaited => ?_⟩
  · refine step_idle ?_ disabled
    unfold State.nextInput
    cases hphase : s.phase with
    | building => exact absurd hphase rendering
    | flushed => exact oldestEvent_words onlyWords
    | presented => exact oldestEvent_words onlyWords
  · cases i with
    | word w => exact absurd (nextInput_render rendering next).1 (by simp [Input.isWord])
    | reset strap => simp [Input.isReset] at notReset
    | gpuDone => exact ⟨false, step_gpuDone next disabled⟩
    | vblank => exact ⟨s.gpuBusy, step_vblank_lost next disabled fun h => by simpa using awaited h⟩
    | gpuDoneAndVblank => exact ⟨false, step_both_lost next disabled fun h => by simpa using awaited h⟩

/-! ## The Presented step -/

/-- The draw list bin by bin (R286). -/
theorem Slot.drawList_eq (sl : Slot) : sl.drawList =
    sl.bins[0].reverse ++ sl.bins[1].reverse ++ sl.bins[2].reverse ++ sl.bins[3].reverse ++ sl.bins[4].reverse ++
      sl.bins[5].reverse := by
  obtain ⟨⟨⟨l⟩, hl⟩, n⟩ := sl
  match l, hl with
  | [b0, b1, b2, b3, b4, b5], _ => simp [Slot.drawList, Vector.toList]

theorem SlotId.other_eq (i : SlotId) : i.other = if i = .zero then .one else .zero := by cases i <;> rfl
theorem SlotId.disp_eq (i : SlotId) : i.disp = if i = .one then .fb1 else .fb0 := by cases i <;> rfl
theorem SlotId.draw_eq (i : SlotId) : i.draw = if i = .one then .fb0 else .fb1 := by cases i <;> rfl
theorem State.slot_bins_eq (s : State) (i : SlotId) :
    (s.slot i).bins = if i = .one then s.slot1.bins else s.slot0.bins := by cases i <;> rfl

/-- Settles O51: the step is `present`, its slot, viewports and draw list written out. -/
theorem presentInstallsSubmitsAndFlips : Obligations.PresentInstallsSubmitsAndFlips := by
  intro s rest hphase next back disp draw bins list
  have hback : s.front.other = back := SlotId.other_eq s.front
  have hdisp : back.disp = disp := SlotId.disp_eq back
  have hdraw : back.draw = draw := SlotId.draw_eq back
  have hlist : (s.slot back).drawList = list := by
    rw [Slot.drawList_eq, State.slot_bins_eq]
  have hslot : ({ s with inputs := rest } : State).slot back = s.slot back := by cases back <;> rfl
  rw [step_vblank_present next hphase]
  simp only [State.present, State.presentEvents, hback, hslot, hdisp, hdraw, hlist, List.append_assoc]

/-! ## The state after reset -/

/-- Settles O12: every field is written out in `State.powerOn`, and an unwritten store reads its free values. -/
theorem stateAfterReset : Obligations.StateAfterReset := by
  refine ⟨rfl, fun cfg strap k inputs => ?_⟩
  refine ⟨⟨rfl, rfl, rfl⟩, ⟨rfl, rfl, rfl, rfl, rfl, rfl⟩, ⟨rfl, rfl, rfl, rfl⟩, ⟨rfl, rfl, rfl, rfl⟩,
    ⟨rfl, rfl, rfl, rfl, rfl⟩, ⟨rfl, rfl, rfl⟩, fun i => ?_, ⟨rfl, rfl⟩, rfl, ⟨rfl, rfl, rfl⟩,
    fun _ => rfl, fun _ => rfl, fun _ => rfl, fun _ => rfl, fun _ => rfl, fun i h => ?_⟩
  · have empty : (State.powerOn cfg strap k inputs).slot i = Slot.empty := by cases i <;> rfl
    exact empty ▸ ⟨Slot.empty_count, Slot.empty_bins⟩
  · simp [State.powerOn]

end Sys2Proof.Machine
end

section
/-! SUPPORT. Everything a step can do, once; what it adds to OUT; and what no step changes (10_state.md R50,
20_memory.md R73, 60_exceptions.md R300, R312, R316). -/

namespace Sys2Proof.Machine

/-! ## Everything a step can do -/

/-- A step from `s` that answers `t`. -/
inductive Stepped (s : State) : State → Prop
  /-- Nothing to do. -/
  | idle : Stepped s s
  /-- The enabled Flushed step. -/
  | flushed (enabled : s.flushEnabled = true) (fits : s.regionsFit = true) :
      Stepped s { s.flush with phase := .presented }
  /-- The open port reports an illegal header. -/
  | illegal (rest : List Input) (info : Nat) (isOpen : s.phase = .building) :
      Stepped s (State.raise .illegalCmd info { s with rx := none, inputs := rest })
  /-- The open port keeps a word of a command. -/
  | received (rest : List Input) (p : Partial) (isOpen : s.phase = .building)
      (keeps : (∀ q, s.rx = some q → q.ok = true) → p.ok = true) :
      Stepped s { s with rx := some p, inputs := rest }
  /-- The open port takes the last word of a command. -/
  | command (rest : List Input) (i : Instr) (t : State) (isOpen : s.phase = .building)
      (runs : exec i { s with rx := none, inputs := rest } = .next t) : Stepped s t
  /-- GPU_DONE, or GPU_DONE together with a VBLANK that no RENDER waits for. -/
  | gpuDone (i : Input) (rest : List Input) (next : s.nextInput = some (i, rest)) (event : i.isWord = false) :
      Stepped s { s with inputs := rest, gpuBusy := false }
  /-- A VBLANK that no RENDER waits for. -/
  | lost (i : Input) (rest : List Input) (next : s.nextInput = some (i, rest)) (event : i.isWord = false) :
      Stepped s { s with inputs := rest }
  /-- The VBLANK that RENDER waits for. -/
  | present (i : Input) (rest : List Input) (next : s.nextInput = some (i, rest)) (event : i.isWord = false)
      (waits : s.phase = .presented) : Stepped s ({ s with inputs := rest } : State).present
  /-- The reset input. -/
  | reset (strap : Policy) (rest : List Input) (presented : Input.reset strap ∈ s.inputs) :
      Stepped s (State.powerOn s.cfg strap (s.resets + 1) rest)

/-- A word is taken only while the port is open. -/
theorem isOpen_of_word {s : State} {w : Word} {rest : List Input} (next : s.nextInput = some (.word w, rest)) :
    s.phase = .building :=
  not_not.mp fun closed => Bool.noConfusion (nextInput_render closed next).1

/-- What the open port makes of a word. -/
theorem stepped_of_acceptWord {s t : State} {w : Word} {rest : List Input} (isOpen : s.phase = .building)
    (h : acceptWord w { s with inputs := rest } = .next t) : Stepped s t := by
  rcases acceptWord_cases w { s with inputs := rest } with ⟨hrx, -, e⟩ | ⟨o, hrx, -, -, e⟩ | ⟨o, hrx, ho, hn, e⟩ |
    ⟨p, hrx, -, -, e⟩ | ⟨p, o, hrx, -, -, e⟩ | ⟨p, hrx, hleft, e⟩ <;> rw [e] at h
  · obtain rfl := Host.Outcome.next.inj h
    rw [← State.forget_rx hrx rest]
    exact .illegal rest _ isOpen
  · rw [← State.forget_rx hrx rest] at h
    exact .command rest _ t isOpen h
  · obtain rfl := Host.Outcome.next.inj h
    exact .received rest _ isOpen fun _ => by simp [Partial.ok, ho]; omega
  · obtain rfl := Host.Outcome.next.inj h
    exact .illegal rest _ isOpen
  · exact .command rest _ t isOpen h
  · obtain rfl := Host.Outcome.next.inj h
    refine .received rest _ isOpen fun hok => ?_
    have hp := hok p hrx
    simp only [Partial.ok, Bool.and_eq_true, decide_eq_true_eq, List.length_append, List.length_singleton] at hp ⊢
    obtain ⟨⟨hlegal, -⟩, hcount⟩ := hp
    exact ⟨⟨hlegal, by omega⟩, by omega⟩

/-- What an input that is taken does. -/
theorem stepped_of_takeInput {s t : State} {i : Input} {rest : List Input} (next : s.nextInput = some (i, rest))
    (h : takeInput i { s with inputs := rest } = .next t) : Stepped s t := by
  cases i with
  | word w => exact stepped_of_acceptWord (isOpen_of_word next) h
  | gpuDone =>
    obtain rfl := Host.Outcome.next.inj h
    exact .gpuDone _ rest next rfl
  | reset strap =>
    obtain rfl := Host.Outcome.next.inj h
    exact .reset strap rest (nextInput_mem next).1
  | vblank =>
    obtain rfl := Host.Outcome.next.inj h
    by_cases waits : s.phase = .presented
    · rw [State.vblank_presented (s := { s with inputs := rest }) waits]
      exact .present _ rest next rfl waits
    · rw [State.vblank_ignored (s := { s with inputs := rest }) waits]
      exact .lost _ rest next rfl
  | gpuDoneAndVblank =>
    obtain rfl := Host.Outcome.next.inj h
    by_cases waits : s.phase = .presented
    · rw [State.vblank_presented (s := State.gpuDone { s with inputs := rest }) waits]
      exact .present _ rest next rfl waits
    · rw [State.vblank_ignored (s := State.gpuDone { s with inputs := rest }) waits]
      exact .gpuDone _ rest next rfl

/-- Every step that answers a next state is one of these. -/
theorem stepped_of_step {s t : State} (h : step s = .next t) : Stepped s t := by
  rcases step_cases s with ⟨enabled, -, e⟩ | ⟨i, rest, next, first, e⟩ | ⟨-, -, e⟩
  · obtain ⟨fits, rfl⟩ := flushedStep_next (e.symm.trans h)
    exact .flushed enabled fits
  · exact stepped_of_takeInput next (e.symm.trans h)
  · obtain rfl := Host.Outcome.next.inj (e.symm.trans h)
    exact .idle

/-! ## The events a step adds -/

/-- A diagnostic event. -/
def isDiag (e : OutEvent) : Prop := ∃ code info, e = .diag code info

/-- Diagnostics are not VINT. -/
theorem vintCount_diags {es : List OutEvent} (h : ∀ e ∈ es, isDiag e) : vintCount es = 0 :=
  List.countP_eq_zero.mpr fun e he => by
    obtain ⟨code, info, rfl⟩ := h e he
    simp

theorem vintCount_append (es fs : List OutEvent) : vintCount (es ++ fs) = vintCount es + vintCount fs :=
  List.countP_append

/-- Diagnostics appended to OUT are appended to DIAG (R50). -/
theorem diagStream_append_diags {s t : State} {es : List OutEvent} (hout : t.out = s.out ++ es)
    (h : ∀ e ∈ es, isDiag e) : t.diagStream = s.diagStream ++ es := by
  rw [State.diagStream, hout, List.filter_append]
  refine congrArg (s.diagStream ++ ·) (List.filter_eq_self.mpr fun e he => ?_)
  obtain ⟨code, info, rfl⟩ := h e he
  rfl

/-- Other events leave DIAG as it is. -/
theorem diagStream_append_others {s t : State} {es : List OutEvent} (hout : t.out = s.out ++ es)
    (h : ∀ e ∈ es, ¬isDiag e) : t.diagStream = s.diagStream := by
  rw [State.diagStream, hout, List.filter_append]
  refine (congrArg (s.diagStream ++ ·) (List.filter_eq_nil_iff.mpr fun e he => ?_)).trans (List.append_nil _)
  cases e with
  | diag code info => exact absurd ⟨code, info, rfl⟩ (h _ he)
  | _ => simp

/-- A command adds diagnostics to OUT and nothing else. -/
theorem exec_out {i : Instr} {s t : State} (h : exec i s = .next t) :
    ∃ es, t.out = s.out ++ es ∧ ∀ e ∈ es, isDiag e := by
  rcases exec_next h with ⟨-, code, info, rfl⟩ | ⟨-, rfl⟩
  · exact ⟨[diagEvent code info], rfl, fun e he => ⟨code, _, List.mem_singleton.mp he⟩⟩
  · by_cases hi : i.opcode = .render
    · cases i with
      | render =>
        refine ⟨s.build.diags, by rw [effectOf, State.buildingStep_shape], fun e he => ?_⟩
        obtain ⟨code, info, rfl⟩ := State.build_diags he
        exact ⟨code, _, rfl⟩
      | _ => simp [Instr.opcode] at hi
    · exact ⟨[], by rw [effectOf_out hi, List.append_nil], by simp⟩

/-- No event of the Presented step is a diagnostic. -/
theorem State.presentEvents_not_diag {s : State} {e : OutEvent} (h : e ∈ s.presentEvents) : ¬isDiag e := by
  rintro ⟨code, info, rfl⟩
  simp [State.presentEvents] at h

theorem State.vintCount_presentEvents (s : State) : vintCount s.presentEvents = if s.vintEn then 1 else 0 := by
  cases hv : s.vintEn <;> simp [State.presentEvents, vintCount, hv]

theorem vintCount_flushEvents (s : State) (pal : Vector PalRecord cramEntries) : vintCount (s.flushEvents pal) = 0 :=
  List.countP_eq_zero.mpr fun _ he => by simpa using (State.flushEvents_kind he).1

/-- Settles O59: the Presented step pulses VINT, and no other step adds one. -/
theorem oneVintPerFrame : Obligations.OneVintPerFrame := by
  intro s t noReset h
  cases stepped_of_step h with
  | idle => cases hphase : s.phase <;> simp
  | flushed enabled fits =>
    simp [State.flush_shape, vintCount_append, vintCount_flushEvents]
  | illegal rest info isOpen =>
    simp [isOpen, vintCount_append, vintCount_diags (es := [diagEvent .illegalCmd info]) (by simp [isDiag, diagEvent])]
  | received rest p isOpen keeps => simp [isOpen]
  | command rest i t isOpen runs =>
    obtain ⟨es, hout, diags⟩ := exec_out runs
    simp [isOpen, hout, vintCount_append, vintCount_diags diags]
  | gpuDone i rest next event => cases hphase : s.phase <;> simp
  | lost i rest next event => cases hphase : s.phase <;> simp
  | present i rest next event waits =>
    simp [State.present, waits, vintCount_append, State.vintCount_presentEvents]
  | reset strap rest presented => exact absurd presented (noReset strap)

/-! ## What a RENDER in progress keeps -/

/-- Settles O8: outside Building a step takes an event or runs the Flushed step, and neither touches the words,
the receiver or DIAG. -/
theorem portStallsDuringRender : Obligations.PortStallsDuringRender := by
  intro s t rendering noReset h
  cases stepped_of_step h with
  | idle => exact ⟨rfl, rfl, rfl⟩
  | flushed enabled fits =>
    refine ⟨by simp [State.flush_shape], by simp [State.flush_shape],
      diagStream_append_others (es := s.flushEvents s.palStage) (by simp [State.flush_shape]) fun e he => ?_⟩
    rintro ⟨code, info, hdiag⟩
    exact (State.flushEvents_kind he).2 code info hdiag
  | illegal rest info isOpen => exact absurd isOpen rendering
  | received rest p isOpen keeps => exact absurd isOpen rendering
  | command rest i t isOpen runs => exact absurd isOpen rendering
  | gpuDone i rest next event => exact ⟨(nextInput_render rendering next).2, rfl, rfl⟩
  | lost i rest next event => exact ⟨(nextInput_render rendering next).2, rfl, rfl⟩
  | present i rest next event waits =>
    exact ⟨(nextInput_render rendering next).2, rfl,
      diagStream_append_others rfl fun _ => State.presentEvents_not_diag⟩
  | reset strap rest presented => exact absurd presented (noReset strap)

/-! ## What no step changes -/

/-- A command leaves the shadows: RENDER's first step only stages the palette. -/
theorem exec_keeps_shadows {i : Instr} {s t : State} (h : exec i s = .next t) :
    t.texRaw = s.texRaw ∧ t.texALo = s.texALo ∧ t.texAHi = s.texAHi ∧ t.texBLo = s.texBLo ∧ t.palOut = s.palOut := by
  rcases exec_next h with ⟨-, code, info, rfl⟩ | ⟨-, rfl⟩
  · exact ⟨rfl, rfl, rfl, rfl, rfl⟩
  · cases i with
    | writev bytes =>
      rw [effectOf, State.writeVram_shape]
      exact ⟨rfl, rfl, rfl, rfl, rfl⟩
    | fillv byte len =>
      rw [effectOf, State.writeVram_shape]
      exact ⟨rfl, rfl, rfl, rfl, rfl⟩
    | render =>
      rw [effectOf, State.buildingStep_shape]
      exact ⟨rfl, rfl, rfl, rfl, rfl⟩
    | _ => exact ⟨rfl, rfl, rfl, rfl, rfl⟩

/-- Settles O60: only the Flushed step writes the shadows, and it waits for the GPU. -/
theorem noUploadWhileTheGpuIsBusy : Obligations.NoUploadWhileTheGpuIsBusy := by
  intro s t noReset busy h
  cases stepped_of_step h with
  | flushed enabled fits => simp [flushEnabled_of_busy busy] at enabled
  | command rest i t isOpen runs => exact exec_keeps_shadows (s := { s with rx := none, inputs := rest }) runs
  | reset strap rest presented => exact absurd presented (noReset strap)
  | _ => exact ⟨rfl, rfl, rfl, rfl, rfl⟩

/-- A command keeps the parameters and the strap, and INITED with the two enables once it is 1. -/
theorem exec_keeps_strap {i : Instr} {s t : State} (h : exec i s = .next t) :
    t.cfg = s.cfg ∧ t.policy = s.policy ∧ (s.inited = true →
      t.inited = true ∧ t.vintEn = s.vintEn ∧ t.hintEn = s.hintEn) := by
  rcases exec_next h with ⟨-, code, info, rfl⟩ | ⟨accepted, rfl⟩
  · exact ⟨rfl, rfl, fun hinit => ⟨hinit, rfl, rfl⟩⟩
  · cases i with
    | init vint hint =>
      refine ⟨rfl, rfl, fun hinit => ?_⟩
      simp [violationOf_init, hinit] at accepted
    | writev bytes =>
      rw [effectOf, State.writeVram_shape]
      exact ⟨rfl, rfl, fun hinit => ⟨hinit, rfl, rfl⟩⟩
    | fillv byte len =>
      rw [effectOf, State.writeVram_shape]
      exact ⟨rfl, rfl, fun hinit => ⟨hinit, rfl, rfl⟩⟩
    | render =>
      rw [effectOf, State.buildingStep_shape]
      exact ⟨rfl, rfl, fun hinit => ⟨hinit, rfl, rfl⟩⟩
    | _ => exact ⟨rfl, rfl, fun hinit => ⟨hinit, rfl, rfl⟩⟩

/-- Settles O56: only reset samples the strap, and INIT is accepted once. -/
theorem strapAndInitedAreLasting : Obligations.StrapAndInitedAreLasting := by
  intro s t h
  cases stepped_of_step h with
  | flushed enabled fits =>
    rw [State.flush_shape]
    exact ⟨rfl, fun _ => ⟨rfl, fun hinit => ⟨hinit, rfl, rfl⟩⟩⟩
  | command rest i t isOpen runs =>
    obtain ⟨hcfg, hpolicy, hinit⟩ := exec_keeps_strap runs
    exact ⟨hcfg, fun _ => ⟨hpolicy, hinit⟩⟩
  | reset strap rest presented => exact ⟨rfl, fun noReset => absurd presented (noReset strap)⟩
  | _ => exact ⟨rfl, fun _ => ⟨rfl, fun hinit => ⟨hinit, rfl, rfl⟩⟩⟩

end Sys2Proof.Machine
end

section
/-! SUPPORT. The invariant: it holds after reset, every step keeps it, and under it no step faults
(10_state.md, 20_memory.md R63 to R73). -/

namespace Sys2Proof.Machine

/-! ## Reset -/

/-- The machine after reset is well formed for every legal configuration. -/
theorem powerOn_wf {cfg : Config} (legal : cfg.legal = true) (strap : Policy) (k : Nat) (inputs : List Input) :
    (State.powerOn cfg strap k inputs).Wf where
  cfgLegal := legal
  vramOk := Memory.ok_unwritten .vram k cfg.vramSize
  texRawOk := Memory.ok_unwritten .texRaw k cfg.vramSize
  texALoOk := Memory.ok_unwritten .texALo k _
  texAHiOk := Memory.ok_unwritten .texAHi k _
  texBLoOk := Memory.ok_unwritten .texBLo k _
  vcurRange := Nat.zero_le _
  ccurRange := Nat.zero_le _
  paAligned := Nat.dvd_zero _
  pbAligned := Nat.dvd_zero _
  sprAligned := Nat.dvd_zero _
  hsAligned := Nat.dvd_zero _
  regions := by
    have facts := configFacts legal
    have hvram := facts.vram
    have hslots := facts.slots
    have hheight := facts.height
    rw [State.regionsFit_iff]
    have size : nametableBytes 64 32 = 4096 := rfl
    have base : (0 : BitVec 16).toNat = 0 := rfl
    refine ⟨(by decide : legalPlaneSize 64 32 = true), ?_, ?_, ?_, ?_⟩ <;>
      simp only [State.powerOn, size, base, spriteTableBytes, scrollTableBytes] <;> omega
  blkOk := rfl
  tileAOk := rfl
  tileBOk := rfl
  palStageOk := by simp [State.powerOn, PalRecord.fits_clip]
  palOutOk := by simp [State.powerOn, PalRecord.fits_clip]
  slot0Ok := Slot.ok_empty _
  slot1Ok := Slot.ok_empty _
  dispFront := rfl
  drawFront := rfl
  rxOk := nofun
  renderInited := fun h => absurd rfl h
  presentedIdle := nofun

/-- Settles O53: the default parameters are legal too. -/
theorem resetIsWellFormed : Obligations.ResetIsWellFormed :=
  ⟨powerOn_wf (by decide) .validated 0 [], fun _ strap k inputs legal => powerOn_wf legal strap k inputs⟩

/-! ## The flags after a write -/

/-- The last tile of a range clipped to a plane is one of its tiles. -/
theorem last_tile_lt {base stop n tiles : Nat} (hn : n ≤ 2 * tiles) (hne : base < min stop (base + n)) :
    (min stop (base + n) - 1 - base) / 2 < tiles := by omega

theorem State.markTiles_flags_wf {s : State} (h : s.Wf) (p : Plane) (a b : Nat) :
    FlagSet.wf (s.markTiles p a b).dirtyTileA s.cfg.maxTiles = true ∧
      FlagSet.wf (s.markTiles p a b).dirtyTileB s.cfg.maxTiles = true := by
  have tiles : nametableBytes s.pw s.ph ≤ 2 * s.cfg.maxTiles :=
    (configFacts h.cfgLegal).tiles ▸ (sizeFacts h.legalSize).bytes.2
  simp only [State.markTiles]
  split
  · next nonempty =>
    have marked {f : FlagSet} (hf : FlagSet.wf f s.cfg.maxTiles = true) :
        FlagSet.wf (FlagSet.mark f ((max a (s.planeBase p).toNat - (s.planeBase p).toNat) / 2)
          ((min b ((s.planeBase p).toNat + nametableBytes s.pw s.ph) - 1 - (s.planeBase p).toNat) / 2))
          s.cfg.maxTiles = true :=
      FlagSet.wf_mark hf (by omega) (last_tile_lt tiles (by omega))
    cases p with
    | a => exact ⟨marked h.tileAOk, h.tileBOk⟩
    | b => exact ⟨h.tileAOk, marked h.tileBOk⟩
  · exact ⟨h.tileAOk, h.tileBOk⟩

/-- Marking a range inside VRAM keeps the three arrays in range. -/
theorem State.markDirty_flags_wf {s : State} (h : s.Wf) {a b : Nat} (hab : a ≤ b) (hb : b ≤ s.cfg.vramSize) :
    FlagSet.wf (s.markDirty a b).dirtyBlk s.cfg.numBlocks = true ∧
    FlagSet.wf (s.markDirty a b).dirtyTileA s.cfg.maxTiles = true ∧
    FlagSet.wf (s.markDirty a b).dirtyTileB s.cfg.maxTiles = true := by
  unfold State.markDirty
  split
  · exact ⟨h.blkOk, h.tileAOk, h.tileBOk⟩
  · next hne =>
    cases s.vclass with
    | none =>
      refine ⟨?_, h.tileAOk, h.tileBOk⟩
      exact FlagSet.wf_mark h.blkOk (Nat.div_le_div_right (by omega)) (block_lt h.cfgLegal (by omega))
    | planeA => exact ⟨by simp only [State.markTiles]; split <;> exact h.blkOk, State.markTiles_flags_wf h .a a b⟩
    | planeB => exact ⟨by simp only [State.markTiles]; split <;> exact h.blkOk, State.markTiles_flags_wf h .b a b⟩
    | other => exact ⟨h.blkOk, h.tileAOk, h.tileBOk⟩

/-! ## The commands -/

/-- An accepted write keeps the invariant. -/
theorem State.Wf.writeVram {s : State} (h : s.Wf) {bytes : List Byte}
    (fits : s.vcur.toNat + bytes.length ≤ s.cfg.vramSize) : (s.writeVram bytes).Wf := by
  obtain ⟨hblk, htileA, htileB⟩ := State.markDirty_flags_wf h (Nat.le_add_right s.vcur.toNat bytes.length) fits
  rw [State.writeVram_shape]
  exact { h with
    vramOk := Memory.ok_write _ _ h.vramOk fits
    vcurRange := (Nat.mod_le _ _).trans fits
    blkOk := hblk
    tileAOk := htileA
    tileBOk := htileB }

theorem State.Wf.writeColours {s : State} (h : s.Wf) {words : List Half}
    (fits : s.ccur.toNat + words.length ≤ s.cfg.cramWords) : (s.writeColours words).Wf :=
  { h with ccurRange := (Nat.mod_le _ _).trans fits }

/-- A masked operand is a multiple of its alignment (R179). -/
theorem dvd_alignMask {align : Nat} (hpow : powerOfTwo align = true) (offset : BitVec 24) :
    align ∣ (alignMask align offset).toNat := by
  rw [alignMaskRoundsDown align offset hpow]
  exact Nat.dvd_sub_mod _

/-- The base a location setter stores is its masked operand, aligned and with its region inside VRAM. -/
theorem stored_base {s : State} (h : s.Wf) {align size : Nat} {offset : BitVec 24}
    (hpow : powerOfTwo align = true) (hsize : 0 < size) (passes : checkOf.locationCheck s align size offset = none) :
    align ∣ (BitVec.ofNat 16 (alignMask align offset).toNat).toNat ∧
      (BitVec.ofNat 16 (alignMask align offset).toNat).toNat + size ≤ s.cfg.vramSize := by
  have fits : (alignMask align offset).toNat + size ≤ s.cfg.vramSize := by
    simpa [checkOf.locationCheck] using passes
  rw [base_toNat h.cfgLegal fits hsize]
  exact ⟨dvd_alignMask hpow offset, fits⟩

/-- RENDER's Building step keeps the invariant. -/
theorem State.Wf.buildingStep {s : State} (h : s.Wf) (hinit : s.inited = true) (hrx : s.rx = none) :
    s.buildingStep.Wf := by
  have built := s.build_ok
  rw [State.buildingStep_shape]
  exact { h with
    slot0Ok := by cases s.front; exacts [h.slot0Ok, built]
    slot1Ok := by cases s.front; exacts [built, h.slot1Ok]
    palStageOk := convertPalette_fits h.cfgLegal s.cram
    renderInited := fun _ => ⟨hinit, hrx⟩
    presentedIdle := nofun }

/-- What an accepted command does keeps the invariant, at an empty receiver. -/
theorem effectOf_wf {s : State} (h : s.Wf) (hrx : s.rx = none) {i : Instr} (accepted : violationOf i s = none) :
    (effectOf i s).Wf := by
  obtain ⟨hsize, hpa, hpb, hspr, hhs⟩ := (State.regionsFit_iff s).mp h.regions
  have facts := configFacts h.cfgLegal
  have sizes := sizeFacts hsize
  by_cases hi : i.opcode = .init
  · cases i with
    | init vint hint => exact { h with renderInited := fun hp => ⟨rfl, hrx⟩ }
    | _ => simp [Instr.opcode] at hi
  · have hinit := inited_of_accepted hi accepted
    rw [violationOf_inited hi hinit] at accepted
    cases i with
    | init vint hint => exact absurd rfl hi
    | seekv offset =>
      have inside : offset.toNat < s.cfg.vramSize := by simpa [checkOf] using accepted
      exact { h with vcurRange := (Nat.mod_le _ _).trans inside.le }
    | writev bytes => exact h.writeVram (by simpa [checkOf] using accepted)
    | fillv byte len => exact h.writeVram (by simpa [checkOf] using accepted)
    | seekc offset =>
      have inside : offset.toNat < s.cfg.cramWords := by simpa [checkOf] using accepted
      exact { h with ccurRange := (Nat.mod_le _ _).trans inside.le }
    | writec words => exact h.writeColours (by simpa [checkOf] using accepted)
    | fillc word len => exact h.writeColours (by simpa [checkOf] using accepted)
    | setpa offset =>
      obtain ⟨aligned, fits⟩ := stored_base h facts.plane sizes.bytes.1 accepted
      exact { h with paAligned := aligned, regions := (State.regionsFit_iff _).mpr ⟨hsize, fits, hpb, hspr, hhs⟩ }
    | setpb offset =>
      obtain ⟨aligned, fits⟩ := stored_base h facts.plane sizes.bytes.1 accepted
      exact { h with pbAligned := aligned, regions := (State.regionsFit_iff _).mpr ⟨hsize, hpa, fits, hspr, hhs⟩ }
    | setspr offset =>
      have nonempty : 0 < spriteTableBytes s.cfg := Nat.mul_pos (by decide) facts.slots.1
      obtain ⟨aligned, fits⟩ := stored_base h facts.sprite nonempty accepted
      exact { h with sprAligned := aligned, regions := (State.regionsFit_iff _).mpr ⟨hsize, hpa, hpb, fits, hhs⟩ }
    | seths offset =>
      have nonempty : 0 < scrollTableBytes s.cfg := Nat.mul_pos (by decide) facts.height.1
      obtain ⟨aligned, fits⟩ := stored_base h facts.hscroll nonempty accepted
      exact { h with hsAligned := aligned, regions := (State.regionsFit_iff _).mpr ⟨hsize, hpa, hpb, hspr, fits⟩ }
    | setpsz width height =>
      cases legal : legalPlaneSize width height with
      | false => simp [checkOf, legal] at accepted
      | true =>
        obtain ⟨fitA, fitB⟩ : s.paBase.toNat + nametableBytes width height ≤ s.cfg.vramSize ∧
            s.pbBase.toNat + nametableBytes width height ≤ s.cfg.vramSize := by
          simpa [checkOf, legal] using accepted
        exact { h with regions := (State.regionsFit_iff _).mpr ⟨legal, fitA, fitB, hspr, hhs⟩ }
    | setbg index => exact { h with }
    | setvs a b => exact { h with }
    | sethint line => exact { h with }
    | render => exact h.buildingStep hinit hrx

theorem exec_wf {s t : State} {i : Instr} (h : s.Wf) (hrx : s.rx = none) (runs : exec i s = .next t) : t.Wf := by
  rcases exec_next runs with ⟨-, code, info, rfl⟩ | ⟨accepted, rfl⟩
  · exact { h with }
  · exact effectOf_wf h hrx accepted

/-! ## The Flushed and the Presented step -/

theorem State.Wf.flush {s : State} (h : s.Wf) (enabled : s.flushEnabled = true) :
    ({ s.flush with phase := .presented } : State).Wf := by
  obtain ⟨hphase, idle⟩ := flushEnabled_iff.mp enabled
  obtain ⟨hlo, hhi, hb⟩ := State.flushedLayers_ok (s := s) ⟨h.texALoOk, h.texAHiOk, h.texBLoOk⟩ h.legalSize
  rw [State.flush_shape]
  exact { h with
    texRawOk := State.copiedBlocks_ok_of_wf h
    texALoOk := hlo
    texAHiOk := hhi
    texBLoOk := hb
    blkOk := rfl
    tileAOk := rfl
    tileBOk := rfl
    palOutOk := h.palStageOk
    renderInited := fun _ => h.renderInited (by simp [hphase])
    presentedIdle := fun _ => idle }

theorem State.Wf.present {s : State} (h : s.Wf) : s.present.Wf :=
  { h with
    dispFront := rfl
    drawFront := rfl
    renderInited := fun building => absurd rfl building
    presentedIdle := nofun }

/-! ## Every step -/

/-- Settles O54: each thing a step can do keeps the invariant. -/
theorem stepKeepsWellFormed : Obligations.StepKeepsWellFormed := by
  intro s t h hstep
  have closed {rx : Option Partial} (isOpen : s.phase = .building) (hp : s.phase ≠ .building) :
      s.inited = true ∧ rx = none := absurd isOpen hp
  cases stepped_of_step hstep with
  | idle => exact h
  | flushed enabled fits => exact h.flush enabled
  | illegal rest info isOpen => exact { h with rxOk := nofun, renderInited := closed isOpen }
  | received rest p isOpen keeps =>
    refine { h with rxOk := fun q hq => ?_, renderInited := closed isOpen }
    obtain rfl := Option.some.inj hq
    exact keeps h.rxOk
  | command rest i t isOpen runs =>
    have emptied : ({ s with rx := none, inputs := rest } : State).Wf :=
      { h with rxOk := nofun, renderInited := closed isOpen }
    exact exec_wf emptied rfl runs
  | gpuDone i rest next event => exact { h with presentedIdle := fun _ => rfl }
  | lost i rest next event => exact { h with }
  | present i rest next event waits => exact State.Wf.present (s := { s with inputs := rest }) { h with }
  | reset strap rest presented => exact powerOn_wf h.cfgLegal strap _ rest

/-! ## Progress -/

/-- With the regions inside VRAM the port never faults, and under Validated it always goes on. -/
theorem acceptWord_answers {s : State} (fits : s.regionsFit = true) (w : Word) :
    (∀ r, acceptWord w s ≠ .fault r) ∧ (s.policy = .validated → ∃ t, acceptWord w s = .next t) := by
  have runs (i : Instr) (rx : Option Partial) : (∀ r, exec i { s with rx := rx } ≠ .fault r) ∧
      (s.policy = .validated → ∃ t, exec i { s with rx := rx } = .next t) :=
    ⟨fun r hr => Bool.noConfusion (fits.symm.trans (exec_fault (s := { s with rx := rx }) hr)),
      fun hpolicy => exec_validated (s := { s with rx := rx }) hpolicy fits i⟩
  have goesOn {t : State} (e : acceptWord w s = .next t) :
      (∀ r, acceptWord w s ≠ .fault r) ∧ (s.policy = .validated → ∃ t, acceptWord w s = .next t) :=
    e ▸ ⟨nofun, fun _ => ⟨t, rfl⟩⟩
  rcases acceptWord_cases w s with ⟨-, -, e⟩ | ⟨o, -, -, -, e⟩ | ⟨o, -, -, -, e⟩ | ⟨p, -, -, -, e⟩ |
    ⟨p, o, -, -, -, e⟩ | ⟨p, -, -, e⟩
  · exact goesOn e
  · exact e ▸ runs _ s.rx
  · exact goesOn e
  · exact goesOn e
  · exact e ▸ runs _ none
  · exact goesOn e

/-- Settles O55: the bases are multiples of even alignments, and with the regions inside VRAM neither RENDER nor
its Flushed step faults. -/
theorem wellFormedMachineGoesOn : Obligations.WellFormedMachineGoesOn := by
  intro s h
  refine ⟨?_, ?_⟩
  · obtain ⟨hpa, hpb, hspr, hhs⟩ := h.bases_even
    simpa [← Nat.dvd_iff_mod_eq_zero] using ⟨hpa, hpb, hspr, hhs⟩
  · unfold stepSafe
    rcases step_cases s with ⟨-, -, e⟩ | ⟨i, rest, -, -, e⟩ | ⟨-, -, e⟩ <;> rw [e]
    · rw [flushedStep, if_pos h.regions]
      exact ⟨nofun, fun _ => ⟨_, rfl⟩⟩
    · cases i with
      | word w => exact acceptWord_answers (s := { s with inputs := rest }) h.regions w
      | _ => exact ⟨nofun, fun _ => ⟨_, rfl⟩⟩
    · exact ⟨nofun, fun _ => ⟨_, rfl⟩⟩

end Sys2Proof.Machine
end

section
/-! SUPPORT. What no meaning reads: OUT (10_state.md R50), and POLICY apart from the answer to a violation
(60_exceptions.md R302). -/

namespace Sys2Proof.Machine

/-! ## OUT -/

/-- `s` with another OUT. -/
def State.withOut (o : List OutEvent) (s : State) : State := { s with out := o }

section
variable (o : List OutEvent) (s : State)

theorem State.build_withOut : (s.withOut o).build = s.build :=
  State.build_congr ⟨rfl, rfl, rfl, rfl, rfl, rfl, rfl, rfl, rfl, rfl⟩

theorem State.writeVram_withOut (bytes : List Byte) : (s.withOut o).writeVram bytes = (s.writeVram bytes).withOut o := by
  have same_marks : SameMarks s (s.withOut o) := ⟨rfl, rfl, rfl, rfl, rfl, rfl, rfl, rfl, rfl⟩
  obtain ⟨hblk, htileA, htileB⟩ := State.markDirty_congr same_marks s.vcur.toNat (s.vcur.toNat + bytes.length)
  rw [State.writeVram_shape, State.writeVram_shape, ← hblk, ← htileA, ← htileB]
  rfl

theorem violationOf_withOut (i : Instr) : violationOf i (s.withOut o) = violationOf i s := by cases i <;> rfl

theorem effectOf_withOut {i : Instr} (hi : i.opcode ≠ .render) :
    effectOf i (s.withOut o) = (effectOf i s).withOut o := by
  cases i with
  | render => exact absurd rfl hi
  | writev bytes => exact s.writeVram_withOut o bytes
  | fillv byte len => exact s.writeVram_withOut o _
  | _ => rfl

theorem State.buildingStep_withOut :
    (s.withOut o).buildingStep = s.buildingStep.withOut (o ++ s.build.diags) := by
  rw [State.buildingStep_shape, State.buildingStep_shape, State.build_withOut]
  rfl

theorem State.flush_withOut : (s.withOut o).flush = s.flush.withOut (o ++ s.flushEvents s.palStage) := by
  rw [State.flush_shape, State.flush_shape]
  rfl

end

/-- The meaning appends events that do not depend on OUT, and what it does besides does not either. -/
def OutBlind (m : State → Result) : Prop :=
  ∀ (s t : State) (o : List OutEvent), m s = .next t →
    ∃ es, t.out = s.out ++ es ∧ m (s.withOut o) = .next (t.withOut (o ++ es))

/-- An update that appends the events `es s` and carries OUT along otherwise. -/
theorem OutBlind.next {upd : State → State} {es : State → List OutEvent} (hout : ∀ s, (upd s).out = s.out ++ es s)
    (hupd : ∀ s o, upd (s.withOut o) = (upd s).withOut (o ++ es s)) : OutBlind fun s => .next (upd s) := by
  intro s t o h
  obtain rfl := Host.Outcome.next.inj h
  exact ⟨es s, hout s, congrArg _ (hupd s o)⟩

/-- An update that leaves OUT as it is. -/
theorem OutBlind.next_silent {upd : State → State} (hout : ∀ s, (upd s).out = s.out := by intros; rfl)
    (hupd : ∀ s o, upd (s.withOut o) = (upd s).withOut o := by intros; rfl) : OutBlind fun s => .next (upd s) :=
  next (es := fun _ => []) (fun s => by simp [hout]) (fun s o => by simp [hupd])

theorem OutBlind.reject (code : DiagCode) (info : Nat) : OutBlind (reject code info) := by
  intro s t o h
  obtain ⟨hpolicy, rfl⟩ := reject_next h
  refine ⟨[diagEvent code info], rfl, ?_⟩
  exact reject_validated (s := s.withOut o) hpolicy

theorem execRender_outBlind : OutBlind execRender := by
  intro s t o h
  cases hinit : s.inited with
  | false =>
    have before (u : State) (hu : u.inited = false) : execRender u = reject .notInit (Opcode.code .render).toNat u :=
      exec_before_init (i := .render) (by simp [Instr.opcode]) hu
    rw [before s hinit] at h
    rw [before (s.withOut o) hinit]
    exact OutBlind.reject _ _ s t o h
  | true =>
    obtain ⟨fits, quiet, rfl⟩ := (execRender_eq_next_iff hinit).mp h
    refine ⟨s.build.diags, by rw [State.buildingStep_shape], ?_⟩
    rw [← State.build_withOut o s] at quiet
    rw [← State.buildingStep_withOut]
    exact (execRender_eq_next_iff (s := s.withOut o) hinit).mpr ⟨fits, quiet, rfl⟩

theorem exec_outBlind (i : Instr) : OutBlind (exec i) := by
  by_cases hi : i.opcode = .render
  · cases i with
    | render => exact execRender_outBlind
    | _ => simp [Instr.opcode] at hi
  · intro s t o h
    rw [exec_eq hi] at h ⊢
    rw [violationOf_withOut]
    cases hv : violationOf i s with
    | none =>
      rw [hv] at h
      obtain rfl := Host.Outcome.next.inj h
      refine ⟨[], by rw [effectOf_out hi, List.append_nil], ?_⟩
      rw [List.append_nil, ← effectOf_withOut o s hi]
      rfl
    | some v =>
      rw [hv] at h
      exact OutBlind.reject v.1 v.2 s t o h

theorem acceptWord_outBlind (w : Word) : OutBlind (acceptWord w) := by
  intro s t o h
  have same_rx : (s.withOut o).rx = s.rx := rfl
  rw [acceptWord] at h ⊢
  rw [same_rx]
  cases hrx : s.rx with
  | none =>
    simp only [hrx] at h ⊢
    cases ho : opcodeOf w with
    | none =>
      simp only [ho] at h ⊢
      exact OutBlind.next (es := fun _ => [diagEvent .illegalCmd w.toNat]) (fun _ => rfl) (fun _ _ => rfl) s t o h
    | some op =>
      simp only [ho] at h ⊢
      cases hn : payloadWords w with
      | zero =>
        simp only [hn] at h ⊢
        exact exec_outBlind _ s t o h
      | succ n =>
        simp only [hn] at h ⊢
        exact (OutBlind.next_silent (upd := fun s =>
          { s with rx := some { header := w, got := [], left := n + 1 } })) s t o h
  | some p =>
    simp only [hrx] at h ⊢
    by_cases hlast : p.left ≤ 1
    · simp only [if_pos hlast] at h ⊢
      cases ho : opcodeOf p.header with
      | none =>
        simp only [ho] at h ⊢
        exact OutBlind.next (upd := fun s => { s.raise .illegalCmd p.header.toNat with rx := none })
          (es := fun _ => [diagEvent .illegalCmd p.header.toNat]) (fun _ => rfl) (fun _ _ => rfl) s t o h
      | some op =>
        simp only [ho] at h ⊢
        exact exec_outBlind _ { s with rx := none } t o h
    · simp only [if_neg hlast] at h ⊢
      exact (OutBlind.next_silent (upd := fun s =>
        { s with rx := some { header := p.header, got := p.got ++ [w], left := p.left - 1 } })) s t o h

theorem present_outBlind : OutBlind fun s => .next s.present :=
  .next (es := State.presentEvents) (fun _ => rfl) fun s o => by
    have same_slot (i : SlotId) : (s.withOut o).slot i = s.slot i := by cases i <;> rfl
    have same_events : (s.withOut o).presentEvents = s.presentEvents := by
      simp only [State.presentEvents, same_slot]
      rfl
    simp only [State.present, same_events]
    rfl

theorem vblank_outBlind : OutBlind fun s => .next s.vblank := by
  intro s t o h
  simp only at h ⊢
  by_cases waits : s.phase = .presented
  · rw [State.vblank_presented waits] at h
    rw [State.vblank_presented (s := s.withOut o) waits]
    exact present_outBlind s t o h
  · rw [State.vblank_ignored waits] at h
    rw [State.vblank_ignored (s := s.withOut o) waits]
    exact (OutBlind.next_silent (upd := id)) s t o h

/-- Reset alone empties OUT. -/
theorem takeInput_outBlind {i : Input} (hi : i.isReset = false) : OutBlind (takeInput i) := by
  cases i with
  | word w => exact acceptWord_outBlind w
  | gpuDone => exact .next_silent
  | vblank => exact vblank_outBlind
  | gpuDoneAndVblank => exact fun s => vblank_outBlind s.gpuDone
  | reset strap => simp [Input.isReset] at hi

theorem flushedStep_outBlind : OutBlind flushedStep := by
  intro s t o h
  obtain ⟨fits, rfl⟩ := flushedStep_next h
  refine ⟨s.flushEvents s.palStage, by simp [State.flush_shape], ?_⟩
  rw [flushedStep, State.flush_withOut]
  exact if_pos fits

/-- Settles O57: what a step does is chosen without OUT, and each choice appends to it. -/
theorem outIsNeverRead : Obligations.OutIsNeverRead := by
  intro s t o noReset h
  rcases step_cases s with ⟨enabled, next, e⟩ | ⟨i, rest, next, enabled, e⟩ | ⟨next, enabled, e⟩ <;> rw [e] at h
  · obtain ⟨es, hout, again⟩ := flushedStep_outBlind s t o h
    exact ⟨es, hout, (step_flush (s := s.withOut o) enabled next).trans again⟩
  · have notReset : i.isReset = false := by
      cases i with
      | reset strap => exact absurd (nextInput_mem next).1 (noReset strap)
      | _ => rfl
    obtain ⟨es, hout, again⟩ := takeInput_outBlind notReset _ t o h
    exact ⟨es, hout, (step_input (s := s.withOut o) next enabled).trans again⟩
  · obtain rfl := Host.Outcome.next.inj h
    refine ⟨[], (List.append_nil _).symm, ?_⟩
    rw [List.append_nil]
    exact step_idle (s := s.withOut o) next enabled

/-! ## POLICY -/

/-- `s` with another POLICY. -/
def State.withPolicy (p : Policy) (s : State) : State := { s with policy := p }

section
variable (p : Policy) (s : State)

theorem State.withPolicy_self : s.withPolicy s.policy = s := rfl

theorem State.build_withPolicy : (s.withPolicy p).build = s.build :=
  State.build_congr ⟨rfl, rfl, rfl, rfl, rfl, rfl, rfl, rfl, rfl, rfl⟩

theorem State.writeVram_withPolicy (bytes : List Byte) :
    (s.withPolicy p).writeVram bytes = (s.writeVram bytes).withPolicy p := by
  have same_marks : SameMarks s (s.withPolicy p) := ⟨rfl, rfl, rfl, rfl, rfl, rfl, rfl, rfl, rfl⟩
  obtain ⟨hblk, htileA, htileB⟩ := State.markDirty_congr same_marks s.vcur.toNat (s.vcur.toNat + bytes.length)
  rw [State.writeVram_shape, State.writeVram_shape, ← hblk, ← htileA, ← htileB]
  rfl

theorem State.buildingStep_withPolicy : (s.withPolicy p).buildingStep = s.buildingStep.withPolicy p := by
  rw [State.buildingStep_shape, State.buildingStep_shape, State.build_withPolicy]
  rfl

theorem violationOf_withPolicy (i : Instr) : violationOf i (s.withPolicy p) = violationOf i s := by cases i <;> rfl

theorem effectOf_withPolicy (i : Instr) : effectOf i (s.withPolicy p) = (effectOf i s).withPolicy p := by
  cases i with
  | writev bytes => exact s.writeVram_withPolicy p bytes
  | fillv byte len => exact s.writeVram_withPolicy p _
  | render => exact s.buildingStep_withPolicy p
  | _ => rfl

end

/-- A frame raises nothing exactly when it has no first diagnostic. -/
theorem State.firstDiag_build_eq_none_iff (s : State) : firstDiag s.build.diags = none ↔ s.build.diags = [] := by
  cases hd : s.build.diags with
  | nil => simp [firstDiag]
  | cons e es =>
    obtain ⟨code, info, rfl⟩ := State.build_diags (s := s) (hd ▸ List.mem_cons_self)
    simp [firstDiag, diagEvent]

/-- RENDER's Building step adds the diagnostics of the frame to DIAG. -/
theorem State.diagStream_buildingStep (s : State) : s.buildingStep.diagStream = s.diagStream ++ s.build.diags :=
  diagStream_append_diags (by rw [State.buildingStep_shape]) fun e he => by
    obtain ⟨code, info, rfl⟩ := State.build_diags he
    exact ⟨code, _, rfl⟩

theorem State.diagStream_raise (code : DiagCode) (info : Nat) (s : State) :
    (s.raise code info).diagStream = s.diagStream ++ [diagEvent code info] :=
  diagStream_append_diags rfl fun _ he => ⟨code, _, List.mem_singleton.mp he⟩

/-- RENDER under Unchecked is refused when its frame raises something, and is the Building step otherwise. -/
theorem render_unchecked {s t : State} (hinit : s.inited = true) (hpolicy : s.policy = .unchecked)
    (h : execRender (s.withPolicy .validated) = .next t) :
    (t.diagStream ≠ s.diagStream → ∃ code, execRender s = .refused (.uncheckedViolation code)) ∧
    (t.diagStream = s.diagStream → execRender s = .next s.buildingStep) := by
  obtain ⟨fits, -, rfl⟩ := (execRender_eq_next_iff (s := s.withPolicy .validated) hinit).mp h
  have diags : (s.withPolicy .validated).buildingStep.diagStream = s.diagStream ++ s.build.diags := by
    rw [State.diagStream_buildingStep, State.build_withPolicy]
    rfl
  rw [diags]
  cases raises : firstDiag s.build.diags with
  | none =>
    refine ⟨fun differs => ?_, fun _ => (execRender_eq_next_iff hinit).mpr ⟨fits, fun _ => raises, rfl⟩⟩
    simp [s.firstDiag_build_eq_none_iff.mp raises] at differs
  | some code =>
    refine ⟨fun _ => ⟨code, execRender_refused hinit fits hpolicy raises⟩, fun same => ?_⟩
    have silent : s.build.diags = [] := by simpa using same
    simp [s.firstDiag_build_eq_none_iff.mpr silent] at raises

/-- Settles O14: the violation and the effect do not depend on POLICY, and only a violation, or a frame that
raises something, adds to DIAG. -/
theorem uncheckedRefusesExactlyTheViolations : Obligations.UncheckedRefusesExactlyTheViolations := by
  refine ⟨fun i s t hpolicy h => ?_, ?_⟩
  · replace h : exec i (s.withPolicy .validated) = .next t := h
    have back : (effectOf i (s.withPolicy .validated)).withPolicy .unchecked = effectOf i s := by
      rw [← effectOf_withPolicy, ← hpolicy]
      rfl
    cases hv : violationOf i s with
    | some v =>
      obtain ⟨code, info⟩ := v
      rw [exec_of_violation ((violationOf_withPolicy _ s i).trans hv), reject_validated rfl] at h
      obtain rfl := Host.Outcome.next.inj h
      refine ⟨fun _ => ⟨code, (exec_of_violation hv).trans (reject_unchecked hpolicy)⟩, fun same => ?_⟩
      have raised : s.diagStream ++ [diagEvent code info] = s.diagStream :=
        (State.diagStream_raise code info (s.withPolicy .validated)).symm.trans same
      simp at raised
    | none =>
      by_cases hi : i.opcode = .render
      · cases i with
        | render =>
          have hinit := inited_of_accepted (by simp [Instr.opcode]) hv
          obtain ⟨-, -, ht⟩ := (execRender_eq_next_iff (s := s.withPolicy .validated) hinit).mp h
          obtain ⟨differs, same⟩ := render_unchecked hinit hpolicy h
          exact ⟨differs, fun silent => (same silent).trans (congrArg _ (ht ▸ back.symm))⟩
        | _ => simp [Instr.opcode] at hi
      · rw [exec_of_accepted hi ((violationOf_withPolicy _ s i).trans hv)] at h
        obtain rfl := Host.Outcome.next.inj h
        have silent : (effectOf i (s.withPolicy .validated)).diagStream = s.diagStream := by
          rw [State.diagStream, effectOf_out hi]
          rfl
        exact ⟨fun differs => absurd silent differs, fun _ => (exec_of_accepted hi hv).trans (congrArg _ back.symm)⟩
  · rintro s w rest - ⟨hphase, hrx, hinputs⟩ illegal
    exact step_illegal hphase hinputs hrx illegal

end Sys2Proof.Machine
end

section
/-! SUPPORT. What a VRAM write marks under the plane classes and under Other, and the debug accessor
(40_vram_access.md R143 to R147, 60_exceptions.md R325). -/

namespace Sys2Proof.Machine

/-! ## Marking by class -/

theorem State.markDirty_plane {s : State} {p : Plane} {a b : Nat} (hab : a ≠ b) (hclass : s.vclass = classOf p) :
    s.markDirty a b = s.markTiles p a b := by
  rw [State.markDirty, if_neg hab, hclass]
  cases p <;> rfl

theorem State.markDirty_other {s : State} (hclass : s.vclass = .other) (a b : Nat) : s.markDirty a b = s := by
  rw [State.markDirty, hclass, ite_self]

theorem State.markDirty_empty (s : State) (a : Nat) : s.markDirty a a = s := if_pos rfl

theorem classOf_eq_planeClass (p : Plane) : classOf p = planeClass p := by cases p <;> rfl

theorem State.dirtyTile_setDirtyTile_ne {p q : Plane} (h : q ≠ p) (f : FlagSet) (s : State) :
    (s.setDirtyTile p f).dirtyTile q = s.dirtyTile q := by
  cases p with
  | a =>
    cases q with
    | a => exact absurd rfl h
    | b => rfl
  | b =>
    cases q with
    | a => rfl
    | b => exact absurd rfl h

/-- Marking tiles leaves the other plane's flags and the block flags. -/
theorem State.markTiles_frame (s : State) (p : Plane) (a b : Nat) :
    (∀ q, q ≠ p → (s.markTiles p a b).dirtyTile q = s.dirtyTile q) ∧ (s.markTiles p a b).dirtyBlk = s.dirtyBlk := by
  rw [State.markTiles]
  split
  · exact ⟨fun q hq => State.dirtyTile_setDirtyTile_ne hq _ _, State.setDirtyTile_dirtyBlk _ _ _⟩
  · exact ⟨fun _ _ => rfl, rfl⟩

/-- The tiles from that of the first to that of the last address of `[a, b)` inside `[base, base + n)` are
those of its addresses. -/
theorem between_tiles_iff_holds_address (a b base n t : Nat) :
    (max a base < min b (base + n) ∧ (max a base - base) / 2 ≤ t ∧ t ≤ (min b (base + n) - 1 - base) / 2) ↔
      ∃ x, a ≤ x ∧ x < b ∧ base ≤ x ∧ x < base + n ∧ (x - base) / 2 = t := by
  have clipped (hne : max a base < min b (base + n)) := between_blocks_iff_holds_address
    (a := max a base - base) (b := min b (base + n) - base) (by omega) 2 t
  constructor
  · rintro ⟨hne, hlo, hhi⟩
    obtain ⟨y, h1, h2, h3⟩ := (clipped hne).mp ⟨hlo, by omega⟩
    exact ⟨base + y, by omega, by omega, by omega, by omega, by omega⟩
  · rintro ⟨x, h1, h2, h3, h4, h5⟩
    have hne : max a base < min b (base + n) := by omega
    obtain ⟨hlo, hhi⟩ := (clipped hne).mpr ⟨x - base, by omega, by omega, h5⟩
    exact ⟨hne, hlo, by omega⟩

/-- Settles O27: the marked tiles run from that of the first written byte inside the plane to that of the last. -/
theorem planeClassMarksExactlyTheWrittenTiles : Obligations.PlaneClassMarksExactlyTheWrittenTiles := by
  intro s p a b hab hclass
  obtain ⟨others, blocks⟩ := s.markTiles_frame p a b
  rw [← State.markDirty_plane hab.ne hclass] at others blocks
  refine ⟨fun t => ?_, others, blocks⟩
  rw [State.mem_dirtyTile_markDirty, between_tiles_iff_holds_address, ← classOf_eq_planeClass]
  simp only [hab.ne, hclass, ne_eq, not_false_eq_true, true_and]
  rfl

/-! ## Accepted writes -/

theorem exec_writev_accepted {s : State} {bytes : List Byte} (hinit : s.inited = true)
    (fits : s.vcur.toNat + bytes.length ≤ s.cfg.vramSize) : exec (.writev bytes) s = .next (s.writeVram bytes) :=
  exec_passes (.writev bytes) hinit (if_neg (Nat.not_lt.mpr fits))

/-- Settles O28: neither reaches a marking path, and no bytes leave the cursor and the memory. -/
theorem otherAndEmptyWritesMarkNothing : Obligations.OtherAndEmptyWritesMarkNothing := by
  intro s bytes hinit fits hnone
  have unmarked : s.markDirty s.vcur.toNat (s.vcur.toNat + bytes.length) = s := by
    rcases hnone with hclass | rfl
    · exact State.markDirty_other hclass _ _
    · exact s.markDirty_empty _
  refine ⟨_, exec_writev_accepted hinit fits, ?_⟩
  rw [State.writeVram_shape, unmarked]
  refine ⟨rfl, rfl, rfl, ?_⟩
  rintro rfl
  refine ⟨by simp, fun a => ?_⟩
  exact Memory.read_write_outside _ _ _ _ (by simp; omega)

/-- Settles O29: the accessor reads VRAM itself, and the bytes written are there. -/
theorem debugReadReturnsTheWrittenBytes : Obligations.DebugReadReturnsTheWrittenBytes := by
  refine ⟨fun s bytes hinit hphase fits => ?_, fun s o n => ⟨fun hphase inside => ?_, fun hphase past => ?_, fun busy => ?_⟩⟩
  · refine ⟨_, exec_writev_accepted hinit fits, ?_⟩
    rw [State.writeVram_shape, State.debugRead, if_pos hphase, if_pos fits, Memory.readRange_write]
  · rw [State.debugRead, if_pos hphase, if_pos inside, Memory.readRange]
  · rw [State.debugRead, if_pos hphase, if_neg (Nat.not_le.mpr past)]
  · rw [State.debugRead, if_neg busy]

end Sys2Proof.Machine
end

section
/-! SUPPORT. The tile decoder and the tile upload (43_tile_decoder.md R200 to R208). -/

namespace Sys2Proof.Machine

/-! ## Samples -/

/-- Sample (y, x) of a decode (R202). -/
theorem decodeTile_at (m : Memory) (pat : BitVec 11) (hf vf : Bool) (pal : BitVec 2) {y x : Nat} (hy : y < 8)
    (hx : x < 8) : (decodeTile m pat hf vf pal)[8 * y + x]? = some (decodedSample m pat hf vf pal y x) := by
  rw [decodeTile_getElem _ _ _ _ _ _ (by omega), show (8 * y + x) / 8 = y by omega, show (8 * y + x) % 8 = x by omega]

/-- Settles O34: a flip reads the mirrored pixel. -/
theorem flippedDecodesAreReflections : Obligations.FlippedDecodesAreReflections := by
  intro m pat pal x y hx hy
  have hx' : 7 - x < 8 := by omega
  have hy' : 7 - y < 8 := by omega
  simp only [decodeTile_at _ _ _ _ _ hy hx, decodeTile_at _ _ _ _ _ hy hx', decodeTile_at _ _ _ _ _ hy' hx,
    decodeTile_at _ _ _ _ _ hy' hx']
  exact ⟨rfl, rfl, rfl⟩

/-- The palette is OR-ed onto the pixel (R114). -/
theorem sampleOf_eq_or (pal : BitVec 2) (pixel : BitVec 4) :
    sampleOf pal pixel = (pal.setWidth 8 <<< 4) ||| sampleOf 0 pixel := by
  simp [sampleOf]

/-- Settles O35: every sample is the palette OR-ed onto the sample under palette 0. -/
theorem paletteChangesOnlyItsBits : Obligations.PaletteChangesOnlyItsBits := by
  intro m pat hf vf pal
  rw [decodeTile, decodeTile, List.map_map]
  exact List.map_congr_left fun i _ => sampleOf_eq_or pal _

/-- The two pixels of a source byte (R201). -/
theorem pixelOf_even (m : Memory) (pat : BitVec 11) (r k : Nat) :
    pixelOf m pat r (2 * k) = (m.read (32 * pat.toNat + 4 * r + k)).extractLsb' 4 4 := by
  rw [pixelOf, if_pos (by omega), show 2 * k / 2 = k by omega]

theorem pixelOf_odd (m : Memory) (pat : BitVec 11) (r k : Nat) :
    pixelOf m pat r (2 * k + 1) = (m.read (32 * pat.toNat + 4 * r + k)).extractLsb' 0 4 := by
  rw [pixelOf, if_neg (by omega), show (2 * k + 1) / 2 = k by omega]

/-- Settles O36: unflipped the pair is the byte's high and low nibble, flipped its low and high nibble. -/
theorem decodeWalksTheSourceBytes : Obligations.DecodeWalksTheSourceBytes := by
  intro m pat hf vf pal y j hy hj b hi lo
  rw [Nat.add_assoc, decodeTile_at _ _ _ _ _ hy (by omega), decodeTile_at _ _ _ _ _ hy (by omega)]
  cases hf with
  | false =>
    simp only [decodedSample, Bool.false_eq_true, if_false, pixelOf_even, pixelOf_odd]
    exact ⟨rfl, rfl⟩
  | true =>
    have first : 7 - 2 * j = 2 * (3 - j) + 1 := by omega
    have second : 7 - (2 * j + 1) = 2 * (3 - j) := by omega
    simp only [decodedSample, if_true, first, second, pixelOf_even, pixelOf_odd]
    exact ⟨rfl, rfl⟩

/-! ## The upload of a tile -/

theorem blankCell_getD (i : Nat) : blankCell.getD i 0 = 0 := by
  rw [List.getD_eq_getElem?_getD, blankCell, List.getElem?_replicate]
  split <;> rfl

/-- A cell that is blank or holds a decode, as plane A's layers are written by the priority bit (R208). -/
theorem getD_blank_or (pri : Bool) (d : List Byte) (i : Nat) :
    (if pri then blankCell else d).getD i 0 = (if pri then 0 else d.getD i 0) ∧
      (if pri then d else blankCell).getD i 0 = if pri then d.getD i 0 else 0 := by
  cases pri
  · exact ⟨rfl, blankCell_getD i⟩
  · exact ⟨blankCell_getD i, rfl⟩

section
variable {s : State} {t : Nat} {e : Half} {d : List Byte}
  (hd : decodeTile s.vram (tileRef e).pat (tileRef e).hf (tileRef e).vf (tileRef e).pal = d)
include hd

/-- The upload of a tile of plane A with entry `e` that decodes to `d` (R208). -/
theorem State.uploadTile_a (he : s.vram.read16 (s.paBase.toNat + 2 * t) = e) : s.uploadTile .a t = { s with
    texALo := writeCell s.texALo (t % s.pw.toNat) (t / s.pw.toNat) (if e.getLsbD 15 then blankCell else d)
    texAHi := writeCell s.texAHi (t % s.pw.toNat) (t / s.pw.toNat) (if e.getLsbD 15 then d else blankCell)
    out := s.out ++ [.tileUpload .a t e d] } := by
  subst hd he
  rfl

/-- The upload of a tile of plane B with entry `e` that decodes to `d` (R208). -/
theorem State.uploadTile_b (he : s.vram.read16 (s.pbBase.toNat + 2 * t) = e) : s.uploadTile .b t = { s with
    texBLo := writeCell s.texBLo (t % s.pw.toNat) (t / s.pw.toNat) d
    out := s.out ++ [.tileUpload .b t e d] } := by
  subst hd he
  rfl

end

/-- Settles O37: the upload writes its own cell of each of its plane's layers. -/
theorem uploadTileWritesItsCell : Obligations.UploadTileWritesItsCell := by
  intro s p t h ht a e d tx ty u
  obtain ⟨hcol, -⟩ := tile_inside h.legalSize ht
  have cell (m : Memory) {samples : List Byte} (hlen : samples.length = 64) {v c : Nat} (hc : c < texSide) :=
    read_writeCell m tx ty samples hlen hcol v c hc
  have hlen : d.length = 64 := decodeTile_length _ _ _ _ _
  cases p with
  | a =>
    have upload := State.uploadTile_a (s := s) (t := t) (e := e) (d := d) rfl rfl
    refine ⟨fun v c hv hc => ?_, by simp only [u, upload]⟩
    simp only [u, upload]
    rw [cell _ (by split <;> simp [hlen]) hc, cell _ (by split <;> simp [hlen]) hc,
      (getD_blank_or _ _ _).1, (getD_blank_or _ _ _).2]
    simp
  | b =>
    have upload := State.uploadTile_b (s := s) (t := t) (e := e) (d := d) rfl rfl
    refine ⟨fun v c hv hc => ?_, by simp only [u, upload]⟩
    simp only [u, upload]
    rw [cell _ hlen hc]
    simp

end Sys2Proof.Machine
end

section
/-! SUPPORT. The plane renderer: the runs partition the scanlines, the sub-segments of a run partition the columns,
and each segment stays in one page (44_plane_renderer.md R216 to R225). -/

namespace Sys2Proof.Machine

/-! ## Runs -/

/-- With the open run covering the scanlines from `y0` to `y - 1`, the loop covers them and the `n` to come. -/
theorem runsCover_runsFrom (hs : Nat → Half) (row : Nat → Nat) : ∀ (n y y0 : Nat), y0 < y →
    (∀ z, y0 < z → z < y → hs z = hs y0 ∧ row z % 256 ≠ 0) →
    runsCover hs row y0 (y + n) (runsFrom hs row n y y0 (row y0) (hs y0)) := by
  intro n
  induction n with
  | zero =>
    intro y y0 hy same
    exact ⟨rfl, by dsimp only; omega, by dsimp only; omega, rfl, rfl, fun z h1 h2 => same z h1 (by dsimp only at h2; omega),
      fun h => by dsimp only at h; omega, by simp only [runsCover]; omega⟩
  | succ n ih =>
    intro y y0 hy same
    rw [runsFrom]
    by_cases breaks : hs y ≠ hs y0 ∨ row y % 256 = 0
    · rw [if_pos breaks]
      have back : y - 1 + 1 = y := by omega
      refine ⟨rfl, by dsimp only; omega, by dsimp only; omega, rfl, rfl, fun z h1 h2 => same z h1 (by dsimp only at h2; omega),
        fun _ => ?_, ?_⟩
      · rw [back]
        exact breaks
      · rw [back, show y + (n + 1) = y + 1 + n by omega]
        exact ih (y + 1) y (by omega) fun z h1 h2 => by omega
    · rw [if_neg breaks, show y + (n + 1) = y + 1 + n by omega]
      obtain ⟨sameValue, samePage⟩ := not_or.mp breaks
      refine ih (y + 1) y0 (by omega) fun z h1 h2 => ?_
      rcases Nat.lt_succ_iff_lt_or_eq.mp h2 with h | rfl
      · exact same z h1 h
      · exact ⟨not_not.mp sameValue, samePage⟩

/-- Settles O38: the first run opens at scanline 0, and the loop then covers the rest. -/
theorem runsCoverEveryScanline : Obligations.RunsCoverEveryScanline := by
  intro s p hheight at_ hs row
  have values : s.scrollAt p = hs := by
    funext y
    cases p <;> rfl
  have rows : s.sourceRow p = row := by
    funext y
    cases p <;> rfl
  refine ⟨fun y => ⟨congrFun values y, congrFun rows y⟩, ?_⟩
  have cover := runsCover_runsFrom hs row (s.cfg.screenHeight - 1) 1 0 Nat.zero_lt_one fun z h1 h2 => by omega
  rw [State.planeRuns, values, rows]
  rwa [show 1 + (s.cfg.screenHeight - 1) = s.cfg.screenHeight by omega] at cover

/-- A run is closed at each change of the scroll value and at each phase 0 with the value unchanged. -/
theorem runsFrom_length_eq (hs : Nat → Half) (row : Nat → Nat) : ∀ (n y y0 v0 : Nat), 1 ≤ y →
    (runsFrom hs row n y y0 v0 (hs (y - 1))).length =
      1 + (List.range' y n).countP (fun z => decide (hs z ≠ hs (z - 1))) +
        (List.range' y n).countP fun z => decide (row z % 256 = 0 ∧ hs z = hs (z - 1)) := by
  intro n
  induction n with
  | zero => intro y y0 v0 hy; rfl
  | succ n ih =>
    intro y y0 v0 hy
    have next (y0 v0 : Nat) := ih (y + 1) y0 v0 (by omega)
    rw [Nat.add_sub_cancel] at next
    rw [runsFrom, List.range'_succ, List.countP_cons, List.countP_cons]
    by_cases sameValue : hs y = hs (y - 1)
    · by_cases wraps : row y % 256 = 0
      · rw [if_pos (.inr wraps), List.length_cons, next]
        simp [sameValue, wraps]
        omega
      · rw [if_neg (by simp [sameValue, wraps]), ← sameValue, next]
        simp [sameValue, wraps]
    · rw [if_pos (.inl sameValue), List.length_cons, next]
      simp [sameValue]
      omega

/-- Settles O39: the open run is the one that no scanline has closed. -/
theorem runCount : Obligations.RunCount := fun s p _ =>
  runsFrom_length_eq (s.scrollAt p) (s.sourceRow p) (s.cfg.screenHeight - 1) 1 0 (s.sourceRow p 0) (Nat.le_refl 1)

/-! ## Sub-segments -/

/-- Each column from `x` on lies in exactly one sub-segment, which shows the source column `u` moved along. -/
theorem exists_unique_subSegment {width wp : Nat} (hwp : 256 ∣ wp) (hpos : 0 < wp) {c : Nat} (hc : c < width) :
    ∀ (fuel x u : Nat), x ≤ c → width ≤ x + fuel → u < wp →
      ∃ g ∈ subSegments width wp fuel x u, (g.x ≤ c ∧ c < g.x + g.w) ∧ g.u + (c - g.x) = (u + (c - x)) % wp ∧
        ∀ g' ∈ subSegments width wp fuel x u, g'.x ≤ c ∧ c < g'.x + g'.w → g' = g := by
  intro fuel
  induction fuel with
  | zero => intro x u hx hfuel hu; omega
  | succ fuel ih =>
    intro x u hx hfuel hu
    rw [subSegments, if_pos (by omega)]
    generalize hw : min (width - x) (256 - u % 256) = w
    have phase := Nat.mod_lt u (show 0 < 256 by decide)
    have tail_lt := Nat.mod_lt (u + w) hpos
    have later := mem_subSegments width wp hpos fuel (x + w) ((u + w) % wp) tail_lt
    by_cases here : c < x + w
    · refine ⟨_, List.mem_cons_self, ⟨hx, here⟩, ?_, fun g' hg' covers => ?_⟩
      · obtain ⟨k, rfl⟩ := hwp
        exact (Nat.mod_eq_of_lt (by dsimp only; omega)).symm
      · rcases List.mem_cons.mp hg' with rfl | hg'
        · rfl
        · have := later g' hg'
          omega
    · obtain ⟨g, hg, covers, shows, unique⟩ := ih (x + w) ((u + w) % wp) (by omega) (by omega) tail_lt
      refine ⟨g, List.mem_cons_of_mem _ hg, covers, ?_, fun g' hg' covers' => ?_⟩
      · rw [shows, Nat.mod_add_mod]
        congr 1
        omega
      · rcases List.mem_cons.mp hg' with rfl | hg'
        · dsimp only at covers'
          omega
        · exact unique g' hg' covers'

/-- The source column `x` screen columns after the first (R221). -/
theorem startColumn_add_mod (hs : Half) {wp : Nat} (hpos : 0 < wp) (x : Nat) :
    (((startColumn hs wp + x) % wp : Nat) : Int) = ((x : Int) - (hs.toNat : Int)) % (wp : Int) := by
  have nonneg := Int.emod_nonneg (-(hs.toNat : Int)) (show (wp : Int) ≠ 0 by omega)
  rw [Int.natCast_emod, Int.natCast_add, startColumn, Int.toNat_of_nonneg nonneg, Int.emod_add_emod]
  congr 1
  omega

/-- Settles O40: the sub-segments begin at column 0 with the source column of the scroll value. -/
theorem flushShowsTheScrolledColumn : Obligations.FlushShowsTheScrolledColumn := by
  intro width wp hs x hwp hpos hx
  obtain ⟨g, hg, covers, shows, unique⟩ := exists_unique_subSegment hwp hpos hx width 0 (startColumn hs wp)
    (Nat.zero_le x) (by omega) (startColumn_lt hs hpos)
  exact ⟨g, hg, covers, shows ▸ startColumn_add_mod hs hpos x, unique⟩

/-! ## Segments -/

/-- Where a segment of plane `p` comes from: a run, a sub-segment of its flush, and a layer. -/
theorem mem_planeActions {s : State} {g : Seg} {b : Bin} (h : BuildAction.prim (.seg g) b ∈ s.planeActions) :
    ∃ p, ∃ r ∈ s.planeRuns p, ∃ q ∈ subSegments s.cfg.screenWidth (8 * s.pw.toNat) s.cfg.screenWidth 0
        (startColumn r.hs (8 * s.pw.toNat)), ∃ l ∈ layersOf p, b = segBin p l ∧
      g = { plane := p, layer := l, x := q.x, y := r.y0, w := q.w, h := r.y1 - r.y0 + 1, u := q.u, v := r.v0 } := by
  simp only [State.planeActions, List.mem_flatMap, State.flushRun, List.mem_map] at h
  obtain ⟨p, -, r, hr, q, hq, l, hl, e⟩ := h
  simp only [BuildAction.prim.injEq, Prim.seg.injEq] at e
  exact ⟨p, r, hr, q, hq, l, hl, e.2.symm, e.1.symm⟩

/-- A run of a plane lies on the screen, and its rows in one page of the plane. -/
theorem run_in_page {s : State} (hheight : 1 ≤ s.cfg.screenHeight) (hplane : 256 ∣ 8 * s.ph.toNat)
    (hpos : 0 < s.ph.toNat) {p : Plane} {r : Run} (hr : r ∈ s.planeRuns p) :
    r.y0 ≤ r.y1 ∧ r.y1 < s.cfg.screenHeight ∧ r.v0 < 8 * s.ph.toNat ∧ r.v0 % 256 + (r.y1 - r.y0 + 1) ≤ 256 := by
  obtain ⟨hle, hlast, hrow⟩ := mem_runsFrom _ _ _ _ _ _ _ Nat.zero_lt_one r hr
  obtain ⟨hv0, samePage⟩ : r.v0 = s.sourceRow p r.y0 ∧ ∀ z, r.y0 < z → z ≤ r.y1 → s.sourceRow p z % 256 ≠ 0 := by
    rcases hrow with ⟨hy0, hv0, -, same⟩ | ⟨-, hv0, -, same⟩
    · exact ⟨by rw [hv0, hy0], fun z h1 h2 => same z (by omega) h2⟩
    · exact ⟨hv0, same⟩
  have phase (z : Nat) : s.sourceRow p z % 256 = (z + (s.vscroll p).toNat) % 256 := Nat.mod_mod_of_dvd _ hplane
  refine ⟨hle, by omega, hv0 ▸ Nat.mod_lt _ (by omega), ?_⟩
  rw [hv0, phase]
  by_contra wraps
  refine samePage (r.y0 + (256 - (r.y0 + (s.vscroll p).toNat) % 256)) (by omega) (by omega) ?_
  rw [phase]
  omega

/-- Settles O41: the two planes in order, and each segment's run and sub-segment. -/
theorem segmentsStayInOnePage : Obligations.SegmentsStayInOnePage := by
  refine ⟨?_, fun s g b h hmem => ?_⟩
  · intro s subs seg
    simp only [State.planeActions, List.flatMap_cons, List.flatMap_nil, List.append_nil]
    rfl
  · have facts := configFacts h.cfgLegal
    have sizes := sizeFacts h.legalSize
    obtain ⟨p, r, hr, q, hq, l, hl, rfl, rfl⟩ := mem_planeActions hmem
    have wide : 0 < 8 * s.pw.toNat := Nat.mul_pos (by decide) sizes.width.2.1
    obtain ⟨hw, -, hscreen, hu, hpage⟩ := mem_subSegments _ _ wide _ _ _ (startColumn_lt r.hs wide) q hq
    obtain ⟨hle, hlast, hv, hrows⟩ := run_in_page facts.height.1 sizes.height.1 sizes.height.2.1 hr
    refine ⟨⟨hw, hpage, hscreen, hu⟩, ⟨Nat.succ_pos _, hrows, by dsimp only; omega, hv⟩, ?_⟩
    cases p with
    | a => rcases List.mem_pair.mp hl with rfl | rfl <;> simp [segBin]
    | b => obtain rfl := List.mem_singleton.mp hl; simp [segBin]

end Sys2Proof.Machine
end

section
/-! SUPPORT. The sprite renderer: the walk along a chain of links, and the columns of a sprite
(45_sprite_renderer.md R236 to R245). -/

namespace Sys2Proof.Machine

/-! ## The walk -/

/-- A visit that goes on: the link names another entry of the table and visits are left (R238). -/
theorem State.spriteWalk_follows {s : State} {left i j : Nat} (hlink : (s.readSprite i).link.toNat = j) (hj : j ≠ 0)
    (hin : j < s.cfg.spriteSlots) (hleft : left ≠ 0) :
    s.spriteWalk (left + 1) i = spriteActions s.cfg.originBias (s.readSprite i) i ++ s.spriteWalk left j := by
  rw [State.spriteWalk, hlink, if_neg hj, if_neg hleft, if_neg (Nat.not_le.mpr hin)]

@[simp] theorem State.spritesOf_cons (s : State) (i : Nat) (c : List Nat) :
    s.spritesOf (i :: c) = spriteActions s.cfg.originBias (s.readSprite i) i ++ s.spritesOf c := by
  simp [State.spritesOf]

/-- The walk over a chain emits every entry's sprite but the last's, and is then at the last. -/
theorem State.spriteWalk_chain (s : State) (c : List Nat) : ∀ (left i j : Nat), s.linked c → c.head? = some i →
    c.getLast? = some j → c.length ≤ left →
    s.spriteWalk left i = s.spritesOf c.dropLast ++ s.spriteWalk (left + 1 - c.length) j := by
  induction c with
  | nil => intro left i j hlinked; exact hlinked.elim
  | cons x c ih =>
    intro left i j hlinked hhead hlast hleft
    obtain rfl : x = i := by simpa using hhead
    cases c with
    | nil =>
      obtain rfl : x = j := by simpa using hlast
      rfl
    | cons y c =>
      obtain ⟨hlink, hy, hin, hrest⟩ := hlinked
      obtain ⟨left, rfl⟩ : ∃ l, left = l + 1 := ⟨left - 1, by simp at hleft; omega⟩
      simp only [List.length_cons] at hleft ih ⊢
      rw [State.spriteWalk_follows hlink hy hin (by omega),
        ih left y j hrest rfl (by simpa [List.getLast?_cons] using hlast) (by omega), List.dropLast_cons_cons,
        State.spritesOf_cons, List.append_assoc, show left + 1 + 1 - (c.length + 1 + 1) = left + 1 - (c.length + 1) by omega]

/-- The sprites of a chain are those before its last entry, then the last's. -/
theorem State.spritesOf_getLast (s : State) {c : List Nat} {j : Nat} (hlast : c.getLast? = some j) :
    s.spritesOf c.dropLast ++ spriteActions s.cfg.originBias (s.readSprite j) j = s.spritesOf c := by
  obtain ⟨init, rfl⟩ := List.getLast?_eq_some_iff.mp hlast
  simp [State.spritesOf]

/-- Settles O42: at the last entry the three ways to stop are told apart in the order of R238. -/
theorem spriteWalkFollowsTheChain : Obligations.SpriteWalkFollowsTheChain := by
  intro s c i hlinked hhead hlast link
  have nonempty : 0 < c.length := List.length_pos_of_ne_nil fun h => by simp [h] at hhead
  have walk (hlen : c.length ≤ s.cfg.spriteSlots) : s.spriteWalkActions = s.spritesOf c ++
      (if link = 0 then [] else if s.cfg.spriteSlots - c.length = 0 then [.diag .spriteChain i]
       else if s.cfg.spriteSlots ≤ link then [.diag .spriteLink link]
       else s.spriteWalk (s.cfg.spriteSlots - c.length) link) := by
    rw [State.spriteWalkActions, s.spriteWalk_chain c _ 0 i hlinked hhead hlast hlen,
      show s.cfg.spriteSlots + 1 - c.length = s.cfg.spriteSlots - c.length + 1 by omega, State.spriteWalk,
      ← List.append_assoc, s.spritesOf_getLast hlast]
  refine ⟨fun hlen ends => ?_, fun hlen goes => ?_, fun hlen goes outside => ?_⟩
  · rw [walk hlen, if_pos ends, List.append_nil]
  · rw [walk hlen.le, if_neg goes, if_pos (by omega)]
  · rw [walk hlen.le, if_neg goes, if_neg (by omega), if_pos outside]

/-! ## The columns -/

/-- The tile number of a column wraps at 11 bits (R240). -/
theorem ofNat_eleven_mod (n : Nat) : BitVec.ofNat 11 (n % 2048) = BitVec.ofNat 11 n :=
  BitVec.eq_of_toNat_eq (by simp)

/-- Settles O43: each field is its bits, and column `k` is the `k`-th action. -/
theorem spriteColumnsLeftToRight : Obligations.SpriteColumnsLeftToRight := by
  intro s i k hk e word sc
  refine ⟨⟨rfl, rfl, rfl, rfl, rfl, rfl, rfl, rfl, rfl, rfl⟩, spriteActions_length _ _ _, ?_⟩
  rw [ofNat_eleven_mod, spriteActions, List.getElem?_map, List.getElem?_range (Nat.lt_succ_of_le hk)]
  rfl

end Sys2Proof.Machine
end

section
/-! SUPPORT. The palette (46_palette.md) and the Building step (47_frame_driver.md R270 to R276). -/

namespace Sys2Proof.Machine

/-! ## The palette -/

/-- The Expand table of a legal configuration rises (R257). -/
theorem expand_strictMono {cfg : Config} (legal : cfg.legal = true) : StrictMono fun i : Fin 8 => cfg.expand[i] := by
  have he := (configFacts legal).expand
  simp only [Config.expandLegal, Bool.and_eq_true, List.all_eq_true, List.mem_finRange, true_implies,
    decide_eq_true_eq] at he
  exact Fin.strictMono_iff_lt_succ.mpr he.2

/-- The packed form as a number (R258). -/
theorem packedRecord_opaque {r g b : Nat} (hr : r < 32) (hg : g < 32) (hb : b < 32) :
    packedRecord (.opaqueRgb r g b) = BitVec.ofNat 16 (0x8000 + 1024 * b + 32 * g + r) := by
  refine BitVec.eq_of_toNat_eq ?_
  have join {x y : Nat} (hy : y < 2 ^ 5) : x <<< 5 ||| y = 32 * x + y := by
    rw [← Nat.shiftLeft_add_eq_or_of_lt hy, Nat.shiftLeft_eq, Nat.mul_comm]
  simp only [packedRecord, BitVec.toNat_append, BitVec.toNat_ofNat]
  rw [Nat.mod_eq_of_lt (show b < 2 ^ 5 from hb), Nat.mod_eq_of_lt (show g < 2 ^ 5 from hg),
    Nat.mod_eq_of_lt (show r < 2 ^ 5 from hr), join hb, join hg, join hr, show (1 : BitVec 1).toNat = 1 from rfl]
  omega

/-- Settles O44: each clause is a fact about the Expand table, the packed form or one entry. -/
theorem paletteConversion : Obligations.PaletteConversion := by
  refine ⟨fun _ _ => rfl, by decide, by decide, fun cfg legal => ⟨?_, ?_, fun u v huv => ?_⟩,
    ⟨rfl, fun r g b => packedRecord_opaque⟩, fun cfg cram i h => ⟨fun hi => ?_, fun hi => ?_⟩⟩
  · have he := (configFacts legal).expand
    simp only [Config.expandLegal, Bool.and_eq_true, beq_iff_eq] at he
    exact he.1.1
  · have he := (configFacts legal).expand
    simp only [Config.expandLegal, Bool.and_eq_true, beq_iff_eq] at he
    exact Nat.eq_sub_of_add_eq he.1.2
  · exact expand_strictMono legal huv
  · simp [convertPalette, recordOf, hi]
  · simp [convertPalette, recordOf, hi, redOf, greenOf, blueOf]

/-! ## RENDER's first step -/

theorem exec_render {s : State} (hinit : s.inited = true) (hpolicy : s.policy = .validated)
    (fits : s.regionsFit = true) : exec .render s = .next s.buildingStep :=
  (execRender_eq_next_iff hinit).mpr ⟨fits, by simp [hpolicy], rfl⟩

theorem State.buildingStep_slot_back (s : State) : s.buildingStep.slot s.front.other = s.build.slot := by
  rw [State.buildingStep, State.slot_setSlot]

theorem State.buildingStep_slot_front (s : State) : s.buildingStep.slot s.front = s.slot s.front := by
  rw [State.buildingStep, State.slot_setSlot_other]
  cases s.front <;> rfl

/-- Settles O45: after INIT under Validated, RENDER is the Building step. -/
theorem renderBuildsTheBackSlot : Obligations.RenderBuildsTheBackSlot := by
  intro s hinit hpolicy fits
  refine ⟨_, exec_render hinit hpolicy fits, s.buildingStep_slot_back, s.buildingStep_slot_front, ?_⟩
  rw [State.buildingStep_shape]

/-! ## What the Building step emits -/

/-- Actions that are all primitives raise nothing themselves. -/
theorem diagsOf_eq_nil {as : List BuildAction} (h : ∀ a ∈ as, ∃ p b, a = .prim p b) : diagsOf as = [] := by
  induction as with
  | nil => rfl
  | cons a as ih =>
    obtain ⟨p, b, rfl⟩ := h a List.mem_cons_self
    exact ih fun a ha => h a (List.mem_cons_of_mem _ ha)

/-- The primitives of a list of actions are among them. -/
theorem mem_primsOf {as : List BuildAction} {p : Prim} {b : Bin} (h : (p, b) ∈ primsOf as) : .prim p b ∈ as := by
  simp only [primsOf, List.mem_filterMap] at h
  obtain ⟨a, ha, e⟩ := h
  cases a with
  | prim q c =>
    obtain ⟨rfl, rfl⟩ : q = p ∧ c = b := by simpa using e
    exact ha
  | diag code info => cases e

theorem primsOf_length_le (as : List BuildAction) : (primsOf as).length ≤ as.length := List.length_filterMap_le _ _

/-- The plane renderer emits segments only, none in bin 0. -/
theorem State.planeActions_kind {s : State} {a : BuildAction} (h : a ∈ s.planeActions) :
    ∃ g b, a = .prim (.seg g) b ∧ b ≠ 0 := by
  simp only [State.planeActions, List.mem_flatMap, State.flushRun, List.mem_map] at h
  obtain ⟨p, -, r, -, q, -, l, -, rfl⟩ := h
  refine ⟨_, _, rfl, ?_⟩
  cases p <;> cases l <;> simp [segBin]

/-- `BackgroundFill()`'s primitive (R276). -/
def State.backgroundFill (s : State) : Fill :=
  { x := 0, y := 0, w := s.cfg.screenWidth, h := s.cfg.screenHeight,
    r := s.fillColour.1, g := s.fillColour.2.1, b := s.fillColour.2.2 }

theorem State.fillAction_eq (s : State) : s.fillAction = .prim (.fill s.backgroundFill) 0 := rfl

/-- The frame before its fill: primitives that are no fill and lie in no bin 0, then what the sprite walk
raises. -/
theorem State.buildActions_shape (s : State) : ∃ ps ds,
    s.buildActions = ps ++ ds ++ [.prim (.fill s.backgroundFill) 0] ∧
    (∀ a ∈ ps, ∃ p b, a = .prim p b ∧ b ≠ 0 ∧ ∀ f, p ≠ .fill f) ∧
    ps.length ≤ s.planeActions.length + 4 * s.cfg.spriteSlots ∧
    (ds = [] ∨ ∃ j, ds = [.diag .spriteChain j] ∨ ds = [.diag .spriteLink j]) := by
  obtain ⟨ps, ds, hwalk, hps, hlen, hds⟩ := spriteWalk_shape s s.cfg.spriteSlots 0
  have before : s.planeActions ++ s.spriteWalkActions = s.planeActions ++ ps ++ ds := by
    rw [State.spriteWalkActions, hwalk, List.append_assoc]
  refine ⟨s.planeActions ++ ps, ds, by rw [State.buildActions, before, s.fillAction_eq], fun a ha => ?_, ?_, hds⟩
  · rcases List.mem_append.mp ha with ha | ha
    · obtain ⟨g, b, rfl, hb⟩ := State.planeActions_kind ha
      exact ⟨_, b, rfl, hb, by simp⟩
    · obtain ⟨c, b, rfl, hb⟩ := hps a ha
      exact ⟨_, b, rfl, by rcases hb with rfl | rfl <;> decide, by simp⟩
  · rw [List.length_append]
    omega

/-- The sprite walk's raise is no primitive. -/
theorem primsOf_raises {ds : List BuildAction}
    (h : ds = [] ∨ ∃ j, ds = [.diag .spriteChain j] ∨ ds = [.diag .spriteLink j]) : primsOf ds = [] := by
  rcases h with rfl | ⟨j, rfl | rfl⟩ <;> rfl

/-- The first primitives that fit are kept, each at the end of its bin (R273). -/
theorem State.build_bins (s : State) (b : Bin) : s.build.slot.bins[b] =
    (((primsOf s.buildActions).take s.cfg.primCapacity).filter fun pb => decide (pb.2 = b)).map Prod.fst := by
  rw [State.build_eq_run, (Built.run_keeps _ _ (Nat.zero_le _)).2 b, Slot.empty_bins, List.nil_append]
  rfl

theorem State.build_count (s : State) :
    s.build.slot.count = min s.cfg.primCapacity (primsOf s.buildActions).length := by
  rw [State.build_eq_run, (Built.run_keeps _ _ (Nat.zero_le _)).1, Slot.empty_count, Nat.zero_add]

/-- The drops before the fill, the raise of the walk, and the drop of the fill, in this order (R307). -/
theorem State.build_diags_eq (s : State) : s.build.diags =
    ((primsOf s.buildActions).dropLast.drop s.cfg.primCapacity).map (fun pb => diagEvent .primOverflow pb.2.val) ++
      diagsOf s.buildActions ++
      (if s.cfg.primCapacity < (primsOf s.buildActions).length then [diagEvent .primOverflow 0] else []) := by
  obtain ⟨ps, ds, hactions, hps, -, hds⟩ := s.buildActions_shape
  have silent : diagsOf ps = [] := diagsOf_eq_nil fun a ha => (hps a ha).imp fun p ⟨b, e, _⟩ => ⟨b, e⟩
  have hprims : primsOf s.buildActions = primsOf ps ++ [(.fill s.backgroundFill, 0)] := by
    simp [hactions, primsOf_raises hds]
  have hdiags : diagsOf s.buildActions = diagsOf ds := by simp [hactions, silent]
  have kept := (Built.run_keeps (cap := s.cfg.primCapacity) ps { slot := Slot.empty, diags := [] } (Nat.zero_le _)).1
  have dropped := Built.run_drops (cap := s.cfg.primCapacity) ps { slot := Slot.empty, diags := [] } (Nat.zero_le _) silent
  rw [Slot.empty_count, Nat.zero_add] at kept
  rw [Slot.empty_count, List.nil_append, Nat.sub_zero] at dropped
  rw [hprims, hdiags, List.dropLast_concat, List.length_append, List.length_singleton, ← dropped, State.build_eq_run,
    hactions, Built.run_append, Built.run_append, Built.run_raises ds _ (primsOf_raises hds), Built.run_cons,
    Built.run_nil, Built.step]
  by_cases full : s.cfg.primCapacity ≤ (primsOf ps).length
  · rw [if_pos (by dsimp only; omega), if_pos (by omega)]
    rfl
  · rw [if_neg (by dsimp only; omega), if_neg (by omega), List.append_nil]

/-- Settles O46: the primitives before the fill, the sprite walk's raise, and the fill are run one after
another. -/
theorem binsHoldWhatWasEmitted : Obligations.BinsHoldWhatWasEmitted := fun s b =>
  ⟨rfl, s.build_bins b, s.build_count, s.build_diags_eq⟩

/-! ## The background fill -/

/-- The fill is drawn over the whole screen, whatever was there (R291). -/
theorem pictureAt_fill_cons {view : State} {f : Fill} {rest : List Prim} {x y : Nat} (hx : f.x = 0) (hy : f.y = 0)
    (hw : f.w = view.cfg.screenWidth) (hh : f.h = view.cfg.screenHeight) (u v : Pixel)
    (inside : x < view.cfg.screenWidth ∧ y < view.cfg.screenHeight) :
    pictureAt view (.fill f :: rest) x y u = pictureAt view (.fill f :: rest) x y v := by
  have covers : f.x ≤ x ∧ x < f.x + f.w ∧ f.y ≤ y ∧ y < f.y + f.h := by omega
  simp only [pictureAt, if_pos inside, List.foldl_cons, paintPixel, if_pos covers]

/-- The primitives of a frame: none before the fill is a fill or is for bin 0. -/
theorem State.primsOf_buildActions (s : State) : ∃ ps, primsOf s.buildActions = ps ++ [(.fill s.backgroundFill, 0)] ∧
    (∀ pb ∈ ps, pb.2 ≠ 0 ∧ ∀ f, pb.1 ≠ .fill f) ∧
    ps.length ≤ s.planeActions.length + 4 * s.cfg.spriteSlots := by
  obtain ⟨ps, ds, hactions, hps, hlen, hds⟩ := s.buildActions_shape
  refine ⟨primsOf ps, by simp [hactions, primsOf_raises hds], fun pb hpb => ?_, (primsOf_length_le ps).trans hlen⟩
  obtain ⟨p, b, e, hb⟩ := hps _ (mem_primsOf hpb)
  obtain ⟨rfl, rfl⟩ : pb.1 = p ∧ pb.2 = b := by simpa using e
  exact hb

/-- A frame whose fill was not dropped has dropped nothing. -/
theorem State.fits_of_fill_kept {s : State} (kept : diagEvent .primOverflow 0 ∉ s.build.diags) :
    (primsOf s.buildActions).length ≤ s.cfg.primCapacity := by
  by_contra full
  rw [State.build_diags_eq, if_pos (by omega)] at kept
  simp at kept

section
variable {s : State} (fits : (primsOf s.buildActions).length ≤ s.cfg.primCapacity)
include fits

/-- A frame that fits has in each bin all that was emitted for it. -/
theorem State.build_bins_of_fits (b : Bin) : s.build.slot.bins[b] =
    ((primsOf s.buildActions).filter fun pb => decide (pb.2 = b)).map Prod.fst := by
  rw [State.build_bins, List.take_of_length_le fits]

theorem State.build_bin_zero : s.build.slot.bins[(0 : Bin)] = [.fill s.backgroundFill] := by
  obtain ⟨ps, hprims, others, -⟩ := s.primsOf_buildActions
  rw [State.build_bins_of_fits fits, hprims, List.filter_append,
    List.filter_eq_nil_iff.mpr fun pb h => by simpa using (others pb h).1]
  rfl

theorem State.fill_notMem_bin {b : Bin} (hb : b ≠ 0) (f : Fill) : Prim.fill f ∉ s.build.slot.bins[b] := by
  obtain ⟨ps, hprims, others, -⟩ := s.primsOf_buildActions
  rw [State.build_bins_of_fits fits, hprims]
  intro h
  obtain ⟨pb, hmem, hfill⟩ := List.mem_map.mp h
  obtain ⟨hmem, hbin⟩ := List.mem_filter.mp hmem
  rcases List.mem_append.mp hmem with hmem | hmem
  · exact (others pb hmem).2 f hfill
  · obtain rfl := List.mem_singleton.mp hmem
    exact hb (of_decide_eq_true hbin).symm

end

/-- Settles O47: bin 0, drawn first, is the fill, and the other bins hold none. -/
theorem backgroundFillIsDrawnFirst : Obligations.BackgroundFillIsDrawnFirst := by
  intro s kept
  have fits := State.fits_of_fill_kept kept
  have binZero : s.build.slot.bins[0] = [.fill s.backgroundFill] := State.build_bin_zero fits
  have list := s.build.slot.drawList_eq
  rw [binZero] at list
  simp only [List.reverse_singleton, List.cons_append, List.nil_append] at list
  refine ⟨_, list, fun f hf => ?_, fun view x y u v hcfg hx hy => ?_⟩
  · simp only [List.mem_append, List.mem_reverse] at hf
    rcases hf with (((hf | hf) | hf) | hf) | hf
    · exact State.fill_notMem_bin fits (b := 1) (by decide) f hf
    · exact State.fill_notMem_bin fits (b := 2) (by decide) f hf
    · exact State.fill_notMem_bin fits (b := 3) (by decide) f hf
    · exact State.fill_notMem_bin fits (b := 4) (by decide) f hf
    · exact State.fill_notMem_bin fits (b := 5) (by decide) f hf
  · rw [list]
    exact pictureAt_fill_cons rfl rfl (congrArg Config.screenWidth hcfg.symm) (congrArg Config.screenHeight hcfg.symm)
      u v (by rw [hcfg]; exact ⟨hx, hy⟩)

/-! ## The default frame -/

theorem length_flatMap_le {α β : Type} {f : α → List β} {n : Nat} (l : List α) (h : ∀ x ∈ l, (f x).length ≤ n) :
    (l.flatMap f).length ≤ l.length * n := by
  rw [List.length_flatMap, ← List.length_map (f := fun x => (f x).length)]
  exact List.sum_le_card_nsmul _ n (by simpa using h)

/-- At most three sub-segments cover a line of 320 pixels (R224). -/
theorem subSegments_length_default {wp : Nat} (hwp : 256 ∣ wp) (u : Nat) : (subSegments 320 wp 320 0 u).length ≤ 3 := by
  have bound := subSegments_length 320 wp hwp 320 0 u (by decide)
  have phase := Nat.mod_lt u (show 0 < 256 by decide)
  rw [ceilDiv] at bound
  omega

/-- A plane emits at most `3 * layers` segments a scanline at the default screen width. -/
theorem State.planeActions_length_default {s : State} (h : s.Wf) (hcfg : s.cfg = {}) : s.planeActions.length ≤ 2016 := by
  have width : s.cfg.screenWidth = 320 := by rw [hcfg]
  have height : s.cfg.screenHeight = 224 := by rw [hcfg]
  have plane (p : Plane) : ((s.planeRuns p).flatMap (s.flushRun p)).length ≤ 224 * (3 * (layersOf p).length) := by
    have runs : (s.planeRuns p).length ≤ 224 := by
      have := runsFrom_length (s.scrollAt p) (s.sourceRow p) (s.cfg.screenHeight - 1) 1 0 (s.sourceRow p 0) (s.scrollAt p 0)
      rw [State.planeRuns]
      omega
    refine (length_flatMap_le _ fun r _ => ?_).trans (Nat.mul_le_mul_right _ runs)
    have subs := subSegments_length_default (sizeFacts h.legalSize).width.1 (startColumn r.hs (8 * s.pw.toNat))
    refine (length_flatMap_le (n := (layersOf p).length) _ fun g _ => by simp).trans (Nat.mul_le_mul_right _ ?_)
    rw [width]
    exact subs
  have a := plane .a
  have b := plane .b
  simp only [layersOf, List.length_cons, List.length_nil] at a b
  simp only [State.planeActions, List.flatMap_cons, List.flatMap_nil, List.append_nil, List.length_append]
  omega

/-- Settles O48: 2016 segments, 320 sprite columns and the fill fit the capacity. -/
theorem defaultFrameNeverOverflows : Obligations.DefaultFrameNeverOverflows := by
  intro s h hcfg
  obtain ⟨ps, hprims, -, hlen⟩ := s.primsOf_buildActions
  have planes := State.planeActions_length_default h hcfg
  have slots : s.cfg.spriteSlots = 80 := by rw [hcfg]
  have capacity : s.cfg.primCapacity = 4096 := by rw [hcfg]
  have few : (primsOf s.buildActions).length ≤ 2337 := by
    rw [hprims, List.length_append, List.length_singleton]
    omega
  refine ⟨by rw [State.build_count]; omega, fun info hmem => ?_⟩
  obtain ⟨qs, ds, hactions, hqs, -, hds⟩ := s.buildActions_shape
  have silent : diagsOf qs = [] := diagsOf_eq_nil fun a ha => (hqs a ha).imp fun p ⟨b, e, _⟩ => ⟨b, e⟩
  have hdiags : diagsOf s.buildActions = diagsOf ds := by simp [hactions, silent]
  rw [State.build_diags_eq, List.drop_eq_nil_of_le (by rw [List.length_dropLast]; omega), if_neg (by omega), hdiags] at hmem
  rcases hds with rfl | ⟨j, rfl | rfl⟩ <;> simp [diagEvent] at hmem

end Sys2Proof.Machine
end

section
/-! SUPPORT. The Flushed step and a whole frame (47_frame_driver.md R270, R278 to R281, R290). -/

namespace Sys2Proof.Machine

/-! ## The Flushed step -/

/-- The Flushed step of a well-formed machine completes (R278). -/
theorem step_flush_next {s : State} (fits : s.regionsFit = true) (enabled : s.flushEnabled = true)
    (next : ∀ i rest, s.nextInput = some (i, rest) → i.isReset = false) :
    step s = .next { s.flush with phase := .presented } := by
  rw [step_flush enabled next, flushedStep, if_pos fits]

/-- Settles O49: `flush` writes out the uploads and what they change. -/
theorem flushUploadsExactlyTheFlagged : Obligations.FlushUploadsExactlyTheFlagged := by
  intro s h enabled next
  refine ⟨_, step_flush_next h.regions enabled next, ?_, ?_⟩ <;> rw [State.flush_shape]

theorem mem_insideTiles {pw ph : BitVec 8} {ts : List Nat} {t : Nat} :
    t ∈ insideTiles pw ph ts ↔ t ∈ ts ∧ t < pw.toNat * ph.toNat := by
  simp [insideTiles]

/-- The tile over column `c` and row `v` is swept exactly when it is flagged and lies inside the plane (R281). -/
theorem mem_insideTiles_at {pw ph : BitVec 8} {ts : List Nat} {x y : Nat} :
    x < pw.toNat ∧ y * pw.toNat + x ∈ insideTiles pw ph ts ↔
      (x < pw.toNat ∧ y < ph.toNat) ∧ y * pw.toNat + x ∈ ts := by
  rw [mem_insideTiles, and_assoc]
  refine and_congr_right fun hx => ?_
  have row : y * pw.toNat + x < pw.toNat * ph.toNat ↔ y < ph.toNat := by
    rw [Nat.mul_comm pw.toNat, ← Nat.div_lt_iff_lt_mul (by omega), Nat.add_comm, Nat.add_mul_div_right _ _ (by omega),
      Nat.div_eq_of_lt hx, Nat.zero_add]
  rw [row, and_comm]

section
variable {s : State} (legal : legalPlaneSize s.pw s.ph = true) {v c tile : Nat} (hc : c < texSide)
  (htile : v / 8 * s.pw.toNat + c / 8 = tile)
include legal hc htile

/-- Plane A's layers after the Flushed step: the sweep of plane B leaves them (R208, R281). -/
theorem State.flushedLayers_read_a {e : Half} (he : s.vram.read16 (s.paBase.toNat + 2 * tile) = e) {d : Byte}
    (hd : (decodeTile s.vram (tileRef e).pat (tileRef e).hf (tileRef e).vf (tileRef e).pal).getD
      (8 * (v % 8) + c % 8) 0 = d) :
    s.flushedLayers.lo.read (texAddr v c) =
        (if (c / 8 < s.pw.toNat ∧ v / 8 < s.ph.toNat) ∧ tile ∈ s.dirtyTileA then (if e.getLsbD 15 then 0 else d)
        else s.texALo.read (texAddr v c)) ∧
      s.flushedLayers.hi.read (texAddr v c) =
        if (c / 8 < s.pw.toNat ∧ v / 8 < s.ph.toNat) ∧ tile ∈ s.dirtyTileA then (if e.getLsbD 15 then d else 0)
        else s.texAHi.read (texAddr v c) := by
  have sweep (p : Plane) (ts : List Nat) := Layers.foldl_upload_read s.vram (s.planeBase p).toNat p legal v c hc
    (insideTiles s.pw s.ph ts) fun t ht => (mem_insideTiles.mp ht).2
  obtain ⟨loB, hiB, -⟩ := sweep .b s.dirtyTileB
    ((insideTiles s.pw s.ph s.dirtyTileA).foldl (Layers.upload s.vram s.paBase.toNat s.pw.toNat .a) s.layers)
  obtain ⟨loA, hiA, -⟩ := sweep .a s.dirtyTileA s.layers
  rw [if_neg (by simp)] at loB hiB
  simp only [mem_insideTiles_at, true_and] at loA hiA
  subst htile he hd
  exact ⟨loB.trans loA, hiB.trans hiA⟩

/-- Plane B's layer after the Flushed step: the sweep of plane A leaves it (R208, R281). -/
theorem State.flushedLayers_read_b {e : Half} (he : s.vram.read16 (s.pbBase.toNat + 2 * tile) = e) {d : Byte}
    (hd : (decodeTile s.vram (tileRef e).pat (tileRef e).hf (tileRef e).vf (tileRef e).pal).getD
      (8 * (v % 8) + c % 8) 0 = d) :
    s.flushedLayers.b.read (texAddr v c) =
      if (c / 8 < s.pw.toNat ∧ v / 8 < s.ph.toNat) ∧ tile ∈ s.dirtyTileB then d else s.texBLo.read (texAddr v c) := by
  have sweep (p : Plane) (ts : List Nat) := Layers.foldl_upload_read s.vram (s.planeBase p).toNat p legal v c hc
    (insideTiles s.pw s.ph ts) fun t ht => (mem_insideTiles.mp ht).2
  obtain ⟨-, -, ofB⟩ := sweep .b s.dirtyTileB
    ((insideTiles s.pw s.ph s.dirtyTileA).foldl (Layers.upload s.vram s.paBase.toNat s.pw.toNat .a) s.layers)
  obtain ⟨-, -, ofA⟩ := sweep .a s.dirtyTileA s.layers
  rw [if_neg (by simp)] at ofA
  simp only [mem_insideTiles_at, true_and] at ofB
  subst htile he hd
  exact ofB.trans (if_congr Iff.rfl rfl ofA)

end

/-- Settles O50: the copied blocks, and each plane's sweep of its own layers. -/
theorem flushCopiesTheFlaggedBlocks : Obligations.FlushCopiesTheFlaggedBlocks := by
  intro s t h enabled next hstep
  obtain ⟨-, rfl⟩ := flushedStep_next ((step_flush enabled next).symm.trans hstep)
  rw [State.flush_shape]
  refine ⟨fun a _ => State.read_copiedBlocks s (configFacts h.cfgLegal).blocks.2 a s.dirtyBlk s.texRaw,
    fun v c _ hc => ?_⟩
  obtain ⟨lo, hi⟩ := State.flushedLayers_read_a h.legalSize hc rfl rfl rfl (v := v)
  exact ⟨lo, hi, State.flushedLayers_read_b h.legalSize hc rfl rfl rfl⟩

/-! ## A whole frame -/

/-- A RENDER of the GPU idle with a VBLANK presented: the Building, the Flushed and the Presented step (R270). -/
def State.frame (s : State) (rest : List Input) : State :=
  ({ ({ s with inputs := .vblank :: rest } : State).buildingStep.flush with
    phase := .presented, inputs := rest } : State).present

theorem run_frame {s : State} {rest : List Input} (fits : s.regionsFit = true) (hinit : s.inited = true)
    (hpolicy : s.policy = .validated) (idle : s.gpuBusy = false)
    (header : s.headerNext 0x40000000 (.vblank :: rest)) : core.run 3 s = .next (s.frame rest) := by
  obtain ⟨hphase, hrx, hinputs⟩ := header
  have build : step s = .next ({ s with inputs := .vblank :: rest } : State).buildingStep :=
    (step_alone hphase hinputs hrx (o := .render) (by decide) (by decide)).trans (exec_render hinit hpolicy fits)
  have flush : step ({ s with inputs := .vblank :: rest } : State).buildingStep = .next
      { ({ s with inputs := .vblank :: rest } : State).buildingStep.flush with phase := .presented } := by
    refine step_flush_next ?_ ?_ ?_ <;> rw [State.buildingStep_shape]
    · exact fits
    · exact flushEnabled_iff.mpr ⟨rfl, idle⟩
    · intro i r next
      have oldest : some (Input.vblank, rest) = some (i, r) := next
      cases oldest
      rfl
  have present := step_vblank_present
    (s := { ({ s with inputs := .vblank :: rest } : State).buildingStep.flush with phase := .presented })
    (rest := rest) (by rw [State.flush_shape, State.buildingStep_shape]; rfl) rfl
  rw [run_succ_of_step (M := core) build, run_succ_of_step (M := core) flush]
  exact (run_one (M := core) _).trans present

/-- What a frame leaves in the slots: the one built, and the one displayed before. -/
theorem State.frame_slot (s : State) (rest : List Input) (i : SlotId) :
    (s.frame rest).slot i = ({ s with inputs := .vblank :: rest } : State).buildingStep.slot i := by
  rw [State.frame, State.flush_shape]
  cases i <;> rfl

theorem State.build_inputs (s : State) (inputs : List Input) : ({ s with inputs := inputs } : State).build = s.build :=
  State.build_congr ⟨rfl, rfl, rfl, rfl, rfl, rfl, rfl, rfl, rfl, rfl⟩

theorem State.frame_slot_back (s : State) (rest : List Input) : (s.frame rest).slot s.front.other = s.build.slot :=
  (s.frame_slot rest _).trans <| (State.buildingStep_slot_back _).trans (congrArg Built.slot (s.build_inputs _))

theorem State.frame_slot_front (s : State) (rest : List Input) : (s.frame rest).slot s.front = s.slot s.front := by
  refine (s.frame_slot rest _).trans ((State.buildingStep_slot_front _).trans ?_)
  cases s.front <;> rfl

/-- The events of a frame, in the order of its steps (R290). -/
theorem State.frame_out (s : State) (rest : List Input) : (s.frame rest).out =
    s.out ++ s.build.diags ++ s.flushEvents (convertPalette s.cfg s.cram) ++
      [.install s.front.other s.front.other.disp s.front.other.draw,
       .submitOt s.front.other s.build.slot.drawList, .flip s.front.other] ++
      (if s.vintEn then [.vint] else []) := by
  rw [← s.frame_slot_back rest, ← s.build_inputs (.vblank :: rest), List.append_assoc _ _ (ite _ _ _), State.frame,
    State.flush_shape, State.buildingStep_shape]
  rfl

/-- Settles O52: the three steps, and what they leave. -/
theorem renderCompletesWithOneVblank : Obligations.RenderCompletesWithOneVblank := by
  intro s rest h hinit hpolicy idle header
  refine ⟨_, run_frame h.regions hinit hpolicy idle header, s.frame_out rest, ?_⟩
  have back := s.frame_slot_back rest
  have front := s.frame_slot_front rest
  refine ⟨rfl, rfl, ?_, rfl, ?_, ?_, ?_, ?_, ?_, ?_, back, front⟩ <;>
    rw [State.frame, State.flush_shape, State.buildingStep_shape] <;> rfl

end Sys2Proof.Machine
end
